-- ==== Sys2Proof/Word.lean ====
section
/-! DEFINITION. The word types of the BSC unit: 64-bit buffer words, operands, cursors and results (00_scope.md R8, R80),
32-bit command words (R81), and the largest 64-bit number (R11). -/

namespace Sys2Proof

/-- A 64-bit word of the buffer, an operand, a cursor or a result (00_scope.md R8; 30_encoding.md R80). -/
abbrev Word := BitVec 64

/-- A byte of the byte view of the buffer (20_memory.md R60). -/
abbrev Byte := BitVec 8

/-- A 32-bit command word `W` (30_encoding.md R81). -/
abbrev CommandWord := BitVec 32

/-- `MAX64` = 2^64 - 1 (00_scope.md R11). -/
abbrev max64 : Nat := 2 ^ 64 - 1

end Sys2Proof
end

