-- ==== Sys2Proof/Config.lean ====
section
/-! DEFINITION. The parameters of an instance of the unit, constant for its life (00_scope.md R9, R10). -/

namespace Sys2Proof

/-- The endianness variant `E` (00_scope.md R9): the bit order inside 64-bit words (20_memory.md R52, R53). -/
inductive Endian where
  /-- Most significant bit first. -/
  | be
  /-- Least significant bit first. -/
  | le
deriving DecidableEq, Repr

/-- The configuration (E, BUF_WORDS, N_READERS) of an instance (00_scope.md R9, R19). It is not state of the unit
(10_state.md R21); log entry 1 says why `State` carries it. -/
structure Config where
  /-- `E`. -/
  endian : Endian
  /-- `BUF_WORDS`, the number of 64-bit words of the buffer. -/
  bufWords : Nat
  /-- `N_READERS`, the number of reader contexts. -/
  nReaders : Nat
deriving DecidableEq, Repr

/-- `CAP_BITS` = 64 * BUF_WORDS (00_scope.md R9). -/
def Config.capBits (c : Config) : Nat := 64 * c.bufWords

/-- The ranges of the parameters: 1 <= BUF_WORDS <= 2^58 - 1 and 1 <= N_READERS <= 16 (00_scope.md R9). -/
abbrev Config.legal (c : Config) : Prop :=
  1 ≤ c.bufWords ∧ c.bufWords ≤ 2 ^ 58 - 1 ∧ 1 ≤ c.nReaders ∧ c.nReaders ≤ 16

/-- DESIGN CHOICE, unsafe (log entry 1): the instance whose reset state `State.reset` is. The spec leaves the three
parameters open (92_eei_decisions.md D3, D9, D11). -/
def Config.reference : Config where
  endian := .be
  bufWords := 4
  nReaders := 16

end Sys2Proof
end

