-- ==== Sys2Proof/Syntax.lean ====
section
/-! DEFINITION. The 28 commands of spec/opcode_table.json, one constructor a row, in the table's order. The fields are
those the command word carries (30_encoding.md R82, R85): `n` is the field N, `rid` the field RID. The operands A and B
travel beside the word and are no part of it (R80). -/

namespace Sys2Proof

/-- A command, as decoded from its word alone (30_encoding.md R85, R88). -/
inductive Instr where
  /-- RESET (46_system.md R250). -/
  | reset
  /-- CSRR csr (46_system.md R251). -/
  | csrr (csr : BitVec 7)
  /-- BUF_READ (40_bitio.md R117). -/
  | bufRead
  /-- WRITE_BITS n (40_bitio.md R110). -/
  | writeBits (n : BitVec 7)
  /-- WRITE_UNARY (40_bitio.md R111). -/
  | writeUnary
  /-- FLUSH (40_bitio.md R112). -/
  | flush
  /-- READ_BITS@rid n (40_bitio.md R113). -/
  | readBits (rid : BitVec 4) (n : BitVec 7)
  /-- READ_UNARY@rid (40_bitio.md R114). -/
  | readUnary (rid : BitVec 4)
  /-- SET_BIT_POS@rid (40_bitio.md R115). -/
  | setBitPos (rid : BitVec 4)
  /-- GET_BIT_POS@rid (40_bitio.md R116). -/
  | getBitPos (rid : BitVec 4)
  /-- ENC.GAMMA (42_codec_gamma_delta.md R161). -/
  | encGamma
  /-- ENC.DELTA (42_codec_gamma_delta.md R166). -/
  | encDelta
  /-- ENC.EXPGOLOMB (43_codec_expgolomb_rice.md R181). -/
  | encExpGolomb
  /-- ENC.ZETA (44_codec_zeta_minbin.md R202). -/
  | encZeta
  /-- ENC.RICE (43_codec_expgolomb_rice.md R186). -/
  | encRice
  /-- ENC.MINBIN (44_codec_zeta_minbin.md R206). -/
  | encMinbin
  /-- DEC.GAMMA@rid (42_codec_gamma_delta.md R162). -/
  | decGamma (rid : BitVec 4)
  /-- DEC.DELTA@rid (42_codec_gamma_delta.md R167). -/
  | decDelta (rid : BitVec 4)
  /-- DEC.EXPGOLOMB@rid (43_codec_expgolomb_rice.md R182). -/
  | decExpGolomb (rid : BitVec 4)
  /-- DEC.ZETA@rid (44_codec_zeta_minbin.md R203). -/
  | decZeta (rid : BitVec 4)
  /-- DEC.RICE@rid (43_codec_expgolomb_rice.md R187). -/
  | decRice (rid : BitVec 4)
  /-- DEC.MINBIN@rid (44_codec_zeta_minbin.md R207). -/
  | decMinbin (rid : BitVec 4)
  /-- LEN.GAMMA (42_codec_gamma_delta.md R163). -/
  | lenGamma
  /-- LEN.DELTA (42_codec_gamma_delta.md R168). -/
  | lenDelta
  /-- LEN.EXPGOLOMB (43_codec_expgolomb_rice.md R183). -/
  | lenExpGolomb
  /-- LEN.ZETA (44_codec_zeta_minbin.md R204). -/
  | lenZeta
  /-- LEN.RICE (43_codec_expgolomb_rice.md R188). -/
  | lenRice
  /-- LEN.MINBIN (44_codec_zeta_minbin.md R208). -/
  | lenMinbin
deriving DecidableEq, Repr

end Sys2Proof
end

