-- ==== Sys2Proof/WellFormed.lean ====
section
/-! DEFINITION. Which field values a command admits (30_encoding.md R83; the cases (d), (e) and (f) of R89). -/

namespace Sys2Proof

/-- The legal bit counts of WRITE_BITS and READ_BITS: 0 to 64 (30_encoding.md R83, R89 (d)). -/
abbrev legalCount (n : BitVec 7) : Prop := n.toNat ≤ 64

/-- The CSR numbers that exist: 0 to 3 (10_state.md R30; 30_encoding.md R89 (e)). -/
abbrev legalCsr (n : BitVec 7) : Prop := n.toNat ≤ 3

/-- The reader contexts that exist: 0 to N_READERS - 1 (30_encoding.md R83, R89 (f)). -/
abbrev legalReader (nReaders : Nat) (rid : BitVec 4) : Prop := rid.toNat < nReaders

/-- A command whose fields hold legal values on an instance with `nReaders` reader contexts (30_encoding.md R83, R88). -/
def Instr.wellFormed (nReaders : Nat) : Instr → Bool
  | .reset => true
  | .csrr csr => legalCsr csr
  | .bufRead => true
  | .writeBits n => legalCount n
  | .writeUnary => true
  | .flush => true
  | .readBits rid n => decide (legalReader nReaders rid) && decide (legalCount n)
  | .readUnary rid => legalReader nReaders rid
  | .setBitPos rid => legalReader nReaders rid
  | .getBitPos rid => legalReader nReaders rid
  | .encGamma => true
  | .encDelta => true
  | .encExpGolomb => true
  | .encZeta => true
  | .encRice => true
  | .encMinbin => true
  | .decGamma rid => legalReader nReaders rid
  | .decDelta rid => legalReader nReaders rid
  | .decExpGolomb rid => legalReader nReaders rid
  | .decZeta rid => legalReader nReaders rid
  | .decRice rid => legalReader nReaders rid
  | .decMinbin rid => legalReader nReaders rid
  | .lenGamma => true
  | .lenDelta => true
  | .lenExpGolomb => true
  | .lenZeta => true
  | .lenRice => true
  | .lenMinbin => true

end Sys2Proof
end

