-- ==== Sys2Proof/Decode.lean ====
section
/-! DEFINITION. The command decoder, total on every 32-bit word and rejecting by name (30_encoding.md R82 to R90), the
encoder written from the same tables, and the fixed entry point `decodeTableWord`. -/

namespace Sys2Proof

/-- Why a word is illegal: the cases (a) to (g) of 30_encoding.md R89. Each raises IllegalCommand (60_exceptions.md R269). -/
inductive IllegalWord where
  /-- (a) the opcode is reserved (R84). -/
  | reservedOp
  /-- (b) W[19] or W[31:24] is not zero. -/
  | reservedBits
  /-- (c) a field the command does not use is not zero. -/
  | unusedField
  /-- (d) a bit count above 64. -/
  | bitCount
  /-- (e) a CSR number above 3. -/
  | csrNumber
  /-- (f) a reader context that does not exist. -/
  | readerContext
  /-- (g) a codec selector above 5. -/
  | codecSelector
deriving DecidableEq, Repr

/-- `OP` = W[7:0] (30_encoding.md R82). -/
def opField (w : CommandWord) : BitVec 8 := w.extractLsb' 0 8

/-- `CODEC` = W[11:8] (30_encoding.md R82). -/
def codecField (w : CommandWord) : BitVec 4 := w.extractLsb' 8 4

/-- `N` = W[18:12] (30_encoding.md R82). -/
def nField (w : CommandWord) : BitVec 7 := w.extractLsb' 12 7

/-- W[19], reserved (30_encoding.md R82). -/
def reservedBit (w : CommandWord) : BitVec 1 := w.extractLsb' 19 1

/-- `RID` = W[23:20] (30_encoding.md R82). -/
def ridField (w : CommandWord) : BitVec 4 := w.extractLsb' 20 4

/-- W[31:24], reserved (30_encoding.md R82). -/
def topField (w : CommandWord) : BitVec 8 := w.extractLsb' 24 8

/-- The check on fields that must be zero (30_encoding.md R88, R90): the reserved bits, and each of CODEC, N and RID
that the command does not use. -/
def requireZero (usesCodec usesN usesRid : Bool) (w : CommandWord) (k : Except IllegalWord Instr) :
    Except IllegalWord Instr :=
  if reservedBit w ≠ 0 ∨ topField w ≠ 0 then .error .reservedBits
  else if (usesCodec = false ∧ codecField w ≠ 0) ∨ (usesN = false ∧ nField w ≠ 0) ∨ (usesRid = false ∧ ridField w ≠ 0) then
    .error .unusedField
  else k

/-- The check of the bit count N (30_encoding.md R89 (d)). -/
def requireCount (w : CommandWord) (k : Except IllegalWord Instr) : Except IllegalWord Instr :=
  if legalCount (nField w) then k else .error .bitCount

/-- The check of the CSR number N (30_encoding.md R89 (e)). -/
def requireCsr (w : CommandWord) (k : Except IllegalWord Instr) : Except IllegalWord Instr :=
  if legalCsr (nField w) then k else .error .csrNumber

/-- The check of the reader context RID (30_encoding.md R89 (f)). -/
def requireReader (nReaders : Nat) (w : CommandWord) (k : Except IllegalWord Instr) : Except IllegalWord Instr :=
  if legalReader nReaders (ridField w) then k else .error .readerContext

/-- The codec selector (30_encoding.md R86): 0 GAMMA, 1 DELTA, 2 EXPGOLOMB, 3 ZETA, 4 RICE, 5 MINBIN, the rest reserved. -/
def selectCodec (w : CommandWord) (gamma delta expGolomb zeta rice minbin : Instr) : Except IllegalWord Instr :=
  match (codecField w).toNat with
  | 0 => .ok gamma
  | 1 => .ok delta
  | 2 => .ok expGolomb
  | 3 => .ok zeta
  | 4 => .ok rice
  | 5 => .ok minbin
  | _ => .error .codecSelector

/-- Decode a command word (30_encoding.md R84, R85, R88). It reads W and N_READERS and nothing else
(60_exceptions.md R265). -/
def decode (nReaders : Nat) (w : CommandWord) : Except IllegalWord Instr :=
  match (opField w).toNat with
  | 0x01 => requireZero false false false w (.ok .reset)
  | 0x02 => requireZero false true false w (requireCsr w (.ok (.csrr (nField w))))
  | 0x03 => requireZero false false false w (.ok .bufRead)
  | 0x10 => requireZero false true false w (requireCount w (.ok (.writeBits (nField w))))
  | 0x11 => requireZero false false false w (.ok .writeUnary)
  | 0x12 => requireZero false false false w (.ok .flush)
  | 0x18 => requireZero false true true w
      (requireCount w (requireReader nReaders w (.ok (.readBits (ridField w) (nField w)))))
  | 0x19 => requireZero false false true w (requireReader nReaders w (.ok (.readUnary (ridField w))))
  | 0x1A => requireZero false false true w (requireReader nReaders w (.ok (.setBitPos (ridField w))))
  | 0x1B => requireZero false false true w (requireReader nReaders w (.ok (.getBitPos (ridField w))))
  | 0x20 => requireZero true false false w
      (selectCodec w .encGamma .encDelta .encExpGolomb .encZeta .encRice .encMinbin)
  | 0x21 => requireZero true false true w (requireReader nReaders w
      (selectCodec w (.decGamma (ridField w)) (.decDelta (ridField w)) (.decExpGolomb (ridField w))
        (.decZeta (ridField w)) (.decRice (ridField w)) (.decMinbin (ridField w))))
  | 0x22 => requireZero true false false w
      (selectCodec w .lenGamma .lenDelta .lenExpGolomb .lenZeta .lenRice .lenMinbin)
  | _ => .error .reservedOp

/-- A command word from its fields, the reserved bits zero (30_encoding.md R82). -/
def commandWord (op : BitVec 8) (codec : BitVec 4) (n : BitVec 7) (rid : BitVec 4) : CommandWord :=
  0#8 ++ rid ++ 0#1 ++ n ++ codec ++ op

/-- The word of a command (30_encoding.md R84 to R87, R93). -/
def encode : Instr → CommandWord
  | .reset => commandWord 0x01 0 0 0
  | .csrr csr => commandWord 0x02 0 csr 0
  | .bufRead => commandWord 0x03 0 0 0
  | .writeBits n => commandWord 0x10 0 n 0
  | .writeUnary => commandWord 0x11 0 0 0
  | .flush => commandWord 0x12 0 0 0
  | .readBits rid n => commandWord 0x18 0 n rid
  | .readUnary rid => commandWord 0x19 0 0 rid
  | .setBitPos rid => commandWord 0x1A 0 0 rid
  | .getBitPos rid => commandWord 0x1B 0 0 rid
  | .encGamma => commandWord 0x20 0 0 0
  | .encDelta => commandWord 0x20 1 0 0
  | .encExpGolomb => commandWord 0x20 2 0 0
  | .encZeta => commandWord 0x20 3 0 0
  | .encRice => commandWord 0x20 4 0 0
  | .encMinbin => commandWord 0x20 5 0 0
  | .decGamma rid => commandWord 0x21 0 0 rid
  | .decDelta rid => commandWord 0x21 1 0 rid
  | .decExpGolomb rid => commandWord 0x21 2 0 rid
  | .decZeta rid => commandWord 0x21 3 0 rid
  | .decRice rid => commandWord 0x21 4 0 rid
  | .decMinbin rid => commandWord 0x21 5 0 rid
  | .lenGamma => commandWord 0x22 0 0 0
  | .lenDelta => commandWord 0x22 1 0 0
  | .lenExpGolomb => commandWord 0x22 2 0 0
  | .lenZeta => commandWord 0x22 3 0 0
  | .lenRice => commandWord 0x22 4 0 0
  | .lenMinbin => commandWord 0x22 5 0 0

/-- The command word whose low `nbits` bits are those of `w`, every bit above zero. The port takes the word whole, so no
byte order enters (30_encoding.md R80, R81). -/
def tableWord (nbits w : Nat) : CommandWord := BitVec.ofNat 32 (w % 2 ^ nbits)

/-- The command the decoder reads from an instruction of the opcode table, on the instance of `State.reset`
(log entry 1). -/
def decodeTableWord (nbits w : Nat) : Option Instr :=
  match decode Config.reference.nReaders (tableWord nbits w) with
  | .ok i => some i
  | .error _ => none

end Sys2Proof
end

