-- ==== Sys2Proof/Machine/State.lean ====
section
/-! DEFINITION. The state of the BSC unit as plain data: the five items of 10_state.md R21, the configuration of the
instance, and the ports of the transaction (30_encoding.md R80), with the state after reset (70_reset_and_hazards.md R300). -/

namespace Sys2Proof.Machine

/-- The mode of the unit (10_state.md R26). -/
inductive Mode where
  /-- Bits are appended; encoded 0. -/
  | building
  /-- Bits are only read; encoded 1. -/
  | frozen
deriving DecidableEq, Repr

/-- The seven faults of 60_exceptions.md R261, codes 1 to 7. Code 0 (NONE) is the absence of a fault, and codes 8 to 15
are never stored (10_state.md R27), so the type leaves them out (93_implementation_defined.md V4; log entry 9). -/
inductive FaultCode where
  /-- Code 1: the command word is illegal (R269). -/
  | illegalCommand
  /-- Code 2: a writer command in FROZEN or a reader command in BUILDING (R270). -/
  | modeViolation
  /-- Code 3: a codec parameter outside its domain (R271). -/
  | invalidParameter
  /-- Code 4: a value outside the codec's accepted input (R272). -/
  | valueOutOfDomain
  /-- Code 5: a write would pass CAP_BITS (R273). -/
  | bufferOverflow
  /-- Code 6: a read would pass WLEN, or BUF_READ beyond the last word (R274). -/
  | readPastEnd
  /-- Code 7: DEC meets bits no ENC of that codec could have written (R275). -/
  | malformedStream
deriving DecidableEq, Repr

/-- The buffer as bytes in stream order: byte `j` is stream positions 8j to 8j + 7 (20_memory.md R60; log entry 6).
Canonical form (`Memory.wf`): addresses strictly rising, no entry equal to what an unlisted address reads as. -/
abbrev Memory := List Host.Cell

/-- What a byte of the buffer that nothing is listed for reads as. DESIGN CHOICE, unsafe (log entry 5): the bits are
unspecified (10_state.md R24) and a model may start them as all zeros (70_reset_and_hazards.md R301). -/
def unlistedByte : Byte := 0

/-- What the host puts on the unit's port: one transaction (30_encoding.md R80) or the hardware reset
(70_reset_and_hazards.md R300, R302). Log entries 2 and 13. -/
inductive HostEvent where
  /-- A command word W with its operands A and B. -/
  | command (w : CommandWord) (a b : Word)
  /-- The platform's reset signal. -/
  | hardwareReset
deriving DecidableEq, Repr

/-- The answer (S, R) of a transaction (30_encoding.md R80). `result` is none where R is unspecified (log entry 4). -/
structure Reply where
  /-- `S`: 0 OK, 1 to 7 the fault raised, 15 BLOCKED. -/
  status : BitVec 4
  /-- `R`, when S = 0. -/
  result : Option Word
deriving DecidableEq, Repr

/-- The state. `buf`, `wlen`, `mode`, `fault` and `rpos` are the unit's (10_state.md R21); `cfg` is the instance's
configuration (log entry 1); `inputs`, `opA`, `opB` and `reply` are the ports (log entries 2, 3, 4). -/
structure State where
  /-- The configuration (E, BUF_WORDS, N_READERS); no step changes it (00_scope.md R9). -/
  cfg : Config
  /-- `BUF` (10_state.md R23). -/
  buf : Memory
  /-- `WLEN`, a natural number at most CAP_BITS (10_state.md R25). -/
  wlen : Nat
  /-- `MODE` (10_state.md R26). -/
  mode : Mode
  /-- `FAULT`; none is code 0 (10_state.md R27). -/
  fault : Option FaultCode
  /-- `RPOS`: contexts 0 to N_READERS - 1 exist, the places above are unused and stay 0 (10_state.md R28; log entry 8). -/
  rpos : Vector Word 16
  /-- The model's own: the host's events that the unit has not taken yet, the next one first. -/
  inputs : List HostEvent
  /-- The model's own: operand port A of the command being executed. -/
  opA : Word
  /-- The model's own: operand port B of the command being executed. -/
  opB : Word
  /-- The model's own: the answer to the last command, none before the first. -/
  reply : Option Reply
deriving DecidableEq, Repr

/-- Why the machine stops with a fault: never. For every state, word and operands a command completes, raises one of the
unit's own faults (a next state with FAULT written, 60_exceptions.md R266) or is blocked (R264), so the type has no
constructor (log entry 11). Safe: nothing can be proved from a stop that cannot happen. -/
inductive Fault where
deriving DecidableEq, Repr

/-- Why an instruction has no meaning. -/
inductive Refusal where
  /-- Raised by an arm of `exec` whose instruction has no meaning yet; no arm is left so. Safe: the machine stops. -/
  | notModelled (mnemonic : String)
deriving DecidableEq, Repr

/-- The state of an instance after hardware reset (10_state.md R40; 70_reset_and_hazards.md R300), nothing on the ports. -/
def State.resetWith (c : Config) : State where
  cfg := c
  buf := []
  wlen := 0
  mode := .building
  fault := none
  rpos := Vector.replicate 16 0
  inputs := []
  opA := 0
  opB := 0
  reply := none

/-- The machine right after reset (70_reset_and_hazards.md R300), for the instance of log entry 1. -/
def State.reset : State := State.resetWith Config.reference

end Sys2Proof.Machine
end

