-- ==== Sys2Proof/Machine/Bits.lean ====
section
/-! DEFINITION. The notation of 00_scope.md as functions: logarithm, low bits, rounding up (R11, R12), and bit strings in
stream order (R13), among them the strings of the two primitive tokens (41_codec_contract.md R141, R142). -/

namespace Sys2Proof.Machine

/-- `flog2(n)`, the largest h with 2^h <= n (00_scope.md R11). `flog2 0` is never evaluated by a rule. -/
def flog2 (n : Nat) : Nat := Nat.log2 n

/-- `low(v, n)`, the low n bits of v (00_scope.md R12). -/
def low (v n : Nat) : Nat := v % 2 ^ n

/-- `ceil(n / 64)`: how many words hold n bits (00_scope.md R11). -/
def wordsFor (n : Nat) : Nat := (n + 63) / 64

/-- The bits of the n-bit token of value v in stream order: bit j is v[n - 1 - j] when E = BE and v[j] when E = LE
(20_memory.md R53; 41_codec_contract.md R142). -/
def tokenString (e : Endian) (v n : Nat) : List Bool :=
  (List.range n).map fun j =>
    match e with
    | .be => v.testBit (n - 1 - j)
    | .le => v.testBit j

/-- The bits of a unary run of value q: q zeros and a one, for both values of E (40_bitio.md R111). -/
def unaryString (q : Nat) : List Bool := List.replicate q false ++ [true]

/-- A primitive token (41_codec_contract.md R141). -/
inductive Token where
  /-- `U(q)`, a unary run of value q. -/
  | unary (q : Nat)
  /-- `B(v, n)`, an n-bit token of value v. -/
  | binary (v n : Nat)
deriving DecidableEq, Repr

/-- The bit string of a token in stream order (41_codec_contract.md R142). -/
def Token.string (e : Endian) : Token → List Bool
  | .unary q => unaryString q
  | .binary v n => tokenString e v n

/-- The bit string of a token list: the tokens in list order (41_codec_contract.md R141, R142). -/
def codeString (e : Endian) (ts : List Token) : List Bool := ts.flatMap (Token.string e)

/-- The length of a token in bits (41_codec_contract.md R141). -/
def Token.length : Token → Nat
  | .unary q => q + 1
  | .binary _ n => n

/-- The length of a token list in bits (41_codec_contract.md R141). -/
def codeLength (ts : List Token) : Nat := (ts.map Token.length).sum

end Sys2Proof.Machine
end

