-- ==== Sys2Proof/Machine/Ops.lean ====
section
/-! DEFINITION. The named operations over the buffer, the cursors and the fault register that every command is written
with (20_memory.md R50 to R60; 60_exceptions.md R265, R266, R267; 46_system.md R250). -/

namespace Sys2Proof.Machine

/-! ## The buffer as bytes -/

/-- The canonical form of the buffer: addresses strictly rising, no entry equal to what an unlisted address reads as. -/
abbrev Memory.wf (m : Memory) : Prop :=
  m.Pairwise (fun c d => c.1 < d.1) ∧ ∀ c ∈ m, c.2 ≠ unlistedByte

/-- The byte at an address of the byte view (20_memory.md R60). -/
def Memory.readByte : Memory → Nat → Byte
  | [], _ => unlistedByte
  | (b, w) :: rest, a => if b = a then w else Memory.readByte rest a

/-- Store a byte, keeping the canonical form: storing what an unlisted address reads as removes the entry. -/
def Memory.writeByte : Memory → Nat → Byte → Memory
  | [], a, v => if v = unlistedByte then [] else [(a, v)]
  | (b, w) :: rest, a, v =>
    if b < a then (b, w) :: Memory.writeByte rest a v
    else if b = a then (if v = unlistedByte then rest else (a, v) :: rest)
    else if v = unlistedByte then (b, w) :: rest else (a, v) :: (b, w) :: rest

/-- Which bit of its byte stream position p is: bit 7 - p mod 8 when E = BE, bit p mod 8 when E = LE
(20_memory.md R60, which is R52 seen byte by byte). -/
def bitOfByte (e : Endian) (p : Nat) : Nat :=
  match e with
  | .be => 7 - p % 8
  | .le => p % 8

/-- A byte with bit k set to v. -/
def setByteBit (b : Byte) (k : Nat) (v : Bool) : Byte :=
  if v then b ||| BitVec.twoPow 8 k else b &&& ~~~ BitVec.twoPow 8 k

/-- `bit(p)`, the stream bit at position p (20_memory.md R52). -/
def Memory.bit (m : Memory) (e : Endian) (p : Nat) : Bool :=
  (m.readByte (p / 8)).getLsbD (bitOfByte e p)

/-- `bit(p) <- v` (20_memory.md R52). -/
def Memory.setBit (m : Memory) (e : Endian) (p : Nat) (v : Bool) : Memory :=
  m.writeByte (p / 8) (setByteBit (m.readByte (p / 8)) (bitOfByte e p) v)

/-- Write a bit string at positions p, p + 1, … and no other (20_memory.md R55; 40_bitio.md R111, R112). -/
def Memory.writeString (m : Memory) (e : Endian) : Nat → List Bool → Memory
  | _, [] => m
  | p, v :: rest => Memory.writeString (m.setBit e p v) e (p + 1) rest

/-- `MemWrite(p, n, v)` (20_memory.md R55): the low n bits of v as a token at position p. -/
def Memory.memWrite (m : Memory) (e : Endian) (p n v : Nat) : Memory :=
  m.writeString e p (tokenString e (low v n) n)

/-- `MemRead(p, n)` (20_memory.md R56): the n-bit token at position p, right-justified. The bit of position p + j has
weight 2^(n - 1 - j) when E = BE and 2^j when E = LE. -/
def Memory.memRead (m : Memory) (e : Endian) (p : Nat) : Nat → Nat
  | 0 => 0
  | n + 1 =>
    match e with
    | .be => 2 * Memory.memRead m e p n + (m.bit e (p + n)).toNat
    | .le => Memory.memRead m e p n + 2 ^ n * (m.bit e (p + n)).toNat

/-- The number whose bytes are given, least significant first. -/
def bytesToNat : List Byte → Nat
  | [] => 0
  | b :: rest => b.toNat + 256 * bytesToNat rest

/-- `BUF[i]` (10_state.md R23), from its eight bytes of the byte view: most significant byte first when E = BE, least
significant byte first when E = LE (20_memory.md R60). -/
def Memory.word (m : Memory) (e : Endian) (i : Nat) : Word :=
  let bytes := (List.range 8).map fun t => m.readByte (8 * i + t)
  BitVec.ofNat 64 (bytesToNat (match e with | .be => bytes.reverse | .le => bytes))

/-! ## The stream of a state -/

/-- `bit(p)` of the unit (20_memory.md R52). -/
def State.bit (s : State) (p : Nat) : Bool := s.buf.bit s.cfg.endian p

/-- `MemRead(p, n)` of the unit (20_memory.md R56). -/
def State.memRead (s : State) (p n : Nat) : Nat := s.buf.memRead s.cfg.endian p n

/-- `BUF[i]` of the unit (10_state.md R23). -/
def State.word (s : State) (i : Nat) : Word := s.buf.word s.cfg.endian i

/-- Append a bit string at the write cursor and move the cursor past it (20_memory.md R72 (1)). -/
def State.append (s : State) (bits : List Bool) : State :=
  { s with buf := s.buf.writeString s.cfg.endian s.wlen bits, wlen := s.wlen + bits.length }

/-- Append the n-bit token of value v: MemWrite at WLEN, then WLEN <- WLEN + n (40_bitio.md R110). -/
def State.appendToken (s : State) (v n : Nat) : State :=
  { s with buf := s.buf.memWrite s.cfg.endian s.wlen n v, wlen := s.wlen + n }

/-- Append the unary run of value q (40_bitio.md R111). -/
def State.appendUnary (s : State) (q : Nat) : State := s.append (unaryString q)

/-- Lay one primitive token at the write cursor, as R110 and R111 do (41_codec_contract.md R143). -/
def State.layToken (s : State) : Token → State
  | .unary q => s.appendUnary q
  | .binary v n => s.appendToken v n

/-- Lay the tokens of a codeword in order (41_codec_contract.md R143). -/
def State.layTokens (s : State) (ts : List Token) : State := ts.foldl State.layToken s

/-- Write zeros from WLEN to the end of the last partial word, leaving WLEN as it is (40_bitio.md R112). -/
def State.pad (s : State) : State :=
  { s with buf := s.buf.writeString s.cfg.endian s.wlen (List.replicate (64 * wordsFor s.wlen - s.wlen) false) }

/-! ## The read cursors -/

/-- `RPOS[rid]` (10_state.md R28). -/
def State.cursor (s : State) (rid : BitVec 4) : Word := s.rpos[rid.toNat]'(rid.isLt)

/-- `RPOS[rid] <- p` (10_state.md R28). -/
def State.setCursor (s : State) (rid : BitVec 4) (p : Word) : State :=
  { s with rpos := s.rpos.set rid.toNat p rid.isLt }

/-! ## How a command ends -/

/-- What a meaning answers. -/
abbrev Result := Host.Outcome State Fault Refusal

/-- The 4-bit code of a fault (60_exceptions.md R261). -/
def FaultCode.code : FaultCode → BitVec 4
  | .illegalCommand => 1
  | .modeViolation => 2
  | .invalidParameter => 3
  | .valueOutOfDomain => 4
  | .bufferOverflow => 5
  | .readPastEnd => 6
  | .malformedStream => 7

/-- `return v`: the command ends with S = 0 and R = v (00_scope.md R14; 30_encoding.md R80). -/
def finish (s : State) (r : Word) : Result :=
  .next { s with reply := some { status := 0, result := some r } }

/-- `raise F(code)`, the taking of a fault: FAULT <- code, S = code, R unspecified, every other piece of state as it was
before the command (60_exceptions.md R266, R277). -/
def raise (s : State) (c : FaultCode) : Result :=
  .next { s with fault := some c, reply := some { status := c.code, result := none } }

/-- BLOCKED: S = 15, R unspecified, no state change (60_exceptions.md R265, R267). -/
def blocked (s : State) : Result :=
  .next { s with reply := some { status := 15, result := none } }

/-- What an illegal word does: IllegalCommand, or BLOCKED when a fault is already recorded (60_exceptions.md R265). -/
def illegal (s : State) : Result :=
  if s.fault.isSome then blocked s else raise s .illegalCommand

/-- The five items of the unit's state at their reset values (46_system.md R250; 70_reset_and_hazards.md R300). The one
way out of a fault (60_exceptions.md R277). BUF becomes unspecified: log entry 5. -/
def State.resetUnit (s : State) : State :=
  { s with buf := [], wlen := 0, mode := .building, fault := none, rpos := Vector.replicate 16 0 }

/-- Take one command from the port: latch its operands (30_encoding.md R80; log entries 2 and 3). -/
def State.accept (s : State) (a b : Word) (rest : List HostEvent) : State :=
  { s with inputs := rest, opA := a, opB := b }

/-- Hardware reset (70_reset_and_hazards.md R300, R302): the reset state of the same instance. The events the host has
queued behind it stay queued (log entry 13). -/
def State.hardwareReset (s : State) (rest : List HostEvent) : State :=
  { State.resetWith s.cfg with inputs := rest }

/-- Put a command at the head of the port's queue, with the operands that stand on the port (log entry 2). -/
def State.withCommand (s : State) (w : CommandWord) : State :=
  { s with inputs := .command w s.opA s.opB :: s.inputs }

end Sys2Proof.Machine
end

