-- ==== Sys2Proof/Machine/Operands.lean ====
section
/-! DEFINITION. The operand forms (30_encoding.md R83, R85): the operands A and B as natural numbers, the immediate N, and
the reads a command makes at a cursor (41_codec_contract.md R144). -/

namespace Sys2Proof.Machine

/-- Operand A as a natural number: a value, q, a position, a word index or x (30_encoding.md R85). -/
def State.a (s : State) : Nat := s.opA.toNat

/-- Operand B as a natural number: k or u (30_encoding.md R85, R86). -/
def State.b (s : State) : Nat := s.opB.toNat

/-- What a read at a cursor gives: a value and the position after it, or the fault it raises. -/
inductive Parsed where
  /-- The value read and the position of the next unread bit. -/
  | value (x pos : Nat)
  /-- The fault that ends the read. -/
  | fails (c : FaultCode)
deriving DecidableEq, Repr

/-- Read on: the first read that fails decides the fault (41_codec_contract.md R144; 60_exceptions.md R268). -/
def Parsed.andThen (r : Parsed) (k : Nat → Nat → Parsed) : Parsed :=
  match r with
  | .value x pos => k x pos
  | .fails c => .fails c

/-- How many 0 bits stand at pos, pos + 1, … before the first 1 bit, looking at `fuel` positions and no more. -/
def unaryRun (s : State) : (fuel pos : Nat) → Option Nat
  | 0, _ => none
  | fuel + 1, pos => if s.bit pos then some 0 else (unaryRun s fuel (pos + 1)).map (· + 1)

/-- `ReadUnary()` at a position (40_bitio.md R114; 41_codec_contract.md R144): the search stops at WLEN. -/
def readUnaryAt (s : State) (pos : Nat) : Parsed :=
  match unaryRun s (s.wlen - pos) pos with
  | some q => .value q (pos + q + 1)
  | none => .fails .readPastEnd

/-- `ReadBits(n)` at a position (40_bitio.md R113; 41_codec_contract.md R144): one bound check for every n. -/
def readBitsAt (s : State) (pos n : Nat) : Parsed :=
  if pos + n ≤ s.wlen then .value (s.memRead pos n) (pos + n) else .fails .readPastEnd

/-- End a reading command: on success RPOS[rid] moves past the bits consumed and R is the value; on a fault RPOS[rid]
keeps its value (41_codec_contract.md R144; 60_exceptions.md R266). -/
def finishRead (s : State) (rid : BitVec 4) (r : Parsed) : Result :=
  match r with
  | .value x pos => finish (s.setCursor rid (BitVec.ofNat 64 pos)) (BitVec.ofNat 64 x)
  | .fails c => raise s c

end Sys2Proof.Machine
end

