-- ==== Sys2Proof/Machine/BitIo.lean ====
section
/-! DEFINITION. The bit I/O commands (40_bitio.md R110 to R117). Each begins with the envelope of 60_exceptions.md R265:
the blocked check, then the legality of the word's fields, then the mode check. -/

namespace Sys2Proof.Machine

/-- WRITE_BITS n (40_bitio.md R110). -/
def execWriteBits (n : BitVec 7) (s : State) : Result :=
  if s.fault.isSome then blocked s
  else if ¬ legalCount n then illegal s
  else if s.mode ≠ .building then raise s .modeViolation
  else if s.cfg.capBits < s.wlen + n.toNat then raise s .bufferOverflow
  else finish (s.appendToken s.a n.toNat) (n.setWidth 64)

/-- WRITE_UNARY (40_bitio.md R111). The sum WLEN + A + 1 is natural, so it does not wrap. -/
def execWriteUnary (s : State) : Result :=
  if s.fault.isSome then blocked s
  else if s.mode ≠ .building then raise s .modeViolation
  else if s.cfg.capBits < s.wlen + s.a + 1 then raise s .bufferOverflow
  else finish (s.appendUnary s.a) (BitVec.ofNat 64 (s.a + 1))

/-- FLUSH (40_bitio.md R112): pad, freeze, return WLEN; in FROZEN it changes nothing and returns WLEN again. -/
def execFlush (s : State) : Result :=
  if s.fault.isSome then blocked s
  else
    match s.mode with
    | .building => finish { s.pad with mode := .frozen } (BitVec.ofNat 64 s.wlen)
    | .frozen => finish s (BitVec.ofNat 64 s.wlen)

/-- READ_BITS@rid n (40_bitio.md R113). -/
def execReadBits (rid : BitVec 4) (n : BitVec 7) (s : State) : Result :=
  if s.fault.isSome then blocked s
  else if ¬ (legalCount n ∧ legalReader s.cfg.nReaders rid) then illegal s
  else if s.mode ≠ .frozen then raise s .modeViolation
  else finishRead s rid (readBitsAt s (s.cursor rid).toNat n.toNat)

/-- READ_UNARY@rid (40_bitio.md R114). -/
def execReadUnary (rid : BitVec 4) (s : State) : Result :=
  if s.fault.isSome then blocked s
  else if ¬ legalReader s.cfg.nReaders rid then illegal s
  else if s.mode ≠ .frozen then raise s .modeViolation
  else finishRead s rid (readUnaryAt s (s.cursor rid).toNat)

/-- SET_BIT_POS@rid (40_bitio.md R115): no fault depends on A. -/
def execSetBitPos (rid : BitVec 4) (s : State) : Result :=
  if s.fault.isSome then blocked s
  else if ¬ legalReader s.cfg.nReaders rid then illegal s
  else if s.mode ≠ .frozen then raise s .modeViolation
  else finish (s.setCursor rid s.opA) 0

/-- GET_BIT_POS@rid (40_bitio.md R116). -/
def execGetBitPos (rid : BitVec 4) (s : State) : Result :=
  if s.fault.isSome then blocked s
  else if ¬ legalReader s.cfg.nReaders rid then illegal s
  else if s.mode ≠ .frozen then raise s .modeViolation
  else finish s (s.cursor rid)

/-- BUF_READ (40_bitio.md R117): the words that hold a stream bit, and no other. -/
def execBufRead (s : State) : Result :=
  if s.fault.isSome then blocked s
  else if s.mode ≠ .frozen then raise s .modeViolation
  else if wordsFor s.wlen ≤ s.a then raise s .readPastEnd
  else finish s (s.word s.a)

end Sys2Proof.Machine
end

