-- ==== Sys2Proof/Machine/Codec.lean ====
section
/-! DEFINITION. The uniform codec contract (41_codec_contract.md R140 to R148): what the 18 codec commands have in
common. The six codecs are in GammaDelta.lean, ExpGolombRice.lean and ZetaMinbin.lean. -/

namespace Sys2Proof.Machine

/-- A codec (41_codec_contract.md R140, R141, R147): its domains, its token lists, its length rule and its parse
procedure. The first argument is the parameter, ignored by a codec that has none. -/
structure Codec where
  /-- `param in ParamDomain_c` (R147). -/
  paramOk : Nat → Bool
  /-- `x in ValueDomain_c(param)` (R147). -/
  valueOk : (param x : Nat) → Bool
  /-- `code_c(x, param)` (R141). -/
  code : (param x : Nat) → List Token
  /-- `len_c(x, param)`, by the formula of the codec's own LEN rule. -/
  len : (param x : Nat) → Nat
  /-- `parse_c(param)` at a position of the stream (R144). -/
  parse : (param : Nat) → State → (pos : Nat) → Parsed

/-- ENC.c x, param (41_codec_contract.md R143), after the blocked check of 60_exceptions.md R265. Every check comes
before the first bit is written. -/
def encodeWith (c : Codec) (s : State) : Result :=
  if s.fault.isSome then blocked s
  else if s.mode ≠ .building then raise s .modeViolation
  else if c.paramOk s.b = false then raise s .invalidParameter
  else if c.valueOk s.b s.a = false then raise s .valueOutOfDomain
  else if s.cfg.capBits < s.wlen + c.len s.b s.a then raise s .bufferOverflow
  else finish (s.layTokens (c.code s.b s.a)) (BitVec.ofNat 64 (c.len s.b s.a))

/-- DEC.c param (41_codec_contract.md R144), after the blocked check and the check of RID (60_exceptions.md R265;
30_encoding.md R89 (f)). -/
def decodeWith (c : Codec) (rid : BitVec 4) (s : State) : Result :=
  if s.fault.isSome then blocked s
  else if ¬ legalReader s.cfg.nReaders rid then illegal s
  else if s.mode ≠ .frozen then raise s .modeViolation
  else if c.paramOk s.b = false then raise s .invalidParameter
  else finishRead s rid (c.parse s.b s (s.cursor rid).toNat)

/-- LEN.c x, param (41_codec_contract.md R145), after the blocked check of 60_exceptions.md R265. Legal in both modes;
no state but FAULT is written. -/
def lengthWith (c : Codec) (s : State) : Result :=
  if s.fault.isSome then blocked s
  else if c.paramOk s.b = false then raise s .invalidParameter
  else if c.valueOk s.b s.a = false then raise s .valueOutOfDomain
  else finish s (BitVec.ofNat 64 (c.len s.b s.a))

end Sys2Proof.Machine
end

