-- ==== Sys2Proof/Machine/GammaDelta.lean ====
section
/-! DEFINITION. Elias gamma and Elias delta (42_codec_gamma_delta.md R160 to R169). Both take no parameter and ignore B. -/

namespace Sys2Proof.Machine

/-- `code_GAMMA(x)` = [ U(h), B(m - 2^h, h) ] with m = x + 1 and h = flog2(m) (R160). -/
def gammaCode (x : Nat) : List Token :=
  let m := x + 1
  let h := flog2 m
  [.unary h, .binary (m - 2 ^ h) h]

/-- The gamma length 2 * flog2(x + 1) + 1 (R161, R163). -/
def gammaLength (x : Nat) : Nat := 2 * flog2 (x + 1) + 1

/-- `parse_GAMMA()` (R162). -/
def gammaParse (s : State) (pos : Nat) : Parsed :=
  (readUnaryAt s pos).andThen fun h pos =>
    if h ≤ 63 then (readBitsAt s pos h).andThen fun r pos => .value (2 ^ h + r - 1) pos
    else .fails .malformedStream

/-- The gamma codec (R160): 0 <= x <= 2^64 - 2. -/
def gamma : Codec where
  paramOk _ := true
  valueOk _ x := decide (x ≤ 2 ^ 64 - 2)
  code _ x := gammaCode x
  len _ x := gammaLength x
  parse _ s pos := gammaParse s pos

/-- `code_DELTA(x)` = code_GAMMA(h) followed by [ B(m - 2^h, h) ] with m = x + 1 and h = flog2(m) (R165). -/
def deltaCode (x : Nat) : List Token :=
  let m := x + 1
  let h := flog2 m
  gammaCode h ++ [.binary (m - 2 ^ h) h]

/-- The delta length 2 * flog2(h + 1) + 1 + h with h = flog2(x + 1) (R166, R168). -/
def deltaLength (x : Nat) : Nat :=
  let h := flog2 (x + 1)
  2 * flog2 (h + 1) + 1 + h

/-- `parse_DELTA()` (R167). -/
def deltaParse (s : State) (pos : Nat) : Parsed :=
  (gammaParse s pos).andThen fun h pos =>
    if h ≤ 63 then (readBitsAt s pos h).andThen fun r pos => .value (2 ^ h + r - 1) pos
    else .fails .malformedStream

/-- The delta codec (R165): 0 <= x <= 2^64 - 2. -/
def delta : Codec where
  paramOk _ := true
  valueOk _ x := decide (x ≤ 2 ^ 64 - 2)
  code _ x := deltaCode x
  len _ x := deltaLength x
  parse _ s pos := deltaParse s pos

/-- ENC.GAMMA (R161). -/
def execEncGamma (s : State) : Result := encodeWith gamma s

/-- DEC.GAMMA@rid (R162). -/
def execDecGamma (rid : BitVec 4) (s : State) : Result := decodeWith gamma rid s

/-- LEN.GAMMA (R163). -/
def execLenGamma (s : State) : Result := lengthWith gamma s

/-- ENC.DELTA (R166). -/
def execEncDelta (s : State) : Result := encodeWith delta s

/-- DEC.DELTA@rid (R167). -/
def execDecDelta (rid : BitVec 4) (s : State) : Result := decodeWith delta rid s

/-- LEN.DELTA (R168). -/
def execLenDelta (s : State) : Result := lengthWith delta s

end Sys2Proof.Machine
end

