-- ==== Sys2Proof/Machine/ExpGolombRice.lean ====
section
/-! DEFINITION. Exp-Golomb and Rice (43_codec_expgolomb_rice.md R180 to R189). The parameter k is operand B. -/

namespace Sys2Proof.Machine

/-- The parameter domain 0 <= k <= 64 (R180, R185; 60_exceptions.md R271). -/
def shiftParamOk (k : Nat) : Bool := decide (k ≤ 64)

/-- The value domain: every 64-bit x but x = 2^64 - 1 with k = 0 (R180, R185; 60_exceptions.md R272). -/
def shiftValueOk (k x : Nat) : Bool := decide (¬ (k = 0 ∧ x = 2 ^ 64 - 1))

/-- The end of `parse_EXPGOLOMB(k)` and `parse_RICE(k)` (R182, R187): read k bits r after the quotient d; the value is
d * 2^k + r, and the check that it fits 64 bits comes after both reads. -/
def quotientThenRemainder (k : Nat) (s : State) (d pos : Nat) : Parsed :=
  (readBitsAt s pos k).andThen fun r pos =>
    if d * 2 ^ k + r ≤ 2 ^ 64 - 1 then .value (d * 2 ^ k + r) pos else .fails .malformedStream

/-- `code_EXPGOLOMB(x, k)` = code_GAMMA(floor(x / 2^k)) followed by [ B(x mod 2^k, k) ] (R180). -/
def expGolombCode (k x : Nat) : List Token := gammaCode (x / 2 ^ k) ++ [.binary (x % 2 ^ k) k]

/-- The exp-Golomb length 2 * flog2(floor(x / 2^k) + 1) + 1 + k (R181, R183). -/
def expGolombLength (k x : Nat) : Nat := 2 * flog2 (x / 2 ^ k + 1) + 1 + k

/-- `parse_EXPGOLOMB(k)` (R182). -/
def expGolombParse (k : Nat) (s : State) (pos : Nat) : Parsed :=
  (gammaParse s pos).andThen fun d pos => quotientThenRemainder k s d pos

/-- The exp-Golomb codec (R180). -/
def expGolomb : Codec where
  paramOk := shiftParamOk
  valueOk := shiftValueOk
  code := expGolombCode
  len := expGolombLength
  parse := expGolombParse

/-- `code_RICE(x, k)` = [ U(floor(x / 2^k)), B(x mod 2^k, k) ] (R185). -/
def riceCode (k x : Nat) : List Token := [.unary (x / 2 ^ k), .binary (x % 2 ^ k) k]

/-- The Rice length floor(x / 2^k) + 1 + k (R186, R188). -/
def riceLength (k x : Nat) : Nat := x / 2 ^ k + 1 + k

/-- `parse_RICE(k)` (R187). -/
def riceParse (k : Nat) (s : State) (pos : Nat) : Parsed :=
  (readUnaryAt s pos).andThen fun d pos => quotientThenRemainder k s d pos

/-- The Rice codec (R185). -/
def rice : Codec where
  paramOk := shiftParamOk
  valueOk := shiftValueOk
  code := riceCode
  len := riceLength
  parse := riceParse

/-- ENC.EXPGOLOMB (R181). -/
def execEncExpGolomb (s : State) : Result := encodeWith expGolomb s

/-- DEC.EXPGOLOMB@rid (R182). -/
def execDecExpGolomb (rid : BitVec 4) (s : State) : Result := decodeWith expGolomb rid s

/-- LEN.EXPGOLOMB (R183). -/
def execLenExpGolomb (s : State) : Result := lengthWith expGolomb s

/-- ENC.RICE (R186). -/
def execEncRice (s : State) : Result := encodeWith rice s

/-- DEC.RICE@rid (R187). -/
def execDecRice (rid : BitVec 4) (s : State) : Result := decodeWith rice rid s

/-- LEN.RICE (R188). -/
def execLenRice (s : State) : Result := lengthWith rice s

end Sys2Proof.Machine
end

