-- ==== Sys2Proof/Machine/Flags.lean ====
section
/-! DEFINITION. MODE and FAULT, the only flag-like state (10_state.md R29), as the four read-only control and status
registers show them (10_state.md R30 to R34; 46_system.md R251). -/

namespace Sys2Proof.Machine

/-- `MODE` as a bit: BUILDING 0, FROZEN 1 (10_state.md R26). -/
def Mode.code : Mode → BitVec 1
  | .building => 0
  | .frozen => 1

/-- `FAULT` as the 4-bit register: 0 when no fault has occurred (10_state.md R27). -/
def faultField : Option FaultCode → BitVec 4
  | none => 0
  | some c => c.code

/-- CSR 0 STATUS: bit 0 MODE, bits 7:4 FAULT, the rest zero (10_state.md R31). -/
def State.statusRegister (s : State) : Word := (faultField s.fault ++ 0#3 ++ s.mode.code).setWidth 64

/-- CSR 1 WLEN (10_state.md R32). -/
def State.lengthRegister (s : State) : Word := BitVec.ofNat 64 s.wlen

/-- CSR 2 CAPW, the constant BUF_WORDS (10_state.md R33). -/
def State.capacityRegister (s : State) : Word := BitVec.ofNat 64 s.cfg.bufWords

/-- `E` as a bit: BE 0, LE 1 (10_state.md R34). -/
def endianCode : Endian → BitVec 1
  | .be => 0
  | .le => 1

/-- CSR 3 CONFIG: bit 0 ENDIAN, bits 12:8 NREADERS, bits 31:16 VERSION = 1, the rest zero (10_state.md R34). -/
def State.configRegister (s : State) : Word :=
  (1#16 ++ 0#3 ++ BitVec.ofNat 5 s.cfg.nReaders ++ 0#7 ++ endianCode s.cfg.endian).setWidth 64

/-- The register a CSR number names, none when it is reserved (10_state.md R30). -/
def State.controlRegister (s : State) (csr : BitVec 7) : Option Word :=
  match csr.toNat with
  | 0 => some s.statusRegister
  | 1 => some s.lengthRegister
  | 2 => some s.capacityRegister
  | 3 => some s.configRegister
  | _ => none

end Sys2Proof.Machine
end

