-- ==== Sys2Proof/Machine/System.lean ====
section
/-! DEFINITION. The system commands RESET and CSRR (46_system.md R250, R251), the only two that a recorded fault does
not block (60_exceptions.md R265, R267). -/

namespace Sys2Proof.Machine

/-- RESET (46_system.md R250). -/
def execReset (s : State) : Result := finish s.resetUnit 0

/-- CSRR csr (46_system.md R251). A reserved number is an illegal word: BLOCKED when a fault is recorded, else
IllegalCommand. -/
def execCsrr (csr : BitVec 7) (s : State) : Result :=
  match s.controlRegister csr with
  | some v => finish s v
  | none => illegal s

end Sys2Proof.Machine
end

