-- ==== Sys2Proof/Machine/ZetaMinbin.lean ====
section
/-! DEFINITION. Zeta and minimal binary (44_codec_zeta_minbin.md R200 to R209). The two definitions are the spec's, which
it supplies from general knowledge and marks so (93_implementation_defined.md G1, G2; log entry 12). -/

namespace Sys2Proof.Machine

/-- `limit` = 2^(l + 1) - u with l = flog2(u): how many values get the short codeword (R205). -/
def minbinLimit (u : Nat) : Nat := 2 ^ (flog2 u + 1) - u

/-- `mb(x, u)` (R205): l bits when x < limit; otherwise, with t = x + limit, the l high bits of t and then its lowest
bit, as two tokens for both values of E. -/
def minbinCode (u x : Nat) : List Token :=
  let l := flog2 u
  if x < minbinLimit u then [.binary x l]
  else
    let t := x + minbinLimit u
    [.binary (t / 2) l, .binary (t % 2) 1]

/-- `len_MINBIN(x, u)` (R205, R208). -/
def minbinLength (u x : Nat) : Nat := if x < minbinLimit u then flog2 u else flog2 u + 1

/-- `parse_MINBIN(u)` (R207). -/
def minbinParse (u : Nat) (s : State) (pos : Nat) : Parsed :=
  (readBitsAt s pos (flog2 u)).andThen fun p pos =>
    if p < minbinLimit u then .value p pos
    else (readBitsAt s pos 1).andThen fun b pos => .value (2 * p + b - minbinLimit u) pos

/-- The minimal binary codec: 1 <= u <= 2^64 - 1, 0 <= x < u (R205). -/
def minbin : Codec where
  paramOk u := decide (1 ≤ u)
  valueOk u x := decide (x < u)
  code := minbinCode
  len := minbinLength
  parse := minbinParse

/-- `h` = floor(flog2(x + 1) / k) (R200). -/
def zetaLevel (k x : Nat) : Nat := flog2 (x + 1) / k

/-- `lo` = 2^(h * k) (R200). -/
def zetaLow (k h : Nat) : Nat := 2 ^ (h * k)

/-- `w` = 2^((h + 1) * k) - 2^(h * k), the size of the interval (R200). -/
def zetaWidth (k h : Nat) : Nat := 2 ^ ((h + 1) * k) - zetaLow k h

/-- `code_ZETA(x, k)` = [ U(h) ] followed by mb(m - lo, w), m = x + 1 (R200). -/
def zetaCode (k x : Nat) : List Token :=
  let h := zetaLevel k x
  .unary h :: minbinCode (zetaWidth k h) (x + 1 - zetaLow k h)

/-- The zeta length, by the three cases of LEN.ZETA (R204). -/
def zetaLength (k x : Nat) : Nat :=
  let h := zetaLevel k x
  if k = 1 then 2 * h + 1
  else if x + 1 < 2 * 2 ^ (h * k) then h + 1 + h * k + k - 1
  else h + 1 + h * k + k

/-- `parse_ZETA(k)` (R203). The check on h comes before the minimal-binary read. -/
def zetaParse (k : Nat) (s : State) (pos : Nat) : Parsed :=
  (readUnaryAt s pos).andThen fun h pos =>
    if (h + 1) * k ≤ 64 then
      (minbinParse (zetaWidth k h) s pos).andThen fun v pos => .value (zetaLow k h + v - 1) pos
    else .fails .malformedStream

/-- The zeta codec (R200): 1 <= k <= 64, x <= 2^64 - 2 and (h + 1) * k <= 64. -/
def zeta : Codec where
  paramOk k := decide (1 ≤ k ∧ k ≤ 64)
  valueOk k x := decide (x ≤ 2 ^ 64 - 2 ∧ (zetaLevel k x + 1) * k ≤ 64)
  code := zetaCode
  len := zetaLength
  parse := zetaParse

/-- ENC.ZETA (R202). -/
def execEncZeta (s : State) : Result := encodeWith zeta s

/-- DEC.ZETA@rid (R203). -/
def execDecZeta (rid : BitVec 4) (s : State) : Result := decodeWith zeta rid s

/-- LEN.ZETA (R204). -/
def execLenZeta (s : State) : Result := lengthWith zeta s

/-- ENC.MINBIN (R206). -/
def execEncMinbin (s : State) : Result := encodeWith minbin s

/-- DEC.MINBIN@rid (R207). -/
def execDecMinbin (rid : BitVec 4) (s : State) : Result := decodeWith minbin rid s

/-- LEN.MINBIN (R208). -/
def execLenMinbin (s : State) : Result := lengthWith minbin s

end Sys2Proof.Machine
end

