-- ==== Sys2Proof/Machine/Dispatch.lean ====
section
/-! DEFINITION. The meaning of each command, one arm a constructor of Instr. -/

namespace Sys2Proof.Machine

/-- One command, with its operands on the ports `opA` and `opB` (60_exceptions.md R265). -/
def exec (i : Instr) (s : State) : Host.Outcome State Fault Refusal :=
  match i with
  | .reset => Sys2Proof.Machine.execReset s
  | .csrr csr => Sys2Proof.Machine.execCsrr csr s
  | .bufRead => Sys2Proof.Machine.execBufRead s
  | .writeBits n => Sys2Proof.Machine.execWriteBits n s
  | .writeUnary => Sys2Proof.Machine.execWriteUnary s
  | .flush => Sys2Proof.Machine.execFlush s
  | .readBits rid n => Sys2Proof.Machine.execReadBits rid n s
  | .readUnary rid => Sys2Proof.Machine.execReadUnary rid s
  | .setBitPos rid => Sys2Proof.Machine.execSetBitPos rid s
  | .getBitPos rid => Sys2Proof.Machine.execGetBitPos rid s
  | .encGamma => Sys2Proof.Machine.execEncGamma s
  | .encDelta => Sys2Proof.Machine.execEncDelta s
  | .encExpGolomb => Sys2Proof.Machine.execEncExpGolomb s
  | .encZeta => Sys2Proof.Machine.execEncZeta s
  | .encRice => Sys2Proof.Machine.execEncRice s
  | .encMinbin => Sys2Proof.Machine.execEncMinbin s
  | .decGamma rid => Sys2Proof.Machine.execDecGamma rid s
  | .decDelta rid => Sys2Proof.Machine.execDecDelta rid s
  | .decExpGolomb rid => Sys2Proof.Machine.execDecExpGolomb rid s
  | .decZeta rid => Sys2Proof.Machine.execDecZeta rid s
  | .decRice rid => Sys2Proof.Machine.execDecRice rid s
  | .decMinbin rid => Sys2Proof.Machine.execDecMinbin rid s
  | .lenGamma => Sys2Proof.Machine.execLenGamma s
  | .lenDelta => Sys2Proof.Machine.execLenDelta s
  | .lenExpGolomb => Sys2Proof.Machine.execLenExpGolomb s
  | .lenZeta => Sys2Proof.Machine.execLenZeta s
  | .lenRice => Sys2Proof.Machine.execLenRice s
  | .lenMinbin => Sys2Proof.Machine.execLenMinbin s

end Sys2Proof.Machine
end

