-- ==== Sys2Proof/Machine/Step.lean ====
section
/-! DEFINITION. One step of the unit (00_scope.md R19; 60_exceptions.md R265): take the host's next event from the port
and act on it. With no event pending the unit is idle (60_exceptions.md R262, R286). -/

namespace Sys2Proof.Machine

/-- Execute a command word whose operands are on the ports: the command it decodes to, or an illegal word
(60_exceptions.md R265). -/
def runWord (w : CommandWord) (s : State) : Result :=
  match decode s.cfg.nReaders w with
  | .ok i => exec i s
  | .error _ => illegal s

/-- One step: one whole transaction, one hardware reset, or nothing when the host has put nothing on the port. -/
def step (s : State) : Host.Outcome State Fault Refusal :=
  match s.inputs with
  | [] => .next s
  | .hardwareReset :: rest => .next (s.hardwareReset rest)
  | .command w a b :: rest => runWord w (s.accept a b rest)

/-- The state with the command word of an opcode-table row next on the port, with the operands that stand there
(log entry 2). -/
def State.withFetchWord (s : State) (nbits w : Nat) : State := s.withCommand (tableWord nbits w)

end Sys2Proof.Machine
end

