-- ==== Sys2Proof/Machine/Sequences.lean ====
section
/-! DEFINITION. The host sequences of the compressed vector (45_vector_sequences.md R220 to R231): pseudo-instructions
with no encoding (30_encoding.md R92), each a sequence of transactions of the unit and data the host keeps. Nothing here
is state of the unit (00_scope.md R6). Log entry 15. -/

namespace Sys2Proof.Machine

/-- Issue one command as one transaction (20_memory.md R65): put its word and operands on an empty port, take one step,
and collect the answer. -/
def issue (i : Instr) (a b : Word) (s : State) : State × Option Reply :=
  match step { s with inputs := [.command (encode i) a b] } with
  | .next t => (t, t.reply)
  | .fault f => nomatch f
  | .refused _ => (s, none)

/-- The result of an answer with S = 0 (30_encoding.md R80). -/
def okResult : Option Reply → Option Word
  | some r => if r.status = 0 then r.result else none
  | none => none

/-- The codecs a descriptor can name (45_vector_sequences.md R220). -/
inductive CodecName where
  /-- Elias gamma. -/
  | gamma
  /-- Elias delta. -/
  | delta
  /-- Exp-Golomb. -/
  | expGolomb
  /-- Zeta. -/
  | zeta
  /-- Rice. -/
  | rice
  /-- Minimal binary. -/
  | minbin
deriving DecidableEq, Repr

/-- The codec a name stands for. -/
def CodecName.codec : CodecName → Codec
  | .gamma => Machine.gamma
  | .delta => Machine.delta
  | .expGolomb => Machine.expGolomb
  | .zeta => Machine.zeta
  | .rice => Machine.rice
  | .minbin => Machine.minbin

/-- ENC.c. -/
def CodecName.enc : CodecName → Instr
  | .gamma => .encGamma
  | .delta => .encDelta
  | .expGolomb => .encExpGolomb
  | .zeta => .encZeta
  | .rice => .encRice
  | .minbin => .encMinbin

/-- DEC.c@rid. -/
def CodecName.dec (c : CodecName) (rid : BitVec 4) : Instr :=
  match c with
  | .gamma => .decGamma rid
  | .delta => .decDelta rid
  | .expGolomb => .decExpGolomb rid
  | .zeta => .decZeta rid
  | .rice => .decRice rid
  | .minbin => .decMinbin rid

/-- LEN.c. -/
def CodecName.len : CodecName → Instr
  | .gamma => .lenGamma
  | .delta => .lenDelta
  | .expGolomb => .lenExpGolomb
  | .zeta => .lenZeta
  | .rice => .lenRice
  | .minbin => .lenMinbin

/-- The host record `VEC` (45_vector_sequences.md R220, R221). -/
structure VectorRecord where
  /-- `len_V`, the element count. -/
  count : Nat
  /-- `P`, the sampling period. -/
  period : Nat
  /-- `c`. -/
  codec : CodecName
  /-- `param`, sent as operand B. -/
  param : Word
  /-- The sample table. -/
  samples : List Nat
  /-- `LEN`, the logical bit length that FLUSH returned. -/
  bits : Nat
deriving DecidableEq, Repr

/-- Why BUILD fails (45_vector_sequences.md R223). -/
inductive BuildFailure where
  /-- P = 0, or status 3 of the probe or of an ENC. -/
  | invalidParameter
  /-- Status 4 of an ENC. -/
  | valueOutOfDomain
  /-- Status 5 of an ENC. -/
  | bufferOverflow
  /-- Any other answer; the rules leave none for a build (log entry 15). -/
  | unexpected
deriving DecidableEq, Repr

/-- The failure a status stands for (45_vector_sequences.md R223). -/
def buildFailure : Option Reply → BuildFailure
  | some r =>
    if r.status = FaultCode.invalidParameter.code then .invalidParameter
    else if r.status = FaultCode.valueOutOfDomain.code then .valueOutOfDomain
    else if r.status = FaultCode.bufferOverflow.code then .bufferOverflow
    else .unexpected
  | none => .unexpected

/-- The loop of BUILD from element i at position pos (45_vector_sequences.md R222): the sample table and the length. -/
def buildLoop (c : CodecName) (param : Word) (period : Nat) :
    (i pos : Nat) → List Nat → List Word → State → State × Except BuildFailure (List Nat × Nat)
  | _, pos, samples, [], s => (s, .ok (samples, pos))
  | i, pos, samples, v :: rest, s =>
    let (t, r) := issue c.enc v param s
    match okResult r with
    | some l =>
      buildLoop c param period (i + 1) (pos + l.toNat) (if i % period = 0 then samples ++ [pos] else samples) rest t
    | none => (t, .error (buildFailure r))

/-- On any failure the host issues RESET and returns no vector (45_vector_sequences.md R223). -/
def abandon (e : BuildFailure) (s : State) : State × Except BuildFailure VectorRecord :=
  ((issue .reset 0 0 s).1, .error e)

/-- BUILD V, P, c, param (45_vector_sequences.md R222, R223). P = 0 is the host's own check: no command is issued. -/
def build (values : List Word) (period : Nat) (c : CodecName) (param : Word) (s : State) :
    State × Except BuildFailure VectorRecord :=
  if period = 0 then (s, .error .invalidParameter)
  else
    let (s, _) := issue .reset 0 0 s
    let (s, probe) := issue c.len 0 param s
    match okResult probe with
    | none => abandon (buildFailure probe) s
    | some _ =>
      match buildLoop c param period 0 0 [] values s with
      | (s, .error e) => abandon e s
      | (s, .ok (samples, _)) =>
        let (s, r) := issue .flush 0 0 s
        match okResult r with
        | none => abandon (buildFailure r) s
        | some l => (s, .ok { count := values.length, period, codec := c, param, samples, bits := l.toNat })

/-- VLEN (45_vector_sequences.md R224): no command is issued. -/
def vlen (v : VectorRecord) : Nat := v.count

/-- IS_EMPTY (45_vector_sequences.md R225): no command is issued. -/
def isEmpty (v : VectorRecord) : Bool := v.count == 0

/-- Issue DEC.c@rid param n times, collecting the values; none at the first answer that is not OK. -/
def decodeMany (c : CodecName) (rid : BitVec 4) (param : Word) : Nat → State → State × Option (List Word)
  | 0, s => (s, some [])
  | n + 1, s =>
    let (t, r) := issue (c.dec rid) 0 param s
    match okResult r with
    | none => (t, none)
    | some x =>
      let (u, rest) := decodeMany c rid param n t
      (u, rest.map (x :: ·))

/-- GET@rid i (45_vector_sequences.md R226): no command is issued and none is answered when i is out of range. -/
def get (rid : BitVec 4) (v : VectorRecord) (i : Nat) (s : State) : State × Option Word :=
  if v.count ≤ i then (s, none)
  else
    let (s, _) := issue (.setBitPos rid) (BitVec.ofNat 64 ((v.samples[i / v.period]?).getD 0)) 0 s
    let (s, xs) := decodeMany v.codec rid v.param (i % v.period + 1) s
    (s, xs.bind List.getLast?)

/-- The state of an iterator: its reader context and the count of values left (45_vector_sequences.md R227). -/
structure Iterator where
  /-- The context the iterator owns. -/
  rid : BitVec 4
  /-- The codec of the vector. -/
  codec : CodecName
  /-- The parameter of the vector. -/
  param : Word
  /-- How many values are still to come. -/
  left : Nat
deriving DecidableEq, Repr

/-- ITER@rid (45_vector_sequences.md R227): seek to position 0. -/
def iterStart (rid : BitVec 4) (v : VectorRecord) (s : State) : State × Iterator :=
  ((issue (.setBitPos rid) 0 0 s).1, { rid, codec := v.codec, param := v.param, left := v.count })

/-- The next value of an iterator: one DEC while values are left, none after (45_vector_sequences.md R227). -/
def iterNext (it : Iterator) (s : State) : State × Iterator × Option Word :=
  match it.left with
  | 0 => (s, it, none)
  | n + 1 =>
    let (t, r) := issue (it.codec.dec it.rid) 0 it.param s
    (t, { it with left := n }, okResult r)

/-- The next value when the context is shared: set the kept position, decode, keep the new position
(45_vector_sequences.md R227). -/
def iterNextShared (it : Iterator) (pos : Word) (s : State) : State × Iterator × Word × Option Word :=
  match it.left with
  | 0 => (s, it, pos, none)
  | n + 1 =>
    let (s, _) := issue (.setBitPos it.rid) pos 0 s
    let (s, r) := issue (it.codec.dec it.rid) 0 it.param s
    let (s, p) := issue (.getBitPos it.rid) 0 0 s
    (s, { it with left := n }, (okResult p).getD pos, okResult r)

/-- Run an iterator for n values, collecting what it yields; none where a DEC does not answer OK. -/
def iterCollect : Nat → Iterator → State → State × Option (List Word)
  | 0, _, s => (s, some [])
  | n + 1, it, s =>
    let (t, it', x) := iterNext it s
    match x with
    | none => (t, none)
    | some x =>
      let (u, rest) := iterCollect n it' t
      (u, rest.map (x :: ·))

/-- INTO_VEC@rid (45_vector_sequences.md R228): ITER run to its end, the values collected in order. -/
def intoVec (rid : BitVec 4) (v : VectorRecord) (s : State) : State × Option (List Word) :=
  let (s, it) := iterStart rid v s
  iterCollect v.count it s

/-- What the host keeps of a frozen stream copied out of the unit (45_vector_sequences.md R229): the words, with E and the
host record, whose `bits` is `LEN` (R220). -/
structure SavedStream where
  /-- The endianness of the instance it came from. -/
  endian : Endian
  /-- The host record `VEC`, `LEN` among it. -/
  record : VectorRecord
  /-- The words `w_0` to `w_(ceil(LEN / 64) - 1)`. -/
  words : List Word
deriving DecidableEq, Repr

/-- Issue BUF_READ for `n` words from index i; none at the first answer that is not OK. -/
def readWords : (n i : Nat) → State → State × Option (List Word)
  | 0, _, s => (s, some [])
  | n + 1, i, s =>
    let (t, r) := issue .bufRead (BitVec.ofNat 64 i) 0 s
    match okResult r with
    | none => (t, none)
    | some w =>
      let (u, rest) := readWords n (i + 1) t
      (u, rest.map (w :: ·))

/-- SAVE (45_vector_sequences.md R229): BUF_READ of every word that holds stream bits, kept with E and the host record. -/
def save (v : VectorRecord) (s : State) : State × Option SavedStream :=
  let (t, ws) := readWords (wordsFor v.bits) 0 s
  (t, ws.map fun words => { endian := s.cfg.endian, record := v, words })

/-- The operand of the last WRITE_BITS of RESTORE: w >> (64 - t) when E = BE, w when E = LE (45_vector_sequences.md R229). -/
def tailOperand (e : Endian) (w : Word) (t : Nat) : Word :=
  match e with
  | .be => w >>> (64 - t)
  | .le => w

/-- Issue the WRITE_BITS commands of RESTORE (45_vector_sequences.md R229): 64 bits for each full word, the rest of the
last one. -/
def writeWords (e : Endian) : (bits : Nat) → List Word → State → State
  | _, [], s => s
  | bits, w :: rest, s =>
    if 64 ≤ bits then writeWords e (bits - 64) rest (issue (.writeBits 64) w 0 s).1
    else if bits = 0 then s
    else (issue (.writeBits (BitVec.ofNat 7 bits)) (tailOperand e w bits) 0 s).1

/-- RESTORE (45_vector_sequences.md R229): RESET, write the words back, FLUSH; where FLUSH answers LEN the host has its
record again, with which GET and ITER go on. The tail rule is that of the instance's E, as program P5 of
95_test_vectors.md works it (DEDUCED); that the instance has the saved E and room for the words is the host's duty and is
not checked here (DESIGN CHOICE). Log entry 17. -/
def restore (saved : SavedStream) (s : State) : State × Option VectorRecord :=
  let e := s.cfg.endian
  let (s, _) := issue .reset 0 0 s
  let s := writeWords e saved.record.bits saved.words s
  let (s, r) := issue .flush 0 0 s
  (s, if okResult r = some (BitVec.ofNat 64 saved.record.bits) then some saved.record else none)

/-- The bit-buffer size a host reports, 8 * ceil(LEN / 64) bytes (45_vector_sequences.md R231). -/
def bitBufferBytes (bits : Nat) : Nat := 8 * wordsFor bits

end Sys2Proof.Machine
end

