-- ==== Sys2Proof/Safety.lean ====
section
/-! DEFINITION. What counts as a good state, and the vocabulary of the statements: the invariants of 10_state.md R38, when
a command is accepted (60_exceptions.md R265), what a command leaves unchanged, and where a bit string stands. -/

namespace Sys2Proof.Machine

/-- The invariants of 10_state.md R38 for a legal configuration (00_scope.md R9), with the canonical form of the buffer
and the unused cursor places of the model (log entries 6 and 8). R38 (b) and (e) hold by the types: every bit the model
holds is 0 or 1, and `FaultCode` has the codes 1 to 7 only. -/
structure State.Inv (s : State) : Prop where
  /-- The parameters are in their ranges (00_scope.md R9). -/
  config : s.cfg.legal
  /-- The buffer is in canonical form. -/
  canonical : s.buf.wf
  /-- Nothing is stored outside the stream address space (20_memory.md R50). -/
  inCapacity : ∀ c ∈ s.buf, c.1 < 8 * s.cfg.bufWords
  /-- R38 (a). -/
  length : s.wlen ≤ s.cfg.capBits
  /-- R38 (c). -/
  padding : s.mode = .frozen → ∀ p, s.wlen ≤ p → p < 64 * wordsFor s.wlen → s.bit p = false
  /-- R38 (d). -/
  cursors : s.mode = .building → ∀ r, s.cursor r = 0
  /-- The cursor places that are no context of this instance stay 0 (10_state.md R28). -/
  absent : ∀ r : BitVec 4, s.cfg.nReaders ≤ r.toNat → s.cursor r = 0

/-- The two states agree on everything a command of the unit never writes: the configuration and the ports other than
the answer. -/
def State.samePort (s t : State) : Prop :=
  t.cfg = s.cfg ∧ t.inputs = s.inputs ∧ t.opA = s.opA ∧ t.opB = s.opB

/-- The two states agree on the five items of 10_state.md R21. -/
def State.sameUnit (s t : State) : Prop :=
  t.buf = s.buf ∧ t.wlen = s.wlen ∧ t.mode = s.mode ∧ t.fault = s.fault ∧ t.rpos = s.rpos

/-- The answer with S = 0 and the given R (30_encoding.md R80). -/
def okReply (r : Nat) : Option Reply := some { status := 0, result := some (BitVec.ofNat 64 r) }

/-- The answer of a command that raised a fault (60_exceptions.md R266). -/
def faultReply (c : FaultCode) : Option Reply := some { status := c.code, result := none }

/-- s after a command that completed with result r and wrote no state (30_encoding.md R80). -/
def State.completed (s : State) (r : Nat) : State := { s with reply := okReply r }

/-- s after a command that raised fault c: FAULT and the answer written, nothing else (60_exceptions.md R266). -/
def State.faulted (s : State) (c : FaultCode) : State := { s with fault := some c, reply := faultReply c }

/-- s after a command that was BLOCKED: the answer written, no state changed (60_exceptions.md R267). -/
def State.turnedAway (s : State) : State := { s with reply := some { status := 15, result := none } }

/-- The stream holds the given bit string from position p on. -/
def State.holds (s : State) (p : Nat) (bits : List Bool) : Prop :=
  ∀ j (h : j < bits.length), s.bit (p + j) = bits[j]

/-- t is s with the bit string appended at the write cursor and nothing else of the unit changed: the bits stand at WLEN,
every other position of the buffer reads as before, WLEN has grown by their number. -/
structure State.Appended (s t : State) (bits : List Bool) : Prop where
  /-- The bits stand where the write cursor was. -/
  written : t.holds s.wlen bits
  /-- Every position outside them reads as before. -/
  outside : ∀ p, p < s.wlen ∨ s.wlen + bits.length ≤ p → t.bit p = s.bit p
  /-- WLEN moved past them. -/
  cursor : t.wlen = s.wlen + bits.length
  /-- MODE, FAULT and RPOS are unchanged. -/
  rest : t.mode = s.mode ∧ t.fault = s.fault ∧ t.rpos = s.rpos
  /-- The configuration and the operand ports are unchanged. -/
  port : s.samePort t

/-- t is s after a successful read of context rid that moved its cursor to pos: nothing else of the unit changed. -/
structure State.ReadTo (s t : State) (rid : BitVec 4) (pos : Nat) : Prop where
  /-- RPOS[rid] moved. -/
  cursor : t.cursor rid = BitVec.ofNat 64 pos
  /-- Every other RPOS is unchanged. -/
  others : ∀ r, r ≠ rid → t.cursor r = s.cursor r
  /-- BUF, WLEN, MODE and FAULT are unchanged. -/
  rest : t.buf = s.buf ∧ t.wlen = s.wlen ∧ t.mode = s.mode ∧ t.fault = s.fault
  /-- The configuration and the operand ports are unchanged. -/
  port : s.samePort t

/-- A writer command is let through to its own checks: no fault recorded, mode BUILDING (60_exceptions.md R265, R270). -/
abbrev State.canWrite (s : State) : Prop := s.fault = none ∧ s.mode = .building

/-- A command of reader rid is let through to its own checks: no fault recorded, the context exists, mode FROZEN
(60_exceptions.md R265, R270; 30_encoding.md R89 (f)). -/
abbrev State.canRead (s : State) (rid : BitVec 4) : Prop :=
  s.fault = none ∧ legalReader s.cfg.nReaders rid ∧ s.mode = .frozen

/-- A unary run of value h stands at position p, its 1 bit below WLEN (40_bitio.md R114). -/
def State.RunAt (s : State) (p h : Nat) : Prop :=
  p + h < s.wlen ∧ (∀ j, j < h → s.bit (p + j) = false) ∧ s.bit (p + h) = true

/-- No 1 bit lies at or after position p and below WLEN: what ends READ_UNARY with ReadPastEnd (60_exceptions.md R274). -/
def State.NoOneFrom (s : State) (p : Nat) : Prop := ∀ q, p ≤ q → q < s.wlen → s.bit q = false

/-- One of the reads of `parse_GAMMA` (42_codec_gamma_delta.md R162) at position p meets WLEN: no run ends below it, or
fewer than h bits follow a run of h <= 63. -/
def State.GammaRunsOut (s : State) (p : Nat) : Prop :=
  s.NoOneFrom p ∨ ∃ h, s.RunAt p h ∧ h ≤ 63 ∧ s.wlen < p + h + 1 + h

/-- One of the reads of `parse_MINBIN(u)` (44_codec_zeta_minbin.md R207) at position p meets WLEN: fewer than l = flog2(u)
bits are left, or exactly l, with a value that asks for one more. -/
def State.MinbinRunsOut (s : State) (u p : Nat) : Prop :=
  s.wlen < p + flog2 u ∨ (s.wlen = p + flog2 u ∧ 2 ^ (flog2 u + 1) - u ≤ s.memRead p (flog2 u))

/-- The command is one of the writer commands of 60_exceptions.md R270. -/
def isWriter : Instr → Bool
  | .writeBits _ | .writeUnary | .encGamma | .encDelta | .encExpGolomb | .encZeta | .encRice | .encMinbin => true
  | .reset | .csrr _ | .bufRead | .flush | .readBits _ _ | .readUnary _ | .setBitPos _ | .getBitPos _ => false
  | .decGamma _ | .decDelta _ | .decExpGolomb _ | .decZeta _ | .decRice _ | .decMinbin _ => false
  | .lenGamma | .lenDelta | .lenExpGolomb | .lenZeta | .lenRice | .lenMinbin => false

/-- The reader context of a command that has one (30_encoding.md R85). -/
def readerOf : Instr → Option (BitVec 4)
  | .readBits rid _ | .readUnary rid | .setBitPos rid | .getBitPos rid => some rid
  | .decGamma rid | .decDelta rid | .decExpGolomb rid | .decZeta rid | .decRice rid | .decMinbin rid => some rid
  | .reset | .csrr _ | .bufRead | .flush | .writeBits _ | .writeUnary => none
  | .encGamma | .encDelta | .encExpGolomb | .encZeta | .encRice | .encMinbin => none
  | .lenGamma | .lenDelta | .lenExpGolomb | .lenZeta | .lenRice | .lenMinbin => none

/-- The command is one of the reader commands of 60_exceptions.md R270. -/
def isReader (i : Instr) : Bool := (readerOf i).isSome || i == .bufRead

/-- `ParamDomain_c`, as the table of 41_codec_contract.md R147 gives it. -/
abbrev paramDomain (c : CodecName) (param : Nat) : Prop :=
  match c with
  | .gamma | .delta => True
  | .expGolomb | .rice => param ≤ 64
  | .zeta => 1 ≤ param ∧ param ≤ 64
  | .minbin => 1 ≤ param

/-- `ValueDomain_c(param)`, as the table of 41_codec_contract.md R147 gives it. -/
abbrev valueDomain (c : CodecName) (param x : Nat) : Prop :=
  match c with
  | .gamma | .delta => x ≤ 2 ^ 64 - 2
  | .expGolomb | .rice => x ≤ 2 ^ 64 - 1 ∧ ¬ (x = 2 ^ 64 - 1 ∧ param = 0)
  | .zeta => x ≤ 2 ^ 64 - 2 ∧ (flog2 (x + 1) / param + 1) * param ≤ 64
  | .minbin => x < param

/-- The faults a command can raise, row by row as the table of 60_exceptions.md R276 gives them. -/
def mayRaise : Instr → List FaultCode
  | .reset | .csrr _ | .flush => [.illegalCommand]
  | .bufRead | .readBits _ _ | .readUnary _ => [.illegalCommand, .modeViolation, .readPastEnd]
  | .writeBits _ | .writeUnary => [.illegalCommand, .modeViolation, .bufferOverflow]
  | .setBitPos _ | .getBitPos _ => [.illegalCommand, .modeViolation]
  | .encGamma | .encDelta => [.illegalCommand, .modeViolation, .valueOutOfDomain, .bufferOverflow]
  | .encExpGolomb | .encZeta | .encRice | .encMinbin =>
    [.illegalCommand, .modeViolation, .invalidParameter, .valueOutOfDomain, .bufferOverflow]
  | .decGamma _ | .decDelta _ => [.illegalCommand, .modeViolation, .readPastEnd, .malformedStream]
  | .decExpGolomb _ | .decZeta _ | .decRice _ =>
    [.illegalCommand, .modeViolation, .invalidParameter, .readPastEnd, .malformedStream]
  | .decMinbin _ => [.illegalCommand, .modeViolation, .invalidParameter, .readPastEnd]
  | .lenGamma | .lenDelta => [.illegalCommand, .valueOutOfDomain]
  | .lenExpGolomb | .lenZeta | .lenRice | .lenMinbin => [.illegalCommand, .invalidParameter, .valueOutOfDomain]

/-- A word is illegal on an instance with the given number of reader contexts: the seven cases of 30_encoding.md R89, over
the fields of R82 and the uses of R85. -/
def illegalByRule (nReaders : Nat) (w : CommandWord) : Prop :=
  let op := (w.extractLsb' 0 8).toNat
  let codec := (w.extractLsb' 8 4).toNat
  let n := (w.extractLsb' 12 7).toNat
  let rid := (w.extractLsb' 20 4).toNat
  -- (a) reserved opcode
  op ∉ [0x01, 0x02, 0x03, 0x10, 0x11, 0x12, 0x18, 0x19, 0x1A, 0x1B, 0x20, 0x21, 0x22] ∨
  -- (b) reserved bits
  w.extractLsb' 19 1 ≠ 0 ∨ w.extractLsb' 24 8 ≠ 0 ∨
  -- (c) a field the command does not use
  (op ∉ [0x20, 0x21, 0x22] ∧ codec ≠ 0) ∨ (op ∉ [0x02, 0x10, 0x18] ∧ n ≠ 0) ∨
  (op ∉ [0x18, 0x19, 0x1A, 0x1B, 0x21] ∧ rid ≠ 0) ∨
  -- (d) bit count
  (op ∈ [0x10, 0x18] ∧ 64 < n) ∨
  -- (e) CSR number
  (op = 0x02 ∧ 3 < n) ∨
  -- (f) reader context
  (op ∈ [0x18, 0x19, 0x1A, 0x1B, 0x21] ∧ nReaders ≤ rid) ∨
  -- (g) codec selector
  (op ∈ [0x20, 0x21, 0x22] ∧ 5 < codec)

/-- The total length in bits of the codewords of a sequence (45_vector_sequences.md R221 (f)). -/
def totalLength (c : CodecName) (param : Word) (values : List Word) : Nat :=
  (values.map fun v => c.codec.len param.toNat v.toNat).sum

end Sys2Proof.Machine
end

