-- ==== Sys2Proof/Certificates/Slice0/Obligations.lean ====
section
/-! DEFINITION. The statements for the provers. Each docstring names the passage of spec/ it formalises. The
configuration stands in the state, so a statement about every state is about every instance (00_scope.md R9). -/

open Sys2Proof Sys2Proof.Machine

/-! ## The command word -/

/-- 30_encoding.md sections 2 and 3: every legal command is read back from its own word, with every field. -/
def Obligations.DecodeInvertsEncode : Prop :=
  ∀ (nReaders : Nat) (i : Instr), i.wellFormed nReaders = true → decode nReaders (encode i) = .ok i

/-- 30_encoding.md section 3: a legal word decodes to exactly one command with its field values, so it is that
command's word. -/
def Obligations.DecodedCommandIsItsWord : Prop :=
  ∀ (nReaders : Nat) (w : CommandWord) (i : Instr),
    decode nReaders w = .ok i → i.wellFormed nReaders = true ∧ encode i = w

/-- R89, R269: a word is illegal in exactly the seven cases, and then raises IllegalCommand, whatever A and B are. -/
def Obligations.IllegalWordsAreTheSevenCases : Prop :=
  (∀ (nReaders : Nat) (w : CommandWord), (∃ e, decode nReaders w = .error e) ↔ illegalByRule nReaders w) ∧
  (∀ (s : State) (w : CommandWord) (a b : Word) (rest : List HostEvent),
    s.inputs = .command w a b :: rest → s.fault = none → illegalByRule s.cfg.nReaders w →
    step s = .next ((s.accept a b rest).faulted .illegalCommand))

/-- 30_encoding.md section 5 (worked encodings): words written out from the fields decode to their commands, and the
illegal ones are refused. A sanity statement. -/
def Obligations.WorkedEncodingsDecode : Prop :=
  decode 16 0x00008010 = .ok (.writeBits 8) ∧ decode 16 0x00040010 = .ok (.writeBits 64) ∧
  decode 16 0x0003C018 = .ok (.readBits 0 60) ∧ decode 16 0x00001002 = .ok (.csrr 1) ∧
  decode 16 0x0010001A = .ok (.setBitPos 1) ∧ decode 16 0x00000020 = .ok .encGamma ∧
  decode 16 0x00100421 = .ok (.decRice 1) ∧ decode 16 0x00000522 = .ok .lenMinbin ∧
  decode 16 0x00000000 = .error .reservedOp ∧ decode 16 0x00041010 = .error .bitCount ∧
  decode 16 0x00000112 = .error .unusedField ∧ decode 16 0x00000620 = .error .codecSelector

/-! ## The step -/

/-- 60_exceptions.md section 2 (the envelope): when the word next on the port decodes to a command, the step is that
command's meaning, on the state with the word taken from the queue and its operands on the ports. The queue and the
operand ports are the model's own (log entries 2 and 3). -/
def Obligations.StepRunsTheDecodedCommand : Prop :=
  ∀ (s : State) (w : CommandWord) (a b : Word) (rest : List HostEvent) (i : Instr),
    s.inputs = .command w a b :: rest → decode s.cfg.nReaders w = .ok i →
    step s = exec i { s with inputs := rest, opA := a, opB := b }

/-- 60_exceptions.md section 2 (total behaviour): every command word, in every state and with every operand, completes,
raises a fault, or is blocked, and the three exclude each other by their status: 0, 1 to 7, 15. -/
def Obligations.EveryCommandHasOneOutcome : Prop :=
  ∀ (s : State) (w : CommandWord) (a b : Word) (rest : List HostEvent),
    s.inputs = .command w a b :: rest →
    ∃ t, step s = .next t ∧ t.inputs = rest ∧
      ((∃ r, t.reply = some { status := 0, result := some r }) ∨
       (s.fault = none ∧ ∃ c, t = (s.accept a b rest).faulted c ∧ 1 ≤ c.code.toNat ∧ c.code.toNat ≤ 7) ∨
       (s.fault ≠ none ∧ t = (s.accept a b rest).turnedAway))

/-- 10_state.md section 6 (invariants of the state): every step keeps them, from every state that has them. -/
def Obligations.StepKeepsTheStateInvariants : Prop :=
  ∀ (s t : State), s.Inv → step s = .next t → t.Inv

/-- 10_state.md section 6: the invariants hold right after reset, for every legal configuration and for the instance the
model resets to (log entry 1). -/
def Obligations.ResetStateHasTheInvariants : Prop :=
  (∀ c : Config, c.legal → (State.resetWith c).Inv) ∧ State.reset.Inv

/-- 70_reset_and_hazards.md section 1: hardware reset and the command RESET complete and produce the same state; the
registers then read as stated; the configuration is not affected. That a hardware reset leaves the queued events of the
host is the model's choice (log entry 13), and that the two buffers are equal as data rests on log entry 5: what the
buffer reads as is unspecified. -/
def Obligations.BothResetsGiveTheResetState : Prop :=
  ∀ (s : State) (rest : List HostEvent) (a b : Word), s.cfg.legal →
    ∃ t u, step { s with inputs := .hardwareReset :: rest } = .next t ∧
      step { s with inputs := .command 0x00000001 a b :: rest } = .next u ∧
      t.sameUnit u ∧ t.inputs = rest ∧ u.inputs = rest ∧ t.cfg = s.cfg ∧ u.cfg = s.cfg ∧
      t.wlen = 0 ∧ t.mode = .building ∧ t.fault = none ∧ (∀ r, t.cursor r = 0) ∧
      t.controlRegister 0 = some 0 ∧ t.controlRegister 1 = some 0 ∧
      t.controlRegister 2 = some (BitVec.ofNat 64 s.cfg.bufWords) ∧ t.controlRegister 3 = s.controlRegister 3

/-! ## Faults -/

/-- R266: a raised fault writes FAULT and the answer and nothing else, and FAULT keeps the first fault since the last
reset. -/
def Obligations.RaisedFaultsArePrecise : Prop :=
  ∀ (i : Instr) (s t : State) (c : FaultCode), exec i s = .next t →
    (s.fault = none → t.fault = some c → t = s.faulted c) ∧
    (s.fault = some c → i ≠ .reset → t.fault = some c)

/-- R267: while a fault is recorded every word other than a legal RESET and a legal CSRR, an illegal word too, is turned
away with S = 15 and no state change, and only RESET or hardware reset clears the fault. -/
def Obligations.RecordedFaultBlocksAndSticks : Prop :=
  (∀ (s : State) (w : CommandWord) (a b : Word) (rest : List HostEvent),
    s.inputs = .command w a b :: rest → s.fault ≠ none →
    decode s.cfg.nReaders w ≠ .ok .reset → (∀ csr, decode s.cfg.nReaders w ≠ .ok (.csrr csr)) →
    step s = .next (s.accept a b rest).turnedAway) ∧
  (∀ (s t : State) (c : FaultCode), s.fault = some c → step s = .next t →
    t.fault = some c ∨ (∃ rest, s.inputs = .hardwareReset :: rest) ∨
    (∃ a b rest, s.inputs = .command 0x00000001 a b :: rest))

/-- 60_exceptions.md section 4 (which command can raise which fault): the table, every row. -/
def Obligations.CommandsRaiseOnlyTheirFaults : Prop :=
  ∀ (i : Instr) (s t : State) (c : FaultCode),
    s.fault = none → exec i s = .next t → t.fault = some c → c ∈ mayRaise i

/-- R270: a legal command in the wrong mode raises ModeViolation before any check of its operands, and no other command
raises it. -/
def Obligations.ModeViolationIsTheWrongMode : Prop :=
  ∀ (i : Instr) (s : State), s.fault = none → i.wellFormed s.cfg.nReaders = true →
    (exec i s = .next (s.faulted .modeViolation) ↔
      (isWriter i = true ∧ s.mode = .frozen) ∨ (isReader i = true ∧ s.mode = .building))

/-- R271: InvalidParameter is raised by ENC, DEC and LEN, once the mode check has passed, exactly when B is outside the
codec's parameter domain; GAMMA and DELTA never raise it. -/
def Obligations.InvalidParameterIsOutsideTheDomain : Prop :=
  ∀ (c : CodecName) (rid : BitVec 4) (s : State), s.fault = none →
    (exec c.enc s = .next (s.faulted .invalidParameter) ↔ s.mode = .building ∧ ¬ paramDomain c s.opB.toNat) ∧
    (legalReader s.cfg.nReaders rid →
      (exec (c.dec rid) s = .next (s.faulted .invalidParameter) ↔ s.mode = .frozen ∧ ¬ paramDomain c s.opB.toNat)) ∧
    (exec c.len s = .next (s.faulted .invalidParameter) ↔ ¬ paramDomain c s.opB.toNat)

/-- R272: ValueOutOfDomain is raised by ENC, once the mode check has passed, and by LEN, exactly when B is in the
parameter domain and A is outside the value domain; DEC never raises it. -/
def Obligations.ValueOutOfDomainIsOutsideTheDomain : Prop :=
  ∀ (c : CodecName) (rid : BitVec 4) (s : State), s.fault = none →
    (exec c.enc s = .next (s.faulted .valueOutOfDomain) ↔
      s.mode = .building ∧ paramDomain c s.opB.toNat ∧ ¬ valueDomain c s.opB.toNat s.opA.toNat) ∧
    (exec c.len s = .next (s.faulted .valueOutOfDomain) ↔
      paramDomain c s.opB.toNat ∧ ¬ valueDomain c s.opB.toNat s.opA.toNat) ∧
    exec (c.dec rid) s ≠ .next (s.faulted .valueOutOfDomain)

/-- R273: BufferOverflow is raised exactly when WLEN plus the bits to append passes CAP_BITS, in the naturals; a command
that appends no bit never raises it within capacity, and FLUSH never does. -/
def Obligations.BufferOverflowIsPastCapacity : Prop :=
  (∀ (n : BitVec 7) (s : State), s.canWrite → legalCount n →
    (exec (.writeBits n) s = .next (s.faulted .bufferOverflow) ↔ s.cfg.capBits < s.wlen + n.toNat)) ∧
  (∀ s : State, s.canWrite →
    (exec .writeUnary s = .next (s.faulted .bufferOverflow) ↔ s.cfg.capBits < s.wlen + (s.opA.toNat + 1))) ∧
  (∀ (c : CodecName) (s : State), s.canWrite → paramDomain c s.opB.toNat → valueDomain c s.opB.toNat s.opA.toNat →
    (exec c.enc s = .next (s.faulted .bufferOverflow) ↔
      s.cfg.capBits < s.wlen + codeLength (c.codec.code s.opB.toNat s.opA.toNat))) ∧
  (∀ s : State, s.wlen ≤ s.cfg.capBits → exec (.writeBits 0) s ≠ .next (s.faulted .bufferOverflow)) ∧
  (∀ s : State, s.wlen ≤ s.cfg.capBits → s.opA = 0 → s.opB = 1 →
    exec .encMinbin s ≠ .next (s.faulted .bufferOverflow)) ∧
  (∀ s : State, s.fault = none → exec .flush s ≠ .next (s.faulted .bufferOverflow))

/-- 60_exceptions.md section 4 (ReadPastEnd) and 20_memory.md section 2 (bound on reads): READ_BITS raises it exactly when
RPOS + n passes WLEN, READ_UNARY exactly when no 1 bit lies at or after RPOS and below WLEN, BUF_READ exactly when the
word holds no stream bit, and DEC, with B in the parameter domain, exactly when one of its reads meets the bound before
its parse ends. And no command with a cursor reads a position at or above WLEN: its answer, FAULT and cursors are the
same whatever stands there. The parses of zeta and minimal binary are those of log entry 12. -/
def Obligations.ReadPastEndIsPastTheStream : Prop :=
  (∀ (rid : BitVec 4) (n : BitVec 7) (s : State), s.canRead rid → legalCount n →
    (exec (.readBits rid n) s = .next (s.faulted .readPastEnd) ↔ s.wlen < (s.cursor rid).toNat + n.toNat)) ∧
  (∀ (rid : BitVec 4) (s : State), s.canRead rid →
    (exec (.readUnary rid) s = .next (s.faulted .readPastEnd) ↔
      ∀ p, (s.cursor rid).toNat ≤ p → p < s.wlen → s.bit p = false)) ∧
  (∀ s : State, s.fault = none → s.mode = .frozen →
    (exec .bufRead s = .next (s.faulted .readPastEnd) ↔ (s.wlen + 63) / 64 ≤ s.opA.toNat)) ∧
  (∀ (rid : BitVec 4) (s : State), s.canRead rid →
    let p := (s.cursor rid).toNat
    let k := s.opB.toNat
    (exec (.decGamma rid) s = .next (s.faulted .readPastEnd) ↔ s.GammaRunsOut p) ∧
    (exec (.decDelta rid) s = .next (s.faulted .readPastEnd) ↔
      s.GammaRunsOut p ∨ ∃ h q, gammaParse s p = .value h q ∧ h ≤ 63 ∧ s.wlen < q + h) ∧
    (k ≤ 64 → (exec (.decExpGolomb rid) s = .next (s.faulted .readPastEnd) ↔
      s.GammaRunsOut p ∨ ∃ d q, gammaParse s p = .value d q ∧ s.wlen < q + k)) ∧
    (k ≤ 64 → (exec (.decRice rid) s = .next (s.faulted .readPastEnd) ↔
      s.NoOneFrom p ∨ ∃ d, s.RunAt p d ∧ s.wlen < p + d + 1 + k)) ∧
    (1 ≤ k → k ≤ 64 → (exec (.decZeta rid) s = .next (s.faulted .readPastEnd) ↔
      s.NoOneFrom p ∨ ∃ h, s.RunAt p h ∧ (h + 1) * k ≤ 64 ∧
        s.MinbinRunsOut (2 ^ ((h + 1) * k) - 2 ^ (h * k)) (p + h + 1))) ∧
    (1 ≤ k → (exec (.decMinbin rid) s = .next (s.faulted .readPastEnd) ↔ s.MinbinRunsOut k p))) ∧
  (∀ (i : Instr) (r : BitVec 4) (s t : State) (m : Memory), readerOf i = some r →
    (∀ p, p < s.wlen → m.bit s.cfg.endian p = s.bit p) → exec i s = .next t →
    ∃ t', exec i { s with buf := m } = .next t' ∧ t'.reply = t.reply ∧ t'.fault = t.fault ∧ t'.rpos = t.rpos)

/-- R275: only DEC raises MalformedStream, under exactly these conditions, codec by codec, with B in the parameter
domain. -/
def Obligations.MalformedStreamIsNoCodeword : Prop :=
  (∀ (i : Instr) (s : State), s.fault = none → (∀ (c : CodecName) (rid : BitVec 4), i ≠ c.dec rid) →
    exec i s ≠ .next (s.faulted .malformedStream)) ∧
  ∀ (rid : BitVec 4) (s : State), s.canRead rid →
    let p := (s.cursor rid).toNat
    let k := s.opB.toNat
    (exec (.decGamma rid) s = .next (s.faulted .malformedStream) ↔ ∃ h q, readUnaryAt s p = .value h q ∧ 64 ≤ h) ∧
    (exec (.decDelta rid) s = .next (s.faulted .malformedStream) ↔
      gammaParse s p = .fails .malformedStream ∨ ∃ h q, gammaParse s p = .value h q ∧ 64 ≤ h) ∧
    (k ≤ 64 → (exec (.decExpGolomb rid) s = .next (s.faulted .malformedStream) ↔
      gammaParse s p = .fails .malformedStream ∨
      ∃ d q r q', gammaParse s p = .value d q ∧ readBitsAt s q k = .value r q' ∧ 2 ^ 64 ≤ d * 2 ^ k + r)) ∧
    (k ≤ 64 → (exec (.decRice rid) s = .next (s.faulted .malformedStream) ↔
      ∃ d q r q', readUnaryAt s p = .value d q ∧ readBitsAt s q k = .value r q' ∧ 2 ^ 64 ≤ d * 2 ^ k + r)) ∧
    (1 ≤ k → k ≤ 64 → (exec (.decZeta rid) s = .next (s.faulted .malformedStream) ↔
      ∃ h q, readUnaryAt s p = .value h q ∧ 64 < (h + 1) * k)) ∧
    exec (.decMinbin rid) s ≠ .next (s.faulted .malformedStream)

/-! ## What holds of every command -/

/-- 10_state.md sections 2 and 3: in FROZEN no command but RESET writes BUF, WLEN or MODE, and in BUILDING none writes
BUF but the writer commands and FLUSH. -/
def Obligations.FrozenStreamIsImmutable : Prop :=
  ∀ (i : Instr) (s t : State), exec i s = .next t → i ≠ .reset →
    (s.mode = .frozen → t.buf = s.buf ∧ t.wlen = s.wlen ∧ t.mode = .frozen) ∧
    (isWriter i = false → i ≠ .flush → t.buf = s.buf)

/-- 10_state.md section 3 (WLEN): no command but RESET lowers WLEN; it never passes CAP_BITS; a writer command that
completes answers the number of bits it grew by. -/
def Obligations.WriteCursorOnlyGrows : Prop :=
  ∀ (i : Instr) (s t : State), exec i s = .next t → i ≠ .reset →
    s.wlen ≤ t.wlen ∧ (s.wlen ≤ s.cfg.capBits → t.wlen ≤ s.cfg.capBits) ∧
    (isWriter i = false → t.wlen = s.wlen) ∧
    (isWriter i = true → s.fault = none → t.fault = none → t.reply = okReply (t.wlen - s.wlen))

/-- 10_state.md section 3 (flags): MODE is written by FLUSH, BUILDING to FROZEN, and by RESET, and by nothing else. -/
def Obligations.OnlyFlushAndResetWriteMode : Prop :=
  ∀ (i : Instr) (s t : State), exec i s = .next t →
    t.mode = s.mode ∨ (i = .flush ∧ s.mode = .building ∧ t.mode = .frozen) ∨ (i = .reset ∧ t.mode = .building)

/-- 10_state.md section 3 (RPOS): a command of context r writes no other cursor, and a command of no context writes none
but RESET. -/
def Obligations.CommandsWriteOnlyTheirOwnCursor : Prop :=
  ∀ (i : Instr) (s t : State), exec i s = .next t → i ≠ .reset →
    ∀ r : BitVec 4, readerOf i ≠ some r → t.cursor r = s.cursor r

/-- 10_state.md section 3 (RPOS): a command of context r reads no other cursor: two states that agree on everything but
the other cursors give the same answer, the same FAULT and the same cursor r. -/
def Obligations.CommandsReadOnlyTheirOwnCursor : Prop :=
  ∀ (i : Instr) (s s' t : State) (r : BitVec 4), readerOf i = some r → s'.cursor r = s.cursor r →
    s' = { s with rpos := s'.rpos } → exec i s = .next t →
    ∃ t', exec i s' = .next t' ∧ t'.reply = t.reply ∧ t'.fault = t.fault ∧ t'.cursor r = t.cursor r

/-- 20_memory.md section 5 (independence of readers): two commands of different contexts that raise no fault commute:
the same two results and the same final state. -/
def Obligations.ReadersOfDifferentContextsCommute : Prop :=
  ∀ (i j : Instr) (r q : BitVec 4) (a b c d : Word) (s t₁ t₂ : State),
    readerOf i = some r → readerOf j = some q → r ≠ q →
    exec i { s with opA := a, opB := b } = .next t₁ → t₁.fault = none →
    exec j { t₁ with opA := c, opB := d } = .next t₂ → t₂.fault = none →
    ∃ u₁ u₂, exec j { s with opA := c, opB := d } = .next u₁ ∧ exec i { u₁ with opA := a, opB := b } = .next u₂ ∧
      t₂.sameUnit u₂ ∧ u₁.reply = t₂.reply ∧ u₂.reply = t₁.reply

/-- 40_bitio.md section 4 (lengths do not depend on E): writer commands, FLUSH and LEN give the same answer, the same
WLEN and the same FAULT on two instances that differ in E and in what the buffer holds. -/
def Obligations.WriterAnswersDoNotDependOnEndian : Prop :=
  ∀ (i : Instr) (e : Endian) (m : Memory) (s t : State),
    isWriter i = true ∨ i ∈ [.flush, .lenGamma, .lenDelta, .lenExpGolomb, .lenZeta, .lenRice, .lenMinbin] →
    exec i s = .next t →
    ∃ t', exec i { s with buf := m, cfg := { s.cfg with endian := e } } = .next t' ∧
      t'.reply = t.reply ∧ t'.wlen = t.wlen ∧ t'.mode = t.mode ∧ t'.fault = t.fault ∧ t'.rpos = t.rpos

/-! ## The bit order of the buffer -/

/-- R52: stream position p is bit 63 - p mod 64 (BE) or p mod 64 (LE) of word p / 64. -/
def Obligations.PositionIsABitOfItsWord : Prop :=
  ∀ (s : State) (p : Nat),
    s.bit p = (s.word (p / 64)).getLsbD (match s.cfg.endian with | .be => 63 - p % 64 | .le => p % 64)

/-- R55: MemWrite lays the low n bits of v at p, p + 1, … in the order of E, and changes no other bit of the buffer. -/
def Obligations.MemWriteLaysTheToken : Prop :=
  ∀ (m : Memory) (e : Endian) (p n v : Nat), m.wf → n ≤ 64 →
    (∀ j, j < n → (m.memWrite e p n v).bit e (p + j) =
      (match e with | .be => (low v n).testBit (n - 1 - j) | .le => (low v n).testBit j)) ∧
    (∀ q, q < p ∨ p + n ≤ q → (m.memWrite e p n v).bit e q = m.bit e q) ∧
    (n = 0 → m.memWrite e p n v = m)

/-- 20_memory.md section 2 (MemRead; the spec derives the last clause): MemRead gives the value whose bits stand at p, p
+ 1, … in the order of E, with zeros above, and gives back what MemWrite wrote. -/
def Obligations.MemReadGivesTheToken : Prop :=
  (∀ (m : Memory) (e : Endian) (p n : Nat), n ≤ 64 →
    m.memRead e p n < 2 ^ n ∧
    ∀ j, j < n → (match e with | .be => (m.memRead e p n).testBit (n - 1 - j) | .le => (m.memRead e p n).testBit j) =
      m.bit e (p + j)) ∧
  (∀ (m : Memory) (e : Endian) (p : Nat), m.memRead e p 0 = 0) ∧
  (∀ (m : Memory) (e : Endian) (p n v : Nat), m.wf → n ≤ 64 → (m.memWrite e p n v).memRead e p n = low v n)

/-- 20_memory.md section 3 (a token that crosses a word boundary, derived by the spec): which bits of the token fill
which end of the two words after MemWrite. -/
def Obligations.TokenAcrossWordsSplits : Prop :=
  ∀ (m : Memory) (e : Endian) (p n v : Nat), m.wf → n ≤ 64 → 64 < p % 64 + n →
    let a := 64 - p % 64
    let b := n - a
    let w₀ := ((m.memWrite e p n v).word e (p / 64)).toNat
    let w₁ := ((m.memWrite e p n v).word e (p / 64 + 1)).toNat
    match e with
    | .be => w₀ % 2 ^ a = low v n / 2 ^ b ∧ w₁ / 2 ^ (64 - b) = low v n % 2 ^ b
    | .le => w₀ / 2 ^ (p % 64) = low v n % 2 ^ a ∧ w₁ % 2 ^ b = low v n / 2 ^ a

/-! ## System and bit I/O commands -/

/-- 46_system.md (RESET): RESET completes in every state with R = 0, writes MODE and FAULT to 0, WLEN and every cursor to
0, touches neither the configuration nor the ports, and leaves the unit as hardware reset does (that the two buffers are
equal as data rests on log entry 5); its word is 0x00000001 and every other word with its opcode is illegal. -/
def Obligations.ResetCommandClearsTheUnit : Prop :=
  (∀ (nReaders : Nat) (w : CommandWord), w.extractLsb' 0 8 = 0x01 →
    (w = 0x00000001 ∧ decode nReaders w = .ok .reset) ∨ (w ≠ 0x00000001 ∧ ∃ e, decode nReaders w = .error e)) ∧
  ∀ s : State, ∃ t, exec .reset s = .next t ∧ t.reply = okReply 0 ∧ s.samePort t ∧
    t.wlen = 0 ∧ t.mode = .building ∧ t.fault = none ∧ (∀ r, t.cursor r = 0) ∧ t.sameUnit (s.hardwareReset s.inputs)

/-- 46_system.md (CSRR) and 10_state.md section 4: CSRR 0 to 3 completes in every mode and with any FAULT, changes no
state, and answers the register; a CSR number above 3 is IllegalCommand, or BLOCKED while a fault is recorded. -/
def Obligations.ControlRegistersReadTheirFields : Prop :=
  ∀ s : State, s.cfg.legal →
    exec (.csrr 0) s = .next (s.completed
      ((match s.mode with | .building => 0 | .frozen => 1) + 2 ^ 4 * (faultField s.fault).toNat)) ∧
    exec (.csrr 1) s = .next (s.completed s.wlen) ∧
    exec (.csrr 2) s = .next (s.completed s.cfg.bufWords) ∧
    exec (.csrr 3) s = .next (s.completed
      ((match s.cfg.endian with | .be => 0 | .le => 1) + 2 ^ 8 * s.cfg.nReaders + 2 ^ 16)) ∧
    ∀ csr : BitVec 7, 3 < csr.toNat →
      (s.fault = none → exec (.csrr csr) s = .next (s.faulted .illegalCommand)) ∧
      (s.fault ≠ none → exec (.csrr csr) s = .next s.turnedAway)

/-- 40_bitio.md section 1 (WRITE_BITS): the low n bits of A are appended in the order of E, R = n, nothing else changes.
-/
def Obligations.WriteBitsAppendsTheToken : Prop :=
  ∀ (n : BitVec 7) (s : State), s.buf.wf → s.canWrite → n.toNat ≤ 64 → s.wlen + n.toNat ≤ s.cfg.capBits →
    ∃ t, exec (.writeBits n) s = .next t ∧ t.reply = okReply n.toNat ∧ t.wlen = s.wlen + n.toNat ∧
      s.Appended t (tokenString s.cfg.endian s.opA.toNat n.toNat) ∧
      ∀ j, j < n.toNat → t.bit (s.wlen + j) =
        (match s.cfg.endian with | .be => s.opA.getLsbD (n.toNat - 1 - j) | .le => s.opA.getLsbD j)

/-- 40_bitio.md section 1 (WRITE_UNARY): A zeros and a one are appended, R = A + 1, nothing else changes. -/
def Obligations.WriteUnaryAppendsTheRun : Prop :=
  ∀ s : State, s.buf.wf → s.canWrite → s.wlen + s.opA.toNat + 1 ≤ s.cfg.capBits →
    ∃ t, exec .writeUnary s = .next t ∧ t.reply = okReply (s.opA.toNat + 1) ∧ t.wlen = s.wlen + s.opA.toNat + 1 ∧
      s.Appended t (unaryString s.opA.toNat) ∧
      (∀ j, j < s.opA.toNat → t.bit (s.wlen + j) = false) ∧ t.bit (s.wlen + s.opA.toNat) = true

/-- 40_bitio.md section 1 (FLUSH): in BUILDING the last partial word is padded with zeros, every other position keeps
its bit, and the mode becomes FROZEN; in FROZEN nothing changes; R = WLEN, which does not change. -/
def Obligations.FlushPadsAndFreezes : Prop :=
  ∀ s : State, s.fault = none →
    (s.mode = .building → s.buf.wf → ∃ t, exec .flush s = .next t ∧ t.reply = okReply s.wlen ∧ t.mode = .frozen ∧
      (∀ p, s.wlen ≤ p → p < 64 * ((s.wlen + 63) / 64) → t.bit p = false) ∧
      (∀ p, p < s.wlen ∨ 64 * ((s.wlen + 63) / 64) ≤ p → t.bit p = s.bit p) ∧
      t.wlen = s.wlen ∧ t.fault = none ∧ t.rpos = s.rpos ∧ s.samePort t) ∧
    (s.mode = .frozen → exec .flush s = .next (s.completed s.wlen))

/-- 40_bitio.md section 2 (READ_BITS): R is the n-bit token at the cursor, right-justified with zeros above, and the
cursor moves past it; nothing else changes. -/
def Obligations.ReadBitsGivesTheToken : Prop :=
  ∀ (rid : BitVec 4) (n : BitVec 7) (s : State), s.canRead rid → n.toNat ≤ 64 →
    (s.cursor rid).toNat + n.toNat ≤ s.wlen →
    ∃ t v, exec (.readBits rid n) s = .next t ∧ s.ReadTo t rid ((s.cursor rid).toNat + n.toNat) ∧
      t.reply = okReply v ∧ v < 2 ^ n.toNat ∧
      ∀ j, j < n.toNat →
        (match s.cfg.endian with | .be => v.testBit (n.toNat - 1 - j) | .le => v.testBit j) =
          s.bit ((s.cursor rid).toNat + j)

/-- 40_bitio.md section 2 (READ_UNARY): R is the number of 0 bits before the first 1 bit at or after the cursor and
below WLEN, and the cursor moves past that bit; nothing else changes. -/
def Obligations.ReadUnaryCountsTheZeros : Prop :=
  ∀ (rid : BitVec 4) (q : Nat) (s : State), s.canRead rid → (s.cursor rid).toNat + q < s.wlen →
    (∀ j, j < q → s.bit ((s.cursor rid).toNat + j) = false) → s.bit ((s.cursor rid).toNat + q) = true →
    ∃ t, exec (.readUnary rid) s = .next t ∧ t.reply = okReply q ∧ s.ReadTo t rid ((s.cursor rid).toNat + q + 1)

/-- 40_bitio.md section 2 (SET_BIT_POS, GET_BIT_POS): SET_BIT_POS sets the cursor to A, any 64-bit value, and nothing
else, and answers 0; GET_BIT_POS answers the cursor and changes nothing; both raise ModeViolation in BUILDING and
IllegalCommand for a context that does not exist; their words are those of the rules. -/
def Obligations.SeekSetsAndTellReadsTheCursor : Prop :=
  (∀ w : CommandWord, (w &&& 0xFF0FFFFF = 0x0000001A ↔ encode (.setBitPos (w.extractLsb' 20 4)) = w) ∧
    (w &&& 0xFF0FFFFF = 0x0000001B ↔ encode (.getBitPos (w.extractLsb' 20 4)) = w)) ∧
  ∀ (rid : BitVec 4) (s : State), s.fault = none →
    (s.canRead rid →
      (∃ t, exec (.setBitPos rid) s = .next t ∧ t.reply = okReply 0 ∧ s.ReadTo t rid s.opA.toNat) ∧
      exec (.getBitPos rid) s = .next (s.completed (s.cursor rid).toNat)) ∧
    (legalReader s.cfg.nReaders rid → s.mode = .building →
      exec (.setBitPos rid) s = .next (s.faulted .modeViolation) ∧
      exec (.getBitPos rid) s = .next (s.faulted .modeViolation)) ∧
    (¬ legalReader s.cfg.nReaders rid →
      exec (.setBitPos rid) s = .next (s.faulted .illegalCommand) ∧
      exec (.getBitPos rid) s = .next (s.faulted .illegalCommand))

/-- 40_bitio.md section 3 (BUF_READ): R is the finished word whose index is A, bit for bit the stream positions 64 A to
64 A + 63 in the order of E, and no state changes. -/
def Obligations.BufReadGivesTheFinishedWord : Prop :=
  ∀ s : State, s.fault = none → s.mode = .frozen → s.opA.toNat < (s.wlen + 63) / 64 →
    ∃ w : Word, exec .bufRead s = .next (s.completed w.toNat) ∧
      ∀ k, k < 64 →
        w.getLsbD (match s.cfg.endian with | .be => 63 - k | .le => k) = s.bit (64 * s.opA.toNat + k)

/-! ## ENC: what is appended

Each says what the command writes, what it answers and that nothing else changes. `h` is flog2(m) by its definition
(00_scope.md R11): the exponent that brackets m. -/

/-- 42_codec_gamma_delta.md section 1: ENC.GAMMA appends U(h), B(m - 2^h, h), m = x + 1. -/
def Obligations.EncGammaAppendsTheCodeword : Prop :=
  ∀ (s : State) (h : Nat), s.buf.wf → s.canWrite → s.opA.toNat ≤ 2 ^ 64 - 2 →
    2 ^ h ≤ s.opA.toNat + 1 → s.opA.toNat + 1 < 2 ^ (h + 1) → s.wlen + (2 * h + 1) ≤ s.cfg.capBits →
    ∃ t, exec .encGamma s = .next t ∧ t.reply = okReply (2 * h + 1) ∧ t.wlen = s.wlen + (2 * h + 1) ∧
      s.Appended t (codeString s.cfg.endian [.unary h, .binary (s.opA.toNat + 1 - 2 ^ h) h])

/-- 42_codec_gamma_delta.md section 2: ENC.DELTA appends U(g), B(h + 1 - 2^g, g), B(m - 2^h, h). -/
def Obligations.EncDeltaAppendsTheCodeword : Prop :=
  ∀ (s : State) (h g : Nat), s.buf.wf → s.canWrite → s.opA.toNat ≤ 2 ^ 64 - 2 →
    2 ^ h ≤ s.opA.toNat + 1 → s.opA.toNat + 1 < 2 ^ (h + 1) → 2 ^ g ≤ h + 1 → h + 1 < 2 ^ (g + 1) →
    s.wlen + (2 * g + 1 + h) ≤ s.cfg.capBits →
    ∃ t, exec .encDelta s = .next t ∧ t.reply = okReply (2 * g + 1 + h) ∧ t.wlen = s.wlen + (2 * g + 1 + h) ∧
      s.Appended t (codeString s.cfg.endian
        [.unary g, .binary (h + 1 - 2 ^ g) g, .binary (s.opA.toNat + 1 - 2 ^ h) h])

/-- 43_codec_expgolomb_rice.md section 1: ENC.EXPGOLOMB appends U(h), B(m - 2^h, h), B(x mod 2^k, k), m = x / 2^k + 1.
-/
def Obligations.EncExpGolombAppendsTheCodeword : Prop :=
  ∀ (s : State) (h : Nat),
    let k := s.opB.toNat
    let d := s.opA.toNat / 2 ^ k
    s.buf.wf → s.canWrite → k ≤ 64 → ¬ (k = 0 ∧ s.opA.toNat = 2 ^ 64 - 1) →
    2 ^ h ≤ d + 1 → d + 1 < 2 ^ (h + 1) → s.wlen + (2 * h + 1 + k) ≤ s.cfg.capBits →
    ∃ t, exec .encExpGolomb s = .next t ∧ t.reply = okReply (2 * h + 1 + k) ∧ t.wlen = s.wlen + (2 * h + 1 + k) ∧
      s.Appended t (codeString s.cfg.endian
        [.unary h, .binary (d + 1 - 2 ^ h) h, .binary (s.opA.toNat % 2 ^ k) k])

/-- 43_codec_expgolomb_rice.md section 2: ENC.RICE appends U(x / 2^k), B(x mod 2^k, k). -/
def Obligations.EncRiceAppendsTheCodeword : Prop :=
  ∀ s : State,
    let k := s.opB.toNat
    let d := s.opA.toNat / 2 ^ k
    s.buf.wf → s.canWrite → k ≤ 64 → ¬ (k = 0 ∧ s.opA.toNat = 2 ^ 64 - 1) →
    s.wlen + (d + 1 + k) ≤ s.cfg.capBits →
    ∃ t, exec .encRice s = .next t ∧ t.reply = okReply (d + 1 + k) ∧ t.wlen = s.wlen + (d + 1 + k) ∧
      s.Appended t (codeString s.cfg.endian [.unary d, .binary (s.opA.toNat % 2 ^ k) k])

/-- 44_codec_zeta_minbin.md, the zeta rules (the token list written out): with 2^(h k) <= m < 2^((h + 1) k), lo = 2^(h
k) and v = m - lo, ENC.ZETA appends U(h), B(v, h k + k - 1) when v < lo, and U(h), B((v + lo) / 2, h k + k - 1), B((v +
lo) mod 2, 1) otherwise. The code is supplied by the spec from general knowledge (log entry 12). -/
def Obligations.EncZetaAppendsTheCodeword : Prop :=
  ∀ (s : State) (h : Nat),
    let k := s.opB.toNat
    let m := s.opA.toNat + 1
    let lo := 2 ^ (h * k)
    let v := m - lo
    s.buf.wf → s.canWrite → 1 ≤ k → k ≤ 64 → s.opA.toNat ≤ 2 ^ 64 - 2 →
    lo ≤ m → m < 2 ^ ((h + 1) * k) → (h + 1) * k ≤ 64 →
    (v < lo → s.wlen + (h + 1 + h * k + k - 1) ≤ s.cfg.capBits →
      ∃ t, exec .encZeta s = .next t ∧ t.reply = okReply (h + 1 + h * k + k - 1) ∧
        t.wlen = s.wlen + (h + 1 + h * k + k - 1) ∧
        s.Appended t (codeString s.cfg.endian [.unary h, .binary v (h * k + k - 1)])) ∧
    (lo ≤ v → s.wlen + (h + 1 + h * k + k) ≤ s.cfg.capBits →
      ∃ t, exec .encZeta s = .next t ∧ t.reply = okReply (h + 1 + h * k + k) ∧
        t.wlen = s.wlen + (h + 1 + h * k + k) ∧
        s.Appended t (codeString s.cfg.endian
          [.unary h, .binary ((v + lo) / 2) (h * k + k - 1), .binary ((v + lo) % 2) 1]))

/-- 44_codec_zeta_minbin.md, the minimal binary rules: with 2^l <= u < 2^(l + 1) and limit = 2^(l + 1) - u, ENC.MINBIN
appends B(x, l) when x < limit, and B(t / 2, l), B(t mod 2, 1) with t = x + limit otherwise. The code is supplied by the
spec from general knowledge (log entry 12). -/
def Obligations.EncMinbinAppendsTheCodeword : Prop :=
  ∀ (s : State) (l : Nat),
    let u := s.opB.toNat
    let x := s.opA.toNat
    let limit := 2 ^ (l + 1) - u
    s.buf.wf → s.canWrite → x < u → 2 ^ l ≤ u → u < 2 ^ (l + 1) →
    (x < limit → s.wlen + l ≤ s.cfg.capBits →
      ∃ t, exec .encMinbin s = .next t ∧ t.reply = okReply l ∧ t.wlen = s.wlen + l ∧
        s.Appended t (codeString s.cfg.endian [.binary x l])) ∧
    (limit ≤ x → s.wlen + (l + 1) ≤ s.cfg.capBits →
      ∃ t, exec .encMinbin s = .next t ∧ t.reply = okReply (l + 1) ∧ t.wlen = s.wlen + (l + 1) ∧
        s.Appended t (codeString s.cfg.endian [.binary ((x + limit) / 2) l, .binary ((x + limit) % 2) 1]))

/-! ## DEC: what is read back

Each is the codeword of an accepted input standing at the cursor, below WLEN: DEC answers the input and moves the cursor
past the codeword, and nothing else changes. -/

/-- 42_codec_gamma_delta.md section 1: DEC.GAMMA. -/
def Obligations.DecGammaReadsTheCodeword : Prop :=
  ∀ (rid : BitVec 4) (s : State) (x h : Nat), s.canRead rid → x ≤ 2 ^ 64 - 2 → 2 ^ h ≤ x + 1 → x + 1 < 2 ^ (h + 1) →
    (s.cursor rid).toNat + (2 * h + 1) ≤ s.wlen →
    s.holds (s.cursor rid).toNat (codeString s.cfg.endian [.unary h, .binary (x + 1 - 2 ^ h) h]) →
    ∃ t, exec (.decGamma rid) s = .next t ∧ t.reply = okReply x ∧
      s.ReadTo t rid ((s.cursor rid).toNat + (2 * h + 1))

/-- 42_codec_gamma_delta.md section 2: DEC.DELTA. -/
def Obligations.DecDeltaReadsTheCodeword : Prop :=
  ∀ (rid : BitVec 4) (s : State) (x h g : Nat), s.canRead rid → x ≤ 2 ^ 64 - 2 → 2 ^ h ≤ x + 1 → x + 1 < 2 ^ (h + 1) →
    2 ^ g ≤ h + 1 → h + 1 < 2 ^ (g + 1) → (s.cursor rid).toNat + (2 * g + 1 + h) ≤ s.wlen →
    s.holds (s.cursor rid).toNat (codeString s.cfg.endian
      [.unary g, .binary (h + 1 - 2 ^ g) g, .binary (x + 1 - 2 ^ h) h]) →
    ∃ t, exec (.decDelta rid) s = .next t ∧ t.reply = okReply x ∧
      s.ReadTo t rid ((s.cursor rid).toNat + (2 * g + 1 + h))

/-- 43_codec_expgolomb_rice.md section 1: DEC.EXPGOLOMB. -/
def Obligations.DecExpGolombReadsTheCodeword : Prop :=
  ∀ (rid : BitVec 4) (s : State) (x h : Nat),
    let k := s.opB.toNat
    let d := x / 2 ^ k
    s.canRead rid → k ≤ 64 → x ≤ 2 ^ 64 - 1 → ¬ (k = 0 ∧ x = 2 ^ 64 - 1) → 2 ^ h ≤ d + 1 → d + 1 < 2 ^ (h + 1) →
    (s.cursor rid).toNat + (2 * h + 1 + k) ≤ s.wlen →
    s.holds (s.cursor rid).toNat (codeString s.cfg.endian
      [.unary h, .binary (d + 1 - 2 ^ h) h, .binary (x % 2 ^ k) k]) →
    ∃ t, exec (.decExpGolomb rid) s = .next t ∧ t.reply = okReply x ∧
      s.ReadTo t rid ((s.cursor rid).toNat + (2 * h + 1 + k))

/-- 43_codec_expgolomb_rice.md section 2: DEC.RICE. -/
def Obligations.DecRiceReadsTheCodeword : Prop :=
  ∀ (rid : BitVec 4) (s : State) (x : Nat),
    let k := s.opB.toNat
    let d := x / 2 ^ k
    s.canRead rid → k ≤ 64 → x ≤ 2 ^ 64 - 1 → (s.cursor rid).toNat + (d + 1 + k) ≤ s.wlen →
    s.holds (s.cursor rid).toNat (codeString s.cfg.endian [.unary d, .binary (x % 2 ^ k) k]) →
    ∃ t, exec (.decRice rid) s = .next t ∧ t.reply = okReply x ∧
      s.ReadTo t rid ((s.cursor rid).toNat + (d + 1 + k))

/-- 44_codec_zeta_minbin.md, the zeta rules: DEC.ZETA, for the two forms of the codeword. The code is supplied by the
spec from general knowledge (log entry 12). -/
def Obligations.DecZetaReadsTheCodeword : Prop :=
  ∀ (rid : BitVec 4) (s : State) (x h : Nat),
    let k := s.opB.toNat
    let lo := 2 ^ (h * k)
    let v := x + 1 - lo
    let p := (s.cursor rid).toNat
    s.canRead rid → 1 ≤ k → k ≤ 64 → x ≤ 2 ^ 64 - 2 → lo ≤ x + 1 → x + 1 < 2 ^ ((h + 1) * k) → (h + 1) * k ≤ 64 →
    (v < lo → p + (h + 1 + h * k + k - 1) ≤ s.wlen →
      s.holds p (codeString s.cfg.endian [.unary h, .binary v (h * k + k - 1)]) →
      ∃ t, exec (.decZeta rid) s = .next t ∧ t.reply = okReply x ∧ s.ReadTo t rid (p + (h + 1 + h * k + k - 1))) ∧
    (lo ≤ v → p + (h + 1 + h * k + k) ≤ s.wlen →
      s.holds p (codeString s.cfg.endian
        [.unary h, .binary ((v + lo) / 2) (h * k + k - 1), .binary ((v + lo) % 2) 1]) →
      ∃ t, exec (.decZeta rid) s = .next t ∧ t.reply = okReply x ∧ s.ReadTo t rid (p + (h + 1 + h * k + k)))

/-- 44_codec_zeta_minbin.md, the minimal binary rules: DEC.MINBIN, for the two forms of the codeword. The code is
supplied by the spec from general knowledge (log entry 12). -/
def Obligations.DecMinbinReadsTheCodeword : Prop :=
  ∀ (rid : BitVec 4) (s : State) (x l : Nat),
    let u := s.opB.toNat
    let limit := 2 ^ (l + 1) - u
    let p := (s.cursor rid).toNat
    s.canRead rid → x < u → 2 ^ l ≤ u → u < 2 ^ (l + 1) →
    (x < limit → p + l ≤ s.wlen → s.holds p (codeString s.cfg.endian [.binary x l]) →
      ∃ t, exec (.decMinbin rid) s = .next t ∧ t.reply = okReply x ∧ s.ReadTo t rid (p + l)) ∧
    (limit ≤ x → p + (l + 1) ≤ s.wlen →
      s.holds p (codeString s.cfg.endian [.binary ((x + limit) / 2) l, .binary ((x + limit) % 2) 1]) →
      ∃ t, exec (.decMinbin rid) s = .next t ∧ t.reply = okReply x ∧ s.ReadTo t rid (p + (l + 1)))

/-! ## LEN -/

/-- 42_codec_gamma_delta.md sections 1 and 2 (the spec derives the two formulas from the token lists): LEN.GAMMA and
LEN.DELTA, legal in both modes, answer the length, which fits in 64 bits, and write no state; x = 2^64 - 1 raises
ValueOutOfDomain. B is ignored. Their words are those of the rules. -/
def Obligations.LenOfGammaAndDelta : Prop :=
  encode .lenGamma = 0x00000022 ∧ encode .lenDelta = 0x00000122 ∧
  ∀ s : State, s.fault = none →
    (s.opA.toNat ≤ 2 ^ 64 - 2 → ∀ h, 2 ^ h ≤ s.opA.toNat + 1 → s.opA.toNat + 1 < 2 ^ (h + 1) →
      (2 * h + 1 ≤ 127 ∧ exec .lenGamma s = .next (s.completed (2 * h + 1))) ∧
      ∀ g, 2 ^ g ≤ h + 1 → h + 1 < 2 ^ (g + 1) →
        2 * g + 1 + h ≤ 76 ∧ exec .lenDelta s = .next (s.completed (2 * g + 1 + h))) ∧
    (s.opA.toNat = 2 ^ 64 - 1 →
      exec .lenGamma s = .next (s.faulted .valueOutOfDomain) ∧ exec .lenDelta s = .next (s.faulted .valueOutOfDomain))

/-- 43_codec_expgolomb_rice.md sections 1 and 2 (the spec derives the two formulas from the token lists): LEN.EXPGOLOMB
and LEN.RICE, legal in both modes, answer the length, which fits in 64 bits, and write no state; k > 64 raises
InvalidParameter, and (x, k) = (2^64 - 1, 0) ValueOutOfDomain. Their words are those of the rules. -/
def Obligations.LenOfExpGolombAndRice : Prop :=
  encode .lenExpGolomb = 0x00000222 ∧ encode .lenRice = 0x00000422 ∧
  ∀ s : State, s.fault = none →
    let k := s.opB.toNat
    let d := s.opA.toNat / 2 ^ k
    (64 < k → exec .lenExpGolomb s = .next (s.faulted .invalidParameter) ∧
      exec .lenRice s = .next (s.faulted .invalidParameter)) ∧
    (k = 0 → s.opA.toNat = 2 ^ 64 - 1 → exec .lenExpGolomb s = .next (s.faulted .valueOutOfDomain) ∧
      exec .lenRice s = .next (s.faulted .valueOutOfDomain)) ∧
    (k ≤ 64 → ¬ (k = 0 ∧ s.opA.toNat = 2 ^ 64 - 1) →
      (d + 1 + k ≤ 2 ^ 64 - 1 ∧ exec .lenRice s = .next (s.completed (d + 1 + k))) ∧
      ∀ h, 2 ^ h ≤ d + 1 → d + 1 < 2 ^ (h + 1) →
        2 * h + 1 + k ≤ 128 ∧ exec .lenExpGolomb s = .next (s.completed (2 * h + 1 + k)))

/-- 44_codec_zeta_minbin.md (the two LEN rules): LEN.ZETA by its three cases and LEN.MINBIN by its two, legal in both
modes, writing no state. The codes are supplied by the spec from general knowledge (log entry 12). -/
def Obligations.LenOfZetaAndMinbin : Prop :=
  ∀ s : State, s.fault = none →
    let x := s.opA.toNat
    let b := s.opB.toNat
    (∀ h, 1 ≤ b → b ≤ 64 → x ≤ 2 ^ 64 - 2 → 2 ^ (h * b) ≤ x + 1 → x + 1 < 2 ^ ((h + 1) * b) → (h + 1) * b ≤ 64 →
      (b = 1 → exec .lenZeta s = .next (s.completed (2 * h + 1))) ∧
      (b ≠ 1 → x + 1 < 2 * 2 ^ (h * b) → exec .lenZeta s = .next (s.completed (h + 1 + h * b + b - 1))) ∧
      (b ≠ 1 → 2 * 2 ^ (h * b) ≤ x + 1 → exec .lenZeta s = .next (s.completed (h + 1 + h * b + b)))) ∧
    (∀ l, x < b → 2 ^ l ≤ b → b < 2 ^ (l + 1) →
      (x < 2 ^ (l + 1) - b → exec .lenMinbin s = .next (s.completed l)) ∧
      (2 ^ (l + 1) - b ≤ x → exec .lenMinbin s = .next (s.completed (l + 1))))

/-! ## The laws of the codecs -/

/-- 41_codec_contract.md section 1 (LEN equals ENC): for every accepted input the length LEN answers is the sum of the
token lengths of the codeword ENC lays down, and fits in 64 bits. -/
def Obligations.LenIsTheLengthOfTheCodeword : Prop :=
  ∀ (c : CodecName) (param x : Nat), param ≤ 2 ^ 64 - 1 → paramDomain c param → valueDomain c param x →
    codeLength (c.codec.code param x) = c.codec.len param x ∧ c.codec.len param x ≤ 2 ^ 64 - 1

/-- R149: if ENC.c x, param succeeds with the stream at WLEN = p, and later, in FROZEN, with the codeword still in the
stream, DEC.c param runs with RPOS = p, then DEC returns x and moves the cursor to the end of the codeword. -/
def Obligations.DecodeUndoesEncode : Prop :=
  ∀ (c : CodecName) (rid : BitVec 4) (s t u : State),
    s.buf.wf → s.fault = none → exec c.enc s = .next t → t.fault = none →
    u.cfg = s.cfg → u.canRead rid → u.opB = s.opB → (u.cursor rid).toNat = s.wlen → t.wlen ≤ u.wlen →
    (∀ p, s.wlen ≤ p → p < t.wlen → u.bit p = t.bit p) →
    ∃ v, exec (c.dec rid) u = .next v ∧ v.reply = okReply s.opA.toNat ∧ u.ReadTo v rid t.wlen ∧
      t.wlen = s.wlen + c.codec.len s.opB.toNat s.opA.toNat

/-- 41_codec_contract.md section 3 (prefix property): for a fixed codec, parameter and E no codeword is a prefix of the
codeword of another accepted input. -/
def Obligations.CodewordsArePrefixFree : Prop :=
  ∀ (c : CodecName) (e : Endian) (param x y : Nat), param ≤ 2 ^ 64 - 1 → paramDomain c param →
    valueDomain c param x → valueDomain c param y →
    codeString e (c.codec.code param x) <+: codeString e (c.codec.code param y) → x = y

/-! ## The compressed vector (host sequences, log entry 15) -/

/-- 45_vector_sequences.md sections 1 and 2: BUILD of accepted values that fit succeeds, with the sample table and the
length that the invariants of the table state. -/
def Obligations.BuildRecordsTheSampleTable : Prop :=
  ∀ (values : List Word) (period : Nat) (c : CodecName) (param : Word) (s : State),
    s.cfg.legal → 1 ≤ period → paramDomain c param.toNat → (∀ v ∈ values, valueDomain c param.toNat v.toNat) →
    totalLength c param values ≤ s.cfg.capBits →
    ∃ t record, build values period c param s = (t, .ok record) ∧ t.mode = .frozen ∧ t.fault = none ∧
      record.count = values.length ∧ record.bits = totalLength c param values ∧ t.wlen = record.bits ∧
      record.samples.length = (values.length + period - 1) / period ∧
      ∀ j, j < record.samples.length →
        record.samples[j]? = some (totalLength c param (values.take (j * period)))

/-- 45_vector_sequences.md section 4 (1): ITER after BUILD yields exactly the input, for every endianness, codec,
parameter, period and reader context. -/
def Obligations.IterateAfterBuildYieldsTheInput : Prop :=
  ∀ (values : List Word) (period : Nat) (c : CodecName) (param : Word) (rid : BitVec 4) (s : State),
    s.cfg.legal → legalReader s.cfg.nReaders rid → 1 ≤ period → paramDomain c param.toNat →
    (∀ v ∈ values, valueDomain c param.toNat v.toNat) → totalLength c param values ≤ s.cfg.capBits →
    ∃ t record, build values period c param s = (t, .ok record) ∧ (intoVec rid record t).2 = some values

/-- 45_vector_sequences.md section 4 (2) and (3): GET after BUILD gives the element, and none out of range, where it
issues no command. -/
def Obligations.GetAfterBuildGivesTheElement : Prop :=
  ∀ (values : List Word) (period : Nat) (c : CodecName) (param : Word) (rid : BitVec 4) (s : State),
    s.cfg.legal → legalReader s.cfg.nReaders rid → 1 ≤ period → paramDomain c param.toNat →
    (∀ v ∈ values, valueDomain c param.toNat v.toNat) → totalLength c param values ≤ s.cfg.capBits →
    ∃ t record, build values period c param s = (t, .ok record) ∧
      ∀ i, (get rid record i t).2 = values[i]? ∧ (values.length ≤ i → (get rid record i t).1 = t)

/-- 45_vector_sequences.md section 3 (SAVE and RESTORE) and section 4 (7): a frozen stream saved with its host record and
restored on the same instance (so with the same E and enough words) is the same stream, bit for bit, padding included, and
gives the record back; every GET and every ITER run to its end then answers as before SAVE. -/
def Obligations.RestoreAfterSaveGivesTheSameStream : Prop :=
  ∀ (v : VectorRecord) (s : State), s.Inv → s.fault = none → s.mode = .frozen → v.bits = s.wlen →
    ∃ t saved u, save v s = (t, some saved) ∧ t.sameUnit s ∧ saved.endian = s.cfg.endian ∧ saved.record = v ∧
      restore saved t = (u, some v) ∧
      u.cfg = s.cfg ∧ u.wlen = s.wlen ∧ u.mode = .frozen ∧ u.fault = none ∧
      (∀ p, p < 64 * ((s.wlen + 63) / 64) → u.bit p = s.bit p) ∧
      ∀ rid : BitVec 4, (∀ i, (get rid v i u).2 = (get rid v i s).2) ∧ (intoVec rid v u).2 = (intoVec rid v s).2
end

