-- ==== Sys2Proof/Laws/Bits.lean ====
section
/-! SUPPORT. The small laws of bit strings and token lists (00_scope.md R13; 41_codec_contract.md R141, R142). -/

namespace Sys2Proof.Laws

open Sys2Proof.Machine

@[simp] theorem tokenString_length (e : Endian) (v n : Nat) : (tokenString e v n).length = n := by
  simp [tokenString]

@[simp] theorem unaryString_length (q : Nat) : (unaryString q).length = q + 1 := by
  simp [unaryString]

theorem tokenString_be (v n j : Nat) (h : j < (tokenString .be v n).length) :
    (tokenString .be v n)[j] = v.testBit (n - 1 - j) := by
  simp [tokenString]

theorem tokenString_le (v n j : Nat) (h : j < (tokenString .le v n).length) :
    (tokenString .le v n)[j] = v.testBit j := by
  simp [tokenString]

/-- The bits of a unary run: zeros, then a one in the last place. -/
theorem unaryString_getElem (q j : Nat) (h : j < (unaryString q).length) : (unaryString q)[j] = decide (j = q) := by
  have hj : j < q + 1 := by simpa using h
  simp only [unaryString, List.getElem_append, List.length_replicate]
  split
  · simp; omega
  · have : j = q := by omega
    simp [this]

/-- Only the low n bits of a value enter its n-bit token (20_memory.md R55). -/
theorem tokenString_low (e : Endian) (v n : Nat) : tokenString e (low v n) n = tokenString e v n := by
  unfold tokenString low
  refine List.map_congr_left fun j hj => ?_
  have hj : j < n := List.mem_range.mp hj
  cases e
  · simp only [Nat.testBit_mod_two_pow]
    have : n - 1 - j < n := by omega
    simp [this]
  · simp only [Nat.testBit_mod_two_pow]
    simp [hj]

@[simp] theorem token_string_length (e : Endian) (t : Token) : (t.string e).length = t.length := by
  cases t <;> simp [Token.string, Token.length]

@[simp] theorem codeString_nil (e : Endian) : codeString e [] = [] := rfl

@[simp] theorem codeString_cons (e : Endian) (t : Token) (ts : List Token) :
    codeString e (t :: ts) = t.string e ++ codeString e ts := by
  simp [codeString]

@[simp] theorem codeString_append (e : Endian) (ts us : List Token) :
    codeString e (ts ++ us) = codeString e ts ++ codeString e us := by
  simp [codeString]

@[simp] theorem codeLength_nil : codeLength [] = 0 := rfl

@[simp] theorem codeLength_cons (t : Token) (ts : List Token) : codeLength (t :: ts) = t.length + codeLength ts := by
  simp [codeLength]

@[simp] theorem codeLength_append (ts us : List Token) : codeLength (ts ++ us) = codeLength ts + codeLength us := by
  simp [codeLength]

/-- A codeword string has the length of its tokens, for both values of E (41_codec_contract.md R141). -/
@[simp] theorem codeString_length (e : Endian) (ts : List Token) : (codeString e ts).length = codeLength ts := by
  induction ts with
  | nil => rfl
  | cons t ts ih => simp [ih]

/-- flog2 brackets its argument (00_scope.md R11). -/
theorem flog2_spec {n : Nat} (h : 1 ≤ n) : 2 ^ flog2 n ≤ n ∧ n < 2 ^ (flog2 n + 1) :=
  ⟨Nat.log2_self_le (by omega), Nat.lt_log2_self⟩

/-- flog2 is the only exponent that brackets its argument (00_scope.md R11). -/
theorem flog2_unique {n h : Nat} (hlo : 2 ^ h ≤ n) (hhi : n < 2 ^ (h + 1)) : flog2 n = h :=
  (Nat.log2_eq_iff (by have := Nat.two_pow_pos h; omega)).mpr ⟨hlo, hhi⟩

/-- flog2 bounds from a bound on the argument. -/
theorem flog2_lt {n k : Nat} (h : 1 ≤ n) (hk : n < 2 ^ k) : flog2 n < k :=
  (Nat.pow_lt_pow_iff_right (by omega : 1 < 2)).mp (lt_of_le_of_lt (flog2_spec h).1 hk)

end Sys2Proof.Laws
end

