-- ==== Sys2Proof/Laws/Decode.lean ====
section
/-! SUPPORT. The fields of a command word (30_encoding.md R82). -/

namespace Sys2Proof.Laws

variable (op : BitVec 8) (codec : BitVec 4) (n : BitVec 7) (rid : BitVec 4)

/-- A command word as a number: each field at its place. -/
theorem commandWord_toNat :
    (commandWord op codec n rid).toNat = op.toNat + 2 ^ 8 * (codec.toNat + 2 ^ 4 * (n.toNat + 2 ^ 8 * rid.toNat)) := by
  have := op.isLt; have := codec.isLt; have := n.isLt; have := rid.isLt
  simp only [commandWord, BitVec.toNat_append]
  rw [← Nat.shiftLeft_add_eq_or_of_lt (by omega), ← Nat.shiftLeft_add_eq_or_of_lt (by omega),
    ← Nat.shiftLeft_add_eq_or_of_lt (by omega), ← Nat.shiftLeft_add_eq_or_of_lt (by simp),
    ← Nat.shiftLeft_add_eq_or_of_lt (by omega)]
  simp only [Nat.shiftLeft_eq, BitVec.toNat_ofNat]
  omega

/-- A field of a word as a number. -/
theorem extractLsb'_toNat (w : CommandWord) (start len : Nat) :
    (w.extractLsb' start len).toNat = w.toNat / 2 ^ start % 2 ^ len := by
  simp [BitVec.extractLsb'_toNat, Nat.shiftRight_eq_div_pow]

@[simp] theorem opField_commandWord : opField (commandWord op codec n rid) = op := by
  have := op.isLt; have := codec.isLt; have := n.isLt; have := rid.isLt
  apply BitVec.eq_of_toNat_eq
  rw [opField, extractLsb'_toNat, commandWord_toNat]; omega

@[simp] theorem codecField_commandWord : codecField (commandWord op codec n rid) = codec := by
  have := op.isLt; have := codec.isLt; have := n.isLt; have := rid.isLt
  apply BitVec.eq_of_toNat_eq
  rw [codecField, extractLsb'_toNat, commandWord_toNat]; omega

@[simp] theorem nField_commandWord : nField (commandWord op codec n rid) = n := by
  have := op.isLt; have := codec.isLt; have := n.isLt; have := rid.isLt
  apply BitVec.eq_of_toNat_eq
  rw [nField, extractLsb'_toNat, commandWord_toNat]; omega

@[simp] theorem ridField_commandWord : ridField (commandWord op codec n rid) = rid := by
  have := op.isLt; have := codec.isLt; have := n.isLt; have := rid.isLt
  apply BitVec.eq_of_toNat_eq
  rw [ridField, extractLsb'_toNat, commandWord_toNat]; omega

@[simp] theorem reservedBit_commandWord : reservedBit (commandWord op codec n rid) = 0 := by
  have := op.isLt; have := codec.isLt; have := n.isLt; have := rid.isLt
  apply BitVec.eq_of_toNat_eq
  rw [reservedBit, extractLsb'_toNat, commandWord_toNat]; simp; omega

@[simp] theorem topField_commandWord : topField (commandWord op codec n rid) = 0 := by
  have := op.isLt; have := codec.isLt; have := n.isLt; have := rid.isLt
  apply BitVec.eq_of_toNat_eq
  rw [topField, extractLsb'_toNat, commandWord_toNat]; simp; omega

/-- A word whose reserved bits are zero is the word of its fields. -/
theorem commandWord_fields (w : CommandWord) (hr : reservedBit w = 0) (ht : topField w = 0) :
    commandWord (opField w) (codecField w) (nField w) (ridField w) = w := by
  have hw := w.isLt
  have hr : w.toNat / 2 ^ 19 % 2 ^ 1 = 0 := by rw [← extractLsb'_toNat]; exact congrArg BitVec.toNat hr
  have ht : w.toNat / 2 ^ 24 % 2 ^ 8 = 0 := by rw [← extractLsb'_toNat]; exact congrArg BitVec.toNat ht
  apply BitVec.eq_of_toNat_eq
  rw [commandWord_toNat]
  simp only [opField, codecField, nField, ridField, extractLsb'_toNat]
  omega

end Sys2Proof.Laws
end

