-- ==== Sys2Proof/Laws/Memory.lean ====
section
/-! SUPPORT. The laws of the buffer: what a read after a write gives, that every memory operation keeps the canonical
form, and where entries can stand. -/

namespace Sys2Proof.Laws

open Sys2Proof.Machine

/-! ### Bytes -/

/-- A canonical buffer reads the unlisted value below its first address. -/
theorem readByte_of_lt (m : Memory) (a : Nat) (h : ∀ c ∈ m, a < c.1) : m.readByte a = unlistedByte := by
  induction m with
  | nil => rfl
  | cons c rest ih =>
    have hne : c.1 ≠ a := by have := h c (by simp); omega
    simp only [Memory.readByte, if_neg hne]
    exact ih fun d hd => h d (by simp [hd])

/-- Read after write of one byte. -/
theorem readByte_writeByte (m : Memory) (hm : m.wf) (a b : Nat) (v : Byte) :
    (m.writeByte a v).readByte b = if b = a then v else m.readByte b := by
  induction m with
  | nil =>
    by_cases hv : v = unlistedByte
    · simp [Memory.writeByte, Memory.readByte, hv]
    · by_cases hb : b = a
      · simp [Memory.writeByte, Memory.readByte, hv, hb]
      · simp [Memory.writeByte, Memory.readByte, hv, hb, Ne.symm hb]
  | cons c rest ih =>
    obtain ⟨hs, hz⟩ := hm
    have hrest : Memory.wf rest := ⟨(List.pairwise_cons.mp hs).2, fun d hd => hz d (by simp [hd])⟩
    have hlow : ∀ d ∈ rest, c.1 < d.1 := (List.pairwise_cons.mp hs).1
    have ih := ih hrest
    obtain ⟨k, w⟩ := c
    simp only [Memory.writeByte]
    by_cases hka : k < a
    · simp only [if_pos hka, Memory.readByte]
      by_cases hkb : k = b
      · have : b ≠ a := by omega
        simp [hkb, this]
      · simp [hkb, ih]
    · by_cases hkeq : k = a
      · subst hkeq
        simp only [lt_irrefl, if_false, if_true]
        by_cases hv : v = unlistedByte
        · simp only [if_pos hv, Memory.readByte]
          by_cases hb : b = k
          · subst hb
            simp only [if_true]
            rw [readByte_of_lt rest b hlow, hv]
          · simp [hb, Ne.symm hb]
        · simp only [if_neg hv, Memory.readByte]
          by_cases hb : b = k
          · simp [hb]
          · simp [hb, Ne.symm hb]
      · simp only [if_neg hka, if_neg hkeq]
        have hak : a < k := by omega
        by_cases hv : v = unlistedByte
        · simp only [if_pos hv]
          by_cases hb : b = a
          · subst hb
            simp only [if_true, hv]
            refine readByte_of_lt ((k, w) :: rest) b ?_
            intro d hd
            rcases List.mem_cons.mp hd with rfl | hd
            · exact hak
            · have := hlow d hd
              simp only at this
              omega
          · simp [hb]
        · simp only [if_neg hv]
          by_cases hb : b = a
          · simp [Memory.readByte, hb]
          · have : ¬ a = b := fun e => hb e.symm
            simp only [Memory.readByte, if_neg this, if_neg hb]

/-- Where the entries of a buffer after a write stand. -/
theorem mem_writeByte (m : Memory) (a : Nat) (v : Byte) (c : Host.Cell) (h : c ∈ m.writeByte a v) :
    c ∈ m ∨ (c = (a, v) ∧ v ≠ unlistedByte) := by
  induction m with
  | nil =>
    by_cases hv : v = unlistedByte <;> simp [Memory.writeByte, hv] at h
    exact Or.inr ⟨h, hv⟩
  | cons d rest ih =>
    obtain ⟨k, w⟩ := d
    simp only [Memory.writeByte] at h
    split at h
    · rcases List.mem_cons.mp h with rfl | h
      · simp
      · rcases ih h with h | h
        · exact Or.inl (by simp [h])
        · exact Or.inr h
    · split at h
      · split at h
        · exact Or.inl (by simp [h])
        · rename_i hv
          rcases List.mem_cons.mp h with rfl | h
          · exact Or.inr ⟨rfl, hv⟩
          · exact Or.inl (by simp [h])
      · split at h
        · exact Or.inl h
        · rename_i hv
          rcases List.mem_cons.mp h with rfl | h
          · exact Or.inr ⟨rfl, hv⟩
          · exact Or.inl h

/-- A byte write keeps the canonical form. -/
theorem writeByte_wf (m : Memory) (hm : m.wf) (a : Nat) (v : Byte) : (m.writeByte a v).wf := by
  induction m with
  | nil =>
    by_cases hv : v = unlistedByte <;> simp [Memory.writeByte, Memory.wf, hv]
  | cons c rest ih =>
    obtain ⟨hs, hz⟩ := hm
    have hrest : Memory.wf rest := ⟨(List.pairwise_cons.mp hs).2, fun d hd => hz d (by simp [hd])⟩
    have hlow : ∀ d ∈ rest, c.1 < d.1 := (List.pairwise_cons.mp hs).1
    have hc := hz c (by simp)
    obtain ⟨hs', hz'⟩ := ih hrest
    obtain ⟨k, w⟩ := c
    simp only [Memory.writeByte]
    split
    · rename_i hka
      refine ⟨List.pairwise_cons.mpr ⟨?_, hs'⟩, ?_⟩
      · intro d hd
        rcases mem_writeByte rest a v d hd with hd | ⟨rfl, _⟩
        · exact hlow d hd
        · exact hka
      · intro d hd
        rcases List.mem_cons.mp hd with rfl | hd
        · exact hc
        · exact hz' d hd
    · split
      · rename_i hka hkeq
        split
        · exact hrest
        · rename_i hv
          refine ⟨List.pairwise_cons.mpr ⟨?_, hrest.1⟩, ?_⟩
          · intro d hd
            have := hlow d hd
            simp only at this ⊢
            omega
          · intro d hd
            rcases List.mem_cons.mp hd with rfl | hd
            · exact hv
            · exact hrest.2 d hd
      · rename_i hka hkeq
        split
        · exact ⟨hs, hz⟩
        · rename_i hv
          refine ⟨List.pairwise_cons.mpr ⟨?_, hs⟩, ?_⟩
          · intro d hd
            rcases List.mem_cons.mp hd with rfl | hd
            · simp only; omega
            · have := hlow d hd
              simp only at this ⊢
              omega
          · intro d hd
            rcases List.mem_cons.mp hd with rfl | hd
            · exact hv
            · exact hz d hd

/-! ### Bits -/

theorem bitOfByte_lt (e : Endian) (p : Nat) : bitOfByte e p < 8 := by
  cases e <;> simp only [bitOfByte] <;> omega

/-- Two positions of one byte are the same position when they are the same bit of it. -/
theorem bitOfByte_inj (e : Endian) {p q : Nat} (hd : p / 8 = q / 8) (hb : bitOfByte e p = bitOfByte e q) : p = q := by
  cases e <;> simp only [bitOfByte] at hb <;> omega

theorem setByteBit_getLsbD (b : Byte) (k i : Nat) (v : Bool) (hk : k < 8) :
    (setByteBit b k v).getLsbD i = if i = k then v else b.getLsbD i := by
  by_cases hi : i < 8
  · by_cases h : i = k
    · subst h
      cases v <;> simp [setByteBit, hi]
    · cases v <;> simp [setByteBit, hi, h]
  · have h : i ≠ k := by omega
    simp [BitVec.getLsbD_of_ge, h, Nat.le_of_not_lt hi]

/-- Read after write of one bit. -/
theorem bit_setBit (m : Memory) (hm : m.wf) (e : Endian) (p q : Nat) (v : Bool) :
    (m.setBit e p v).bit e q = if q = p then v else m.bit e q := by
  unfold Memory.bit Memory.setBit
  rw [readByte_writeByte m hm]
  by_cases hd : q / 8 = p / 8
  · rw [if_pos hd, setByteBit_getLsbD _ _ _ _ (bitOfByte_lt e p)]
    by_cases hq : q = p
    · simp [hq]
    · have : bitOfByte e q ≠ bitOfByte e p := fun hb => hq (bitOfByte_inj e hd hb)
      simp [this, hq, hd]
  · have hq : q ≠ p := fun h => hd (by rw [h])
    simp [hd, hq]

theorem setBit_wf (m : Memory) (hm : m.wf) (e : Endian) (p : Nat) (v : Bool) : (m.setBit e p v).wf :=
  writeByte_wf m hm _ _

/-! ### Bit strings -/

theorem writeString_wf (e : Endian) (bits : List Bool) (m : Memory) (hm : m.wf) (p : Nat) :
    (m.writeString e p bits).wf := by
  induction bits generalizing m p with
  | nil => exact hm
  | cons v rest ih => exact ih _ (setBit_wf m hm e p v) _

/-- Positions outside a written bit string read as before. -/
theorem bit_writeString_outside (e : Endian) (bits : List Bool) (m : Memory) (hm : m.wf) (p q : Nat)
    (h : q < p ∨ p + bits.length ≤ q) : (m.writeString e p bits).bit e q = m.bit e q := by
  induction bits generalizing m p with
  | nil => rfl
  | cons v rest ih =>
    simp only [List.length_cons] at h
    have hne : q ≠ p := by omega
    simp only [Memory.writeString]
    rw [ih _ (setBit_wf m hm e p v) _ (by omega), bit_setBit m hm, if_neg hne]

/-- Positions inside a written bit string read the bit written. -/
theorem bit_writeString_inside (e : Endian) (bits : List Bool) (m : Memory) (hm : m.wf) (p j : Nat)
    (h : j < bits.length) : (m.writeString e p bits).bit e (p + j) = bits[j] := by
  induction bits generalizing m p j with
  | nil => simp at h
  | cons v rest ih =>
    have hm' := setBit_wf m hm e p v
    simp only [Memory.writeString]
    cases j with
    | zero =>
      rw [bit_writeString_outside e rest _ hm' (p + 1) (p + 0) (by omega), bit_setBit m hm]
      simp
    | succ j =>
      have : p + (j + 1) = p + 1 + j := by omega
      rw [this, ih _ hm' (p + 1) j (by simpa using h)]
      simp

theorem memWrite_wf (m : Memory) (hm : m.wf) (e : Endian) (p n v : Nat) : (m.memWrite e p n v).wf :=
  writeString_wf e _ m hm p

/-! ### Where entries stand -/

/-- Every entry of the buffer lies below byte address b. -/
abbrev Below (m : Memory) (b : Nat) : Prop := ∀ c ∈ m, c.1 < b

theorem writeByte_below (m : Memory) (b a : Nat) (v : Byte) (hm : Below m b) (ha : a < b) :
    Below (m.writeByte a v) b := by
  intro c hc
  rcases mem_writeByte m a v c hc with hc | ⟨rfl, _⟩
  · exact hm c hc
  · exact ha

theorem writeString_below (e : Endian) (bits : List Bool) (m : Memory) (b p : Nat) (hm : Below m b)
    (hp : p + bits.length ≤ 8 * b) : Below (m.writeString e p bits) b := by
  induction bits generalizing m p with
  | nil => exact hm
  | cons v rest ih =>
    simp only [List.length_cons] at hp
    refine ih _ _ (writeByte_below m b _ _ hm ?_) (by omega)
    omega

end Sys2Proof.Laws
end

