-- ==== Sys2Proof/Laws/State.lean ====
section
/-! SUPPORT. One lemma per field per update of State, true by rfl, so that no later proof unfolds a record update. -/

namespace Sys2Proof.Laws

open Sys2Proof.Machine

variable (s : State)

/-! ### State.append -/

@[simp] theorem append_cfg (bits : List Bool) : (s.append bits).cfg = s.cfg := rfl
@[simp] theorem append_buf (bits : List Bool) : (s.append bits).buf = s.buf.writeString s.cfg.endian s.wlen bits := rfl
@[simp] theorem append_wlen (bits : List Bool) : (s.append bits).wlen = s.wlen + bits.length := rfl
@[simp] theorem append_mode (bits : List Bool) : (s.append bits).mode = s.mode := rfl
@[simp] theorem append_fault (bits : List Bool) : (s.append bits).fault = s.fault := rfl
@[simp] theorem append_rpos (bits : List Bool) : (s.append bits).rpos = s.rpos := rfl
@[simp] theorem append_inputs (bits : List Bool) : (s.append bits).inputs = s.inputs := rfl
@[simp] theorem append_opA (bits : List Bool) : (s.append bits).opA = s.opA := rfl
@[simp] theorem append_opB (bits : List Bool) : (s.append bits).opB = s.opB := rfl
@[simp] theorem append_reply (bits : List Bool) : (s.append bits).reply = s.reply := rfl

/-! ### State.appendToken -/

@[simp] theorem appendToken_cfg (v n : Nat) : (s.appendToken v n).cfg = s.cfg := rfl
@[simp] theorem appendToken_buf (v n : Nat) : (s.appendToken v n).buf = s.buf.memWrite s.cfg.endian s.wlen n v := rfl
@[simp] theorem appendToken_wlen (v n : Nat) : (s.appendToken v n).wlen = s.wlen + n := rfl
@[simp] theorem appendToken_mode (v n : Nat) : (s.appendToken v n).mode = s.mode := rfl
@[simp] theorem appendToken_fault (v n : Nat) : (s.appendToken v n).fault = s.fault := rfl
@[simp] theorem appendToken_rpos (v n : Nat) : (s.appendToken v n).rpos = s.rpos := rfl
@[simp] theorem appendToken_inputs (v n : Nat) : (s.appendToken v n).inputs = s.inputs := rfl
@[simp] theorem appendToken_opA (v n : Nat) : (s.appendToken v n).opA = s.opA := rfl
@[simp] theorem appendToken_opB (v n : Nat) : (s.appendToken v n).opB = s.opB := rfl
@[simp] theorem appendToken_reply (v n : Nat) : (s.appendToken v n).reply = s.reply := rfl

/-! ### State.pad -/

@[simp] theorem pad_cfg : s.pad.cfg = s.cfg := rfl
@[simp] theorem pad_buf : s.pad.buf = s.buf.writeString s.cfg.endian s.wlen (List.replicate (64 * wordsFor s.wlen - s.wlen) false) := rfl
@[simp] theorem pad_wlen : s.pad.wlen = s.wlen := rfl
@[simp] theorem pad_mode : s.pad.mode = s.mode := rfl
@[simp] theorem pad_fault : s.pad.fault = s.fault := rfl
@[simp] theorem pad_rpos : s.pad.rpos = s.rpos := rfl
@[simp] theorem pad_inputs : s.pad.inputs = s.inputs := rfl
@[simp] theorem pad_opA : s.pad.opA = s.opA := rfl
@[simp] theorem pad_opB : s.pad.opB = s.opB := rfl
@[simp] theorem pad_reply : s.pad.reply = s.reply := rfl

/-! ### State.setCursor -/

@[simp] theorem setCursor_cfg (rid : BitVec 4) (p : Word) : (s.setCursor rid p).cfg = s.cfg := rfl
@[simp] theorem setCursor_buf (rid : BitVec 4) (p : Word) : (s.setCursor rid p).buf = s.buf := rfl
@[simp] theorem setCursor_wlen (rid : BitVec 4) (p : Word) : (s.setCursor rid p).wlen = s.wlen := rfl
@[simp] theorem setCursor_mode (rid : BitVec 4) (p : Word) : (s.setCursor rid p).mode = s.mode := rfl
@[simp] theorem setCursor_fault (rid : BitVec 4) (p : Word) : (s.setCursor rid p).fault = s.fault := rfl
@[simp] theorem setCursor_rpos (rid : BitVec 4) (p : Word) : (s.setCursor rid p).rpos = s.rpos.set rid.toNat p rid.isLt := rfl
@[simp] theorem setCursor_inputs (rid : BitVec 4) (p : Word) : (s.setCursor rid p).inputs = s.inputs := rfl
@[simp] theorem setCursor_opA (rid : BitVec 4) (p : Word) : (s.setCursor rid p).opA = s.opA := rfl
@[simp] theorem setCursor_opB (rid : BitVec 4) (p : Word) : (s.setCursor rid p).opB = s.opB := rfl
@[simp] theorem setCursor_reply (rid : BitVec 4) (p : Word) : (s.setCursor rid p).reply = s.reply := rfl

/-! ### State.resetUnit -/

@[simp] theorem resetUnit_cfg : s.resetUnit.cfg = s.cfg := rfl
@[simp] theorem resetUnit_buf : s.resetUnit.buf = [] := rfl
@[simp] theorem resetUnit_wlen : s.resetUnit.wlen = 0 := rfl
@[simp] theorem resetUnit_mode : s.resetUnit.mode = .building := rfl
@[simp] theorem resetUnit_fault : s.resetUnit.fault = none := rfl
@[simp] theorem resetUnit_rpos : s.resetUnit.rpos = Vector.replicate 16 0 := rfl
@[simp] theorem resetUnit_inputs : s.resetUnit.inputs = s.inputs := rfl
@[simp] theorem resetUnit_opA : s.resetUnit.opA = s.opA := rfl
@[simp] theorem resetUnit_opB : s.resetUnit.opB = s.opB := rfl
@[simp] theorem resetUnit_reply : s.resetUnit.reply = s.reply := rfl

/-! ### State.accept -/

@[simp] theorem accept_cfg (a b : Word) (rest : List HostEvent) : (s.accept a b rest).cfg = s.cfg := rfl
@[simp] theorem accept_buf (a b : Word) (rest : List HostEvent) : (s.accept a b rest).buf = s.buf := rfl
@[simp] theorem accept_wlen (a b : Word) (rest : List HostEvent) : (s.accept a b rest).wlen = s.wlen := rfl
@[simp] theorem accept_mode (a b : Word) (rest : List HostEvent) : (s.accept a b rest).mode = s.mode := rfl
@[simp] theorem accept_fault (a b : Word) (rest : List HostEvent) : (s.accept a b rest).fault = s.fault := rfl
@[simp] theorem accept_rpos (a b : Word) (rest : List HostEvent) : (s.accept a b rest).rpos = s.rpos := rfl
@[simp] theorem accept_inputs (a b : Word) (rest : List HostEvent) : (s.accept a b rest).inputs = rest := rfl
@[simp] theorem accept_opA (a b : Word) (rest : List HostEvent) : (s.accept a b rest).opA = a := rfl
@[simp] theorem accept_opB (a b : Word) (rest : List HostEvent) : (s.accept a b rest).opB = b := rfl
@[simp] theorem accept_reply (a b : Word) (rest : List HostEvent) : (s.accept a b rest).reply = s.reply := rfl

/-! ### State.hardwareReset -/

@[simp] theorem hardwareReset_cfg (rest : List HostEvent) : (s.hardwareReset rest).cfg = s.cfg := rfl
@[simp] theorem hardwareReset_buf (rest : List HostEvent) : (s.hardwareReset rest).buf = [] := rfl
@[simp] theorem hardwareReset_wlen (rest : List HostEvent) : (s.hardwareReset rest).wlen = 0 := rfl
@[simp] theorem hardwareReset_mode (rest : List HostEvent) : (s.hardwareReset rest).mode = .building := rfl
@[simp] theorem hardwareReset_fault (rest : List HostEvent) : (s.hardwareReset rest).fault = none := rfl
@[simp] theorem hardwareReset_rpos (rest : List HostEvent) : (s.hardwareReset rest).rpos = Vector.replicate 16 0 := rfl
@[simp] theorem hardwareReset_inputs (rest : List HostEvent) : (s.hardwareReset rest).inputs = rest := rfl
@[simp] theorem hardwareReset_opA (rest : List HostEvent) : (s.hardwareReset rest).opA = 0 := rfl
@[simp] theorem hardwareReset_opB (rest : List HostEvent) : (s.hardwareReset rest).opB = 0 := rfl
@[simp] theorem hardwareReset_reply (rest : List HostEvent) : (s.hardwareReset rest).reply = none := rfl

/-! ### State.withCommand -/

@[simp] theorem withCommand_cfg (w : CommandWord) : (s.withCommand w).cfg = s.cfg := rfl
@[simp] theorem withCommand_buf (w : CommandWord) : (s.withCommand w).buf = s.buf := rfl
@[simp] theorem withCommand_wlen (w : CommandWord) : (s.withCommand w).wlen = s.wlen := rfl
@[simp] theorem withCommand_mode (w : CommandWord) : (s.withCommand w).mode = s.mode := rfl
@[simp] theorem withCommand_fault (w : CommandWord) : (s.withCommand w).fault = s.fault := rfl
@[simp] theorem withCommand_rpos (w : CommandWord) : (s.withCommand w).rpos = s.rpos := rfl
@[simp] theorem withCommand_inputs (w : CommandWord) : (s.withCommand w).inputs = .command w s.opA s.opB :: s.inputs := rfl
@[simp] theorem withCommand_opA (w : CommandWord) : (s.withCommand w).opA = s.opA := rfl
@[simp] theorem withCommand_opB (w : CommandWord) : (s.withCommand w).opB = s.opB := rfl
@[simp] theorem withCommand_reply (w : CommandWord) : (s.withCommand w).reply = s.reply := rfl

/-! ### State.resetWith -/

@[simp] theorem resetWith_cfg (c : Config) : (State.resetWith c).cfg = c := rfl
@[simp] theorem resetWith_buf (c : Config) : (State.resetWith c).buf = [] := rfl
@[simp] theorem resetWith_wlen (c : Config) : (State.resetWith c).wlen = 0 := rfl
@[simp] theorem resetWith_mode (c : Config) : (State.resetWith c).mode = .building := rfl
@[simp] theorem resetWith_fault (c : Config) : (State.resetWith c).fault = none := rfl
@[simp] theorem resetWith_rpos (c : Config) : (State.resetWith c).rpos = Vector.replicate 16 0 := rfl
@[simp] theorem resetWith_inputs (c : Config) : (State.resetWith c).inputs = [] := rfl
@[simp] theorem resetWith_opA (c : Config) : (State.resetWith c).opA = 0 := rfl
@[simp] theorem resetWith_opB (c : Config) : (State.resetWith c).opB = 0 := rfl
@[simp] theorem resetWith_reply (c : Config) : (State.resetWith c).reply = none := rfl

/-! ### Reading the stream depends on the buffer and the configuration only -/

@[simp] theorem setCursor_bit (rid : BitVec 4) (v : Word) (p : Nat) : (s.setCursor rid v).bit p = s.bit p := rfl
@[simp] theorem accept_bit (a b : Word) (rest : List HostEvent) (p : Nat) : (s.accept a b rest).bit p = s.bit p := rfl
@[simp] theorem accept_cursor (a b : Word) (rest : List HostEvent) (r : BitVec 4) :
    (s.accept a b rest).cursor r = s.cursor r := rfl
@[simp] theorem append_cursor (bits : List Bool) (r : BitVec 4) : (s.append bits).cursor r = s.cursor r := rfl
@[simp] theorem appendToken_cursor (v n : Nat) (r : BitVec 4) : (s.appendToken v n).cursor r = s.cursor r := rfl
@[simp] theorem pad_cursor (r : BitVec 4) : s.pad.cursor r = s.cursor r := rfl

/-! ### The read cursors -/

@[simp] theorem cursor_setCursor_self (rid : BitVec 4) (v : Word) : (s.setCursor rid v).cursor rid = v := by
  simp [State.cursor]

theorem cursor_setCursor_of_ne {rid r : BitVec 4} (v : Word) (h : r ≠ rid) : (s.setCursor rid v).cursor r = s.cursor r := by
  have hne : rid.toNat ≠ r.toNat := fun e => h (BitVec.eq_of_toNat_eq e.symm)
  simp [State.cursor, Vector.getElem_set_ne, hne]

/-- After reset every cursor is 0. -/
theorem replicate_cursor {t : State} (h : t.rpos = Vector.replicate 16 0) (r : BitVec 4) : t.cursor r = 0 := by
  simp [State.cursor, h]

@[simp] theorem resetUnit_cursor (r : BitVec 4) : s.resetUnit.cursor r = 0 := replicate_cursor rfl r
@[simp] theorem hardwareReset_cursor (rest : List HostEvent) (r : BitVec 4) : (s.hardwareReset rest).cursor r = 0 :=
  replicate_cursor rfl r

end Sys2Proof.Laws
end

