-- ==== Sys2Proof/Laws/Stream.lean ====
section
/-! SUPPORT. What the shared stream operations do: what appending a bit string or a token list leaves, and what the two
primitive reads give where a bit string stands (20_memory.md R55, R56; 40_bitio.md R110 to R114). -/

namespace Sys2Proof.Laws

open Sys2Proof.Machine

variable {s : State}

/-! ### Appending -/

/-- Appending a bit string does exactly that (20_memory.md R72 (1)). -/
theorem append_appended (hs : s.buf.wf) (bits : List Bool) : s.Appended (s.append bits) bits where
  written j h := bit_writeString_inside _ bits _ hs _ j h
  outside p h := bit_writeString_outside _ bits _ hs _ p h
  cursor := rfl
  rest := ⟨rfl, rfl, rfl⟩
  port := ⟨rfl, rfl, rfl, rfl⟩

/-- Appending a token is appending its bit string. -/
theorem appendToken_eq_append (s : State) (v n : Nat) : s.appendToken v n = s.append (tokenString s.cfg.endian v n) := by
  simp [State.appendToken, State.append, Memory.memWrite, tokenString_low]

theorem layToken_eq_append (s : State) (t : Token) : s.layToken t = s.append (t.string s.cfg.endian) := by
  cases t with
  | unary q => rfl
  | binary v n => exact appendToken_eq_append s v n

theorem writeString_append (e : Endian) (xs ys : List Bool) (m : Memory) (p : Nat) :
    m.writeString e p (xs ++ ys) = (m.writeString e p xs).writeString e (p + xs.length) ys := by
  induction xs generalizing m p with
  | nil => rfl
  | cons v rest ih =>
    simp only [List.cons_append, Memory.writeString, ih, List.length_cons]
    congr 1
    omega

theorem append_append (s : State) (xs ys : List Bool) : (s.append xs).append ys = s.append (xs ++ ys) := by
  simp [State.append, writeString_append, Nat.add_assoc]

@[simp] theorem append_nil (s : State) : s.append [] = s := rfl

/-- Laying the tokens of a codeword in order is appending the codeword's bit string (41_codec_contract.md R142, R143). -/
theorem layTokens_eq_append (s : State) (ts : List Token) : s.layTokens ts = s.append (codeString s.cfg.endian ts) := by
  induction ts generalizing s with
  | nil => rfl
  | cons t ts ih =>
    show (s.layToken t).layTokens ts = _
    rw [ih, layToken_eq_append, append_append, append_cfg, codeString_cons]

/-! ### Bit strings that stand in the stream -/

theorem holds_append (s : State) (p : Nat) (xs ys : List Bool) :
    s.holds p (xs ++ ys) ↔ s.holds p xs ∧ s.holds (p + xs.length) ys := by
  constructor
  · intro h
    refine ⟨fun j hj => ?_, fun j hj => ?_⟩
    · rw [h j (by simp; omega), List.getElem_append_left hj]
    · rw [Nat.add_assoc, h (xs.length + j) (by simp; omega), List.getElem_append_right (by omega)]
      simp
  · rintro ⟨hx, hy⟩ j hj
    by_cases hjx : j < xs.length
    · rw [hx j hjx, List.getElem_append_left hjx]
    · rw [List.getElem_append_right (by omega)]
      simp only [List.length_append] at hj
      have := hy (j - xs.length) (by omega)
      rw [← this]
      congr 1
      omega

/-! ### Reading -/

theorem memRead_lt (s : State) (p n : Nat) : s.memRead p n < 2 ^ n := by
  unfold State.memRead
  induction n with
  | zero => simp [Memory.memRead]
  | succ n ih =>
    have hb : ((s.buf.bit s.cfg.endian (p + n)).toNat) ≤ 1 := Bool.toNat_le _
    have h2 : 2 ^ (n + 1) = 2 * 2 ^ n := by rw [Nat.pow_succ]; omega
    simp only [Memory.memRead]
    split
    · omega
    · have : 2 ^ n * (s.buf.bit s.cfg.endian (p + n)).toNat ≤ 2 ^ n * 1 := Nat.mul_le_mul_left _ hb
      omega

/-- The bits of a token as read (20_memory.md R56). -/
theorem testBit_memRead_be (h : s.cfg.endian = .be) (p n j : Nat) (hj : j < n) :
    (s.memRead p n).testBit (n - 1 - j) = s.bit (p + j) := by
  unfold State.memRead State.bit
  induction n with
  | zero => omega
  | succ n ih =>
    rw [h] at ih ⊢
    simp only [Memory.memRead]
    by_cases hjn : j = n
    · subst hjn
      have : j + 1 - 1 - j = 0 := by omega
      rw [this]
      cases s.buf.bit .be (p + j) <;> simp [Nat.testBit_zero]
    · have : n + 1 - 1 - j = (n - 1 - j) + 1 := by omega
      rw [this, Nat.testBit_succ, ← ih (by omega)]
      congr 1
      have := Bool.toNat_le (s.buf.bit .be (p + n))
      omega

/-- The bits of a token as read (20_memory.md R56). -/
theorem testBit_memRead_le (h : s.cfg.endian = .le) (p n j : Nat) (hj : j < n) :
    (s.memRead p n).testBit j = s.bit (p + j) := by
  have hlt := memRead_lt s p
  unfold State.memRead State.bit at *
  induction n with
  | zero => omega
  | succ n ih =>
    rw [h] at ih hlt ⊢
    simp only [Memory.memRead]
    rw [Nat.add_comm, Nat.testBit_two_pow_mul_add _ (hlt n)]
    by_cases hjn : j = n
    · subst hjn
      cases s.buf.bit .le (p + j) <;> simp
    · have hjn' : j < n := by omega
      rw [if_pos hjn', ih hjn']

/-- Where the string of an n-bit token stands, the n bits read as its value (20_memory.md R53, R56). -/
theorem memRead_of_holds (p n v : Nat) (h : s.holds p (tokenString s.cfg.endian v n)) : s.memRead p n = low v n := by
  apply Nat.eq_of_testBit_eq
  intro i
  unfold low
  rw [Nat.testBit_mod_two_pow]
  by_cases hi : i < n
  · simp only [hi, decide_true, Bool.true_and]
    cases he : s.cfg.endian with
    | be =>
      rw [he] at h
      have hb := testBit_memRead_be he p n (n - 1 - i) (by omega)
      have hh := h (n - 1 - i) (by simp; omega)
      rw [tokenString_be] at hh
      have : n - 1 - (n - 1 - i) = i := by omega
      rw [this] at hb hh
      rw [hb, hh]
    | le =>
      rw [he] at h
      have hb := testBit_memRead_le he p n i hi
      have hh := h i (by simpa using hi)
      rw [tokenString_le] at hh
      rw [hb, hh]
  · simp only [hi, decide_false, Bool.false_and]
    exact Nat.testBit_lt_two_pow (lt_of_lt_of_le (memRead_lt s p n) (Nat.pow_le_pow_right (by omega) (by omega)))

/-- ReadBits(n) where the string of a token stands below WLEN (40_bitio.md R113). -/
theorem readBitsAt_of_holds (p n v : Nat) (hv : v < 2 ^ n) (hw : p + n ≤ s.wlen)
    (h : s.holds p (tokenString s.cfg.endian v n)) : readBitsAt s p n = .value v (p + n) := by
  rw [readBitsAt, if_pos hw, memRead_of_holds p n v h, low, Nat.mod_eq_of_lt hv]

/-- Everything ReadBits(n) can do (40_bitio.md R113). -/
theorem readBitsAt_cases (s : State) (p n : Nat) :
    (p + n ≤ s.wlen ∧ readBitsAt s p n = .value (s.memRead p n) (p + n)) ∨
    (s.wlen < p + n ∧ readBitsAt s p n = .fails .readPastEnd) := by
  by_cases h : p + n ≤ s.wlen
  · exact Or.inl ⟨h, if_pos h⟩
  · exact Or.inr ⟨by omega, if_neg h⟩

/-- What a search for the first 1 bit gives. -/
theorem unaryRun_eq_some (s : State) (fuel p q : Nat) :
    unaryRun s fuel p = some q ↔ q < fuel ∧ s.bit (p + q) = true ∧ ∀ j < q, s.bit (p + j) = false := by
  induction fuel generalizing p q with
  | zero => simp [unaryRun]
  | succ fuel ih =>
    simp only [unaryRun]
    by_cases hb : s.bit p = true
    · simp only [hb, if_true, Option.some.injEq]
      constructor
      · rintro rfl; exact ⟨by omega, by simpa using hb, by omega⟩
      · rintro ⟨_, _, h⟩
        by_contra hq
        have := h 0 (by omega)
        simp [hb] at this
    · simp only [hb, Bool.false_eq_true, if_false, Option.map_eq_some_iff, ih]
      constructor
      · rintro ⟨a, ⟨ha, hone, hz⟩, rfl⟩
        refine ⟨by omega, by rw [← hone]; congr 1; omega, fun j hj => ?_⟩
        cases j with
        | zero => simpa using hb
        | succ j => rw [← hz j (by omega)]; congr 1; omega
      · rintro ⟨hq, hone, hz⟩
        cases q with
        | zero => simp [hb] at hone
        | succ q =>
          refine ⟨q, ⟨by omega, by rw [← hone]; congr 1; omega, fun j hj => ?_⟩, rfl⟩
          rw [← hz (j + 1) (by omega)]; congr 1; omega

/-- A search finds nothing exactly when every position it looks at holds 0. -/
theorem unaryRun_eq_none (s : State) (fuel p : Nat) :
    unaryRun s fuel p = none ↔ ∀ j < fuel, s.bit (p + j) = false := by
  induction fuel generalizing p with
  | zero => simp [unaryRun]
  | succ fuel ih =>
    simp only [unaryRun]
    by_cases hb : s.bit p = true
    · simp only [hb, if_true, reduceCtorEq, false_iff]
      intro h
      have := h 0 (by omega)
      simp [hb] at this
    · simp only [hb, Bool.false_eq_true, if_false, Option.map_eq_none_iff, ih]
      constructor
      · intro h j hj
        cases j with
        | zero => simpa using hb
        | succ j => rw [← h j (by omega)]; congr 1; omega
      · intro h j hj
        rw [← h (j + 1) (by omega)]; congr 1; omega

/-- Everything ReadUnary can do (40_bitio.md R114). -/
theorem readUnaryAt_cases (s : State) (p : Nat) :
    (∃ q, p + q < s.wlen ∧ s.bit (p + q) = true ∧ (∀ j < q, s.bit (p + j) = false) ∧
      readUnaryAt s p = .value q (p + q + 1)) ∨
    ((∀ j, p + j < s.wlen → s.bit (p + j) = false) ∧ readUnaryAt s p = .fails .readPastEnd) := by
  cases h : unaryRun s (s.wlen - p) p with
  | some q =>
    obtain ⟨hq, hone, hz⟩ := (unaryRun_eq_some s _ _ _).mp h
    exact Or.inl ⟨q, by omega, hone, hz, by simp [readUnaryAt, h]⟩
  | none =>
    exact Or.inr ⟨fun j hj => (unaryRun_eq_none s _ _).mp h j (by omega), by simp [readUnaryAt, h]⟩

/-- ReadUnary where a run stands below WLEN (40_bitio.md R114). -/
theorem readUnaryAt_of_holds (p q : Nat) (hw : p + q < s.wlen) (h : s.holds p (unaryString q)) :
    readUnaryAt s p = .value q (p + q + 1) := by
  have : unaryRun s (s.wlen - p) p = some q := by
    refine (unaryRun_eq_some s _ _ _).mpr ⟨by omega, ?_, fun j hj => ?_⟩
    · rw [h q (by simp), unaryString_getElem]; simp
    · rw [h j (by simp; omega), unaryString_getElem]; simp; omega
  simp [readUnaryAt, this]

/-! ### When a read at a cursor answers what -/

/-- Two unary runs at one position are one run. -/
theorem runAt_unique {p q r : Nat} (hq : s.RunAt p q) (hr : s.RunAt p r) : q = r := by
  obtain ⟨_, zq, oq⟩ := hq
  obtain ⟨_, zr, or⟩ := hr
  rcases lt_trichotomy q r with h | h | h
  · simp [zr q h] at oq
  · exact h
  · simp [zq r h] at or

/-- ReadUnary answers the run that stands at the position, and stops behind it (40_bitio.md R114). -/
theorem readUnaryAt_eq_value {p q pos : Nat} : readUnaryAt s p = .value q pos ↔ s.RunAt p q ∧ pos = p + q + 1 := by
  rcases readUnaryAt_cases s p with ⟨r, hw, ho, hz, e⟩ | ⟨h, e⟩ <;> rw [e]
  · constructor
    · rintro ⟨⟩
      exact ⟨⟨hw, hz, ho⟩, rfl⟩
    · rintro ⟨hq, rfl⟩
      rw [runAt_unique hq ⟨hw, hz, ho⟩]
  · simp only [reduceCtorEq, false_iff, not_and]
    rintro ⟨hw, _, ho⟩
    simp [h q hw] at ho

/-- ReadUnary fails, with ReadPastEnd, when no 1 bit lies before WLEN (60_exceptions.md R274). -/
theorem readUnaryAt_eq_fails {p : Nat} {c : FaultCode} :
    readUnaryAt s p = .fails c ↔ s.NoOneFrom p ∧ c = .readPastEnd := by
  rcases readUnaryAt_cases s p with ⟨r, hw, ho, _, e⟩ | ⟨h, e⟩ <;> rw [e]
  · simp only [reduceCtorEq, false_iff, not_and]
    intro hn
    simp [hn (p + r) (by omega) hw] at ho
  · have hn : s.NoOneFrom p := fun q hq hw => by
      obtain ⟨j, rfl⟩ := Nat.exists_eq_add_of_le hq
      exact h j hw
    simp [hn, eq_comm]

/-- ReadBits(n) answers the n bits at the position when they end at or below WLEN (40_bitio.md R113). -/
theorem readBitsAt_eq_value {p n v pos : Nat} :
    readBitsAt s p n = .value v pos ↔ p + n ≤ s.wlen ∧ v = s.memRead p n ∧ pos = p + n := by
  rcases readBitsAt_cases s p n with ⟨h, e⟩ | ⟨h, e⟩ <;> rw [e]
  · simp [h, eq_comm]
  · simp [Nat.not_le.mpr h]

/-- ReadBits(n) fails, with ReadPastEnd, when they do not (60_exceptions.md R274). -/
theorem readBitsAt_eq_fails {p n : Nat} {c : FaultCode} :
    readBitsAt s p n = .fails c ↔ s.wlen < p + n ∧ c = .readPastEnd := by
  rcases readBitsAt_cases s p n with ⟨h, e⟩ | ⟨h, e⟩ <;> rw [e]
  · simp [Nat.not_lt.mpr h]
  · simp [h, eq_comm]

/-! ### The reads look at nothing at or above WLEN (20_memory.md R57) -/

theorem memRead_congr {s' : State} (he : s'.cfg.endian = s.cfg.endian) {p n : Nat}
    (hb : ∀ j, j < n → s'.bit (p + j) = s.bit (p + j)) : s'.memRead p n = s.memRead p n := by
  unfold State.memRead State.bit at *
  induction n with
  | zero => rfl
  | succ n ih =>
    have hn := hb n (by omega)
    have ih := ih fun j hj => hb j (by omega)
    rw [he] at ih hn ⊢
    cases h : s.cfg.endian <;> rw [h] at ih hn <;> simp only [Memory.memRead] <;> rw [ih, hn]

theorem readBitsAt_congr {s' : State} (he : s'.cfg.endian = s.cfg.endian) (hw : s'.wlen = s.wlen)
    (hb : ∀ p, p < s.wlen → s'.bit p = s.bit p) (p n : Nat) : readBitsAt s' p n = readBitsAt s p n := by
  unfold readBitsAt
  rw [hw]
  split
  · rw [memRead_congr he fun j hj => hb (p + j) (by omega)]
  · rfl

theorem readUnaryAt_congr {s' : State} (hw : s'.wlen = s.wlen) (hb : ∀ p, p < s.wlen → s'.bit p = s.bit p) (p : Nat) :
    readUnaryAt s' p = readUnaryAt s p := by
  rcases readUnaryAt_cases s p with ⟨q, hq, ho, hz, e⟩ | ⟨h, e⟩ <;> rw [e]
  · exact readUnaryAt_eq_value.mpr
      ⟨⟨by omega, fun j hj => (hb _ (by omega)).trans (hz j hj), (hb _ hq).trans ho⟩, rfl⟩
  · refine readUnaryAt_eq_fails.mpr ⟨fun q hq hq' => ?_, rfl⟩
    obtain ⟨j, rfl⟩ := Nat.exists_eq_add_of_le hq
    exact (hb _ (by omega)).trans (h j (by omega))

end Sys2Proof.Laws
end

