-- ==== Sys2Proof/Laws/Ops.lean ====
section
/-! SUPPORT. One lemma for each shared operation of the meanings, saying once everything it can do; proofs cite these
instead of unfolding the operation (60_exceptions.md R265, R266; 41_codec_contract.md R143, R144, R145). -/

namespace Sys2Proof.Laws

open Sys2Proof.Machine

variable {s t : State}

/-! ### How a command ends -/

theorem finish_next {r : Word} :
    finish s r = .next t ↔ t = { s with reply := some { status := 0, result := some r } } := by
  simp [finish, eq_comm]

theorem raise_next {c : FaultCode} :
    raise s c = .next t ↔ t = { s with fault := some c, reply := some { status := c.code, result := none } } := by
  simp [raise, eq_comm]

theorem blocked_next : blocked s = .next t ↔ t = { s with reply := some { status := 15, result := none } } := by
  simp [blocked, eq_comm]

/-- The code of a fault is 1 to 7: neither OK nor BLOCKED (60_exceptions.md R261). -/
theorem faultCode_range (c : FaultCode) : 1 ≤ c.code.toNat ∧ c.code.toNat ≤ 7 := by
  cases c <;> decide

theorem illegal_cases (s : State) :
    (s.fault.isSome = true ∧ illegal s = blocked s) ∨ (s.fault = none ∧ illegal s = raise s .illegalCommand) := by
  cases h : s.fault <;> simp [illegal, h]

/-! ### A reading command -/

theorem finishRead_cases (s : State) (rid : BitVec 4) (r : Parsed) :
    (∃ x pos, r = .value x pos ∧
      finishRead s rid r = finish (s.setCursor rid (BitVec.ofNat 64 pos)) (BitVec.ofNat 64 x)) ∨
    (∃ c, r = .fails c ∧ finishRead s rid r = raise s c) := by
  cases r with
  | value x pos => exact Or.inl ⟨x, pos, rfl, rfl⟩
  | fails c => exact Or.inr ⟨c, rfl, rfl⟩

theorem andThen_eq_value {r : Parsed} {k : Nat → Nat → Parsed} {x pos : Nat} :
    r.andThen k = .value x pos ↔ ∃ y p, r = .value y p ∧ k y p = .value x pos := by
  cases r <;> simp [Parsed.andThen]

theorem andThen_eq_fails {r : Parsed} {k : Nat → Nat → Parsed} {c : FaultCode} :
    r.andThen k = .fails c ↔ r = .fails c ∨ ∃ y p, r = .value y p ∧ k y p = .fails c := by
  cases r <;> simp [Parsed.andThen]

/-! ### The three codec operations -/

/-- Everything ENC.c can do (41_codec_contract.md R143). -/
theorem encodeWith_cases (c : Codec) (s : State) :
    (s.fault.isSome = true ∧ encodeWith c s = blocked s) ∨
    (s.fault = none ∧ s.mode = .frozen ∧ encodeWith c s = raise s .modeViolation) ∨
    (s.fault = none ∧ s.mode = .building ∧ c.paramOk s.b = false ∧ encodeWith c s = raise s .invalidParameter) ∨
    (s.fault = none ∧ s.mode = .building ∧ c.paramOk s.b = true ∧ c.valueOk s.b s.a = false ∧
      encodeWith c s = raise s .valueOutOfDomain) ∨
    (s.fault = none ∧ s.mode = .building ∧ c.paramOk s.b = true ∧ c.valueOk s.b s.a = true ∧
      s.cfg.capBits < s.wlen + c.len s.b s.a ∧ encodeWith c s = raise s .bufferOverflow) ∨
    (s.fault = none ∧ s.mode = .building ∧ c.paramOk s.b = true ∧ c.valueOk s.b s.a = true ∧
      s.wlen + c.len s.b s.a ≤ s.cfg.capBits ∧
      encodeWith c s = finish (s.append (codeString s.cfg.endian (c.code s.b s.a))) (BitVec.ofNat 64 (c.len s.b s.a))) := by
  unfold encodeWith
  rw [layTokens_eq_append]
  cases s.fault <;> cases s.mode <;> cases c.paramOk s.b <;> cases c.valueOk s.b s.a <;> simp
  exact (Nat.lt_or_ge s.cfg.capBits (s.wlen + c.len s.b s.a)).imp
    (fun h => ⟨h, fun h' => absurd h (by omega)⟩) (fun h => ⟨h, fun h' => absurd h' (by omega)⟩)

/-- Everything DEC.c@rid can do (41_codec_contract.md R144). -/
theorem decodeWith_cases (c : Codec) (rid : BitVec 4) (s : State) :
    (s.fault.isSome = true ∧ decodeWith c rid s = blocked s) ∨
    (s.fault = none ∧ ¬ legalReader s.cfg.nReaders rid ∧ decodeWith c rid s = raise s .illegalCommand) ∨
    (s.fault = none ∧ legalReader s.cfg.nReaders rid ∧ s.mode = .building ∧
      decodeWith c rid s = raise s .modeViolation) ∨
    (s.fault = none ∧ legalReader s.cfg.nReaders rid ∧ s.mode = .frozen ∧ c.paramOk s.b = false ∧
      decodeWith c rid s = raise s .invalidParameter) ∨
    (s.fault = none ∧ legalReader s.cfg.nReaders rid ∧ s.mode = .frozen ∧ c.paramOk s.b = true ∧
      decodeWith c rid s = finishRead s rid (c.parse s.b s (s.cursor rid).toNat)) := by
  unfold decodeWith illegal
  by_cases h : legalReader s.cfg.nReaders rid <;>
    cases s.fault <;> cases s.mode <;> cases c.paramOk s.b <;> simp [h]

/-- Everything LEN.c can do (41_codec_contract.md R145). -/
theorem lengthWith_cases (c : Codec) (s : State) :
    (s.fault.isSome = true ∧ lengthWith c s = blocked s) ∨
    (s.fault = none ∧ c.paramOk s.b = false ∧ lengthWith c s = raise s .invalidParameter) ∨
    (s.fault = none ∧ c.paramOk s.b = true ∧ c.valueOk s.b s.a = false ∧ lengthWith c s = raise s .valueOutOfDomain) ∨
    (s.fault = none ∧ c.paramOk s.b = true ∧ c.valueOk s.b s.a = true ∧
      lengthWith c s = finish s (BitVec.ofNat 64 (c.len s.b s.a))) := by
  unfold lengthWith
  cases s.fault <;> cases c.paramOk s.b <;> cases c.valueOk s.b s.a <;> simp

/-! ### The bit I/O commands -/

/-- Everything WRITE_BITS can do (40_bitio.md R110). -/
theorem execWriteBits_cases (n : BitVec 7) (s : State) :
    (s.fault.isSome = true ∧ execWriteBits n s = blocked s) ∨
    (s.fault = none ∧ ¬ legalCount n ∧ execWriteBits n s = raise s .illegalCommand) ∨
    (s.fault = none ∧ legalCount n ∧ s.mode = .frozen ∧ execWriteBits n s = raise s .modeViolation) ∨
    (s.fault = none ∧ legalCount n ∧ s.mode = .building ∧ s.cfg.capBits < s.wlen + n.toNat ∧
      execWriteBits n s = raise s .bufferOverflow) ∨
    (s.fault = none ∧ legalCount n ∧ s.mode = .building ∧ s.wlen + n.toNat ≤ s.cfg.capBits ∧
      execWriteBits n s = finish (s.append (tokenString s.cfg.endian s.a n.toNat)) (n.setWidth 64)) := by
  unfold execWriteBits illegal
  rw [appendToken_eq_append]
  by_cases hc : s.cfg.capBits < s.wlen + n.toNat
  · by_cases h : legalCount n <;> cases s.fault <;> cases s.mode <;> simp [h, hc]
  · have hle : s.wlen + n.toNat ≤ s.cfg.capBits := by omega
    by_cases h : legalCount n <;> cases s.fault <;> cases s.mode <;> simp [h, hc, hle]

/-- Everything WRITE_UNARY can do (40_bitio.md R111). -/
theorem execWriteUnary_cases (s : State) :
    (s.fault.isSome = true ∧ execWriteUnary s = blocked s) ∨
    (s.fault = none ∧ s.mode = .frozen ∧ execWriteUnary s = raise s .modeViolation) ∨
    (s.fault = none ∧ s.mode = .building ∧ s.cfg.capBits < s.wlen + s.a + 1 ∧
      execWriteUnary s = raise s .bufferOverflow) ∨
    (s.fault = none ∧ s.mode = .building ∧ s.wlen + s.a + 1 ≤ s.cfg.capBits ∧
      execWriteUnary s = finish (s.append (unaryString s.a)) (BitVec.ofNat 64 (s.a + 1))) := by
  unfold execWriteUnary State.appendUnary
  by_cases hc : s.cfg.capBits < s.wlen + s.a + 1
  · cases s.fault <;> cases s.mode <;> simp [hc]
  · have hle : s.wlen + s.a + 1 ≤ s.cfg.capBits := by omega
    cases s.fault <;> cases s.mode <;> simp [hc, hle]

/-- Everything FLUSH can do (40_bitio.md R112). -/
theorem execFlush_cases (s : State) :
    (s.fault.isSome = true ∧ execFlush s = blocked s) ∨
    (s.fault = none ∧ s.mode = .building ∧
      execFlush s = finish { s.pad with mode := .frozen } (BitVec.ofNat 64 s.wlen)) ∨
    (s.fault = none ∧ s.mode = .frozen ∧ execFlush s = finish s (BitVec.ofNat 64 s.wlen)) := by
  unfold execFlush
  cases hf : s.fault <;> cases hm : s.mode <;> simp

/-- Everything READ_BITS can do (40_bitio.md R113). -/
theorem execReadBits_cases (rid : BitVec 4) (n : BitVec 7) (s : State) :
    (s.fault.isSome = true ∧ execReadBits rid n s = blocked s) ∨
    (s.fault = none ∧ ¬ (legalCount n ∧ legalReader s.cfg.nReaders rid) ∧
      execReadBits rid n s = raise s .illegalCommand) ∨
    (s.fault = none ∧ (legalCount n ∧ legalReader s.cfg.nReaders rid) ∧ s.mode = .building ∧
      execReadBits rid n s = raise s .modeViolation) ∨
    (s.fault = none ∧ (legalCount n ∧ legalReader s.cfg.nReaders rid) ∧ s.mode = .frozen ∧
      execReadBits rid n s = finishRead s rid (readBitsAt s (s.cursor rid).toNat n.toNat)) := by
  unfold execReadBits illegal
  by_cases h : legalCount n ∧ legalReader s.cfg.nReaders rid <;> cases s.fault <;> cases s.mode <;> simp [h]

/-- Everything READ_UNARY can do (40_bitio.md R114). -/
theorem execReadUnary_cases (rid : BitVec 4) (s : State) :
    (s.fault.isSome = true ∧ execReadUnary rid s = blocked s) ∨
    (s.fault = none ∧ ¬ legalReader s.cfg.nReaders rid ∧ execReadUnary rid s = raise s .illegalCommand) ∨
    (s.fault = none ∧ legalReader s.cfg.nReaders rid ∧ s.mode = .building ∧
      execReadUnary rid s = raise s .modeViolation) ∨
    (s.fault = none ∧ legalReader s.cfg.nReaders rid ∧ s.mode = .frozen ∧
      execReadUnary rid s = finishRead s rid (readUnaryAt s (s.cursor rid).toNat)) := by
  unfold execReadUnary illegal
  by_cases h : legalReader s.cfg.nReaders rid <;> cases s.fault <;> cases s.mode <;> simp [h]

/-- Everything SET_BIT_POS can do (40_bitio.md R115). -/
theorem execSetBitPos_cases (rid : BitVec 4) (s : State) :
    (s.fault.isSome = true ∧ execSetBitPos rid s = blocked s) ∨
    (s.fault = none ∧ ¬ legalReader s.cfg.nReaders rid ∧ execSetBitPos rid s = raise s .illegalCommand) ∨
    (s.fault = none ∧ legalReader s.cfg.nReaders rid ∧ s.mode = .building ∧
      execSetBitPos rid s = raise s .modeViolation) ∨
    (s.fault = none ∧ legalReader s.cfg.nReaders rid ∧ s.mode = .frozen ∧
      execSetBitPos rid s = finish (s.setCursor rid s.opA) 0) := by
  unfold execSetBitPos illegal
  by_cases h : legalReader s.cfg.nReaders rid <;> cases s.fault <;> cases s.mode <;> simp [h]

/-- Everything GET_BIT_POS can do (40_bitio.md R116). -/
theorem execGetBitPos_cases (rid : BitVec 4) (s : State) :
    (s.fault.isSome = true ∧ execGetBitPos rid s = blocked s) ∨
    (s.fault = none ∧ ¬ legalReader s.cfg.nReaders rid ∧ execGetBitPos rid s = raise s .illegalCommand) ∨
    (s.fault = none ∧ legalReader s.cfg.nReaders rid ∧ s.mode = .building ∧
      execGetBitPos rid s = raise s .modeViolation) ∨
    (s.fault = none ∧ legalReader s.cfg.nReaders rid ∧ s.mode = .frozen ∧
      execGetBitPos rid s = finish s (s.cursor rid)) := by
  unfold execGetBitPos illegal
  by_cases h : legalReader s.cfg.nReaders rid <;> cases s.fault <;> cases s.mode <;> simp [h]

/-- Everything BUF_READ can do (40_bitio.md R117). -/
theorem execBufRead_cases (s : State) :
    (s.fault.isSome = true ∧ execBufRead s = blocked s) ∨
    (s.fault = none ∧ s.mode = .building ∧ execBufRead s = raise s .modeViolation) ∨
    (s.fault = none ∧ s.mode = .frozen ∧ wordsFor s.wlen ≤ s.a ∧ execBufRead s = raise s .readPastEnd) ∨
    (s.fault = none ∧ s.mode = .frozen ∧ s.a < wordsFor s.wlen ∧ execBufRead s = finish s (s.word s.a)) := by
  unfold execBufRead
  by_cases h : wordsFor s.wlen ≤ s.a <;> cases s.fault <;> cases s.mode <;>
    simp [h, Nat.not_lt.mpr, Nat.lt_of_not_le]

/-! ### The system commands -/

/-- Everything CSRR can do (46_system.md R251). -/
theorem execCsrr_cases (csr : BitVec 7) (s : State) :
    (∃ v, s.controlRegister csr = some v ∧ execCsrr csr s = finish s v) ∨
    (s.controlRegister csr = none ∧ execCsrr csr s = illegal s) := by
  unfold execCsrr
  cases s.controlRegister csr <;> simp

/-- The CSR numbers that name a register are 0 to 3 (10_state.md R30). -/
theorem controlRegister_isSome (csr : BitVec 7) (s : State) : (s.controlRegister csr).isSome = true ↔ legalCsr csr := by
  unfold State.controlRegister
  split <;> simp_all; omega

/-! ### The step -/

/-- Everything a step can do, by what the host has put on the port. -/
theorem step_cases (s : State) :
    (s.inputs = [] ∧ step s = .next s) ∨
    (∃ rest, s.inputs = .hardwareReset :: rest ∧ step s = .next (s.hardwareReset rest)) ∨
    (∃ w a b rest, s.inputs = .command w a b :: rest ∧ step s = runWord w (s.accept a b rest)) := by
  unfold step
  cases h : s.inputs with
  | nil => simp
  | cons ev rest => cases ev <;> simp

/-- Everything a command word can do (60_exceptions.md R265). -/
theorem runWord_cases (w : CommandWord) (s : State) :
    (∃ i, decode s.cfg.nReaders w = .ok i ∧ runWord w s = exec i s) ∨
    (∃ e, decode s.cfg.nReaders w = .error e ∧ runWord w s = illegal s) := by
  unfold runWord
  cases decode s.cfg.nReaders w <;> simp

end Sys2Proof.Laws
end

