-- ==== Sys2Proof/Laws/PerInstr.lean ====
section
/-! SUPPORT. The per-instruction family FieldLayout: the word of every command has a defined opcode, zero reserved bits
(30_encoding.md R82, R84) and a codec selector of the table (R86). -/

namespace Sys2Proof.Laws

/-- The opcodes of 30_encoding.md R84. -/
def definedOpcodes : List (BitVec 8) :=
  [0x01, 0x02, 0x03, 0x10, 0x11, 0x12, 0x18, 0x19, 0x1A, 0x1B, 0x20, 0x21, 0x22]

/-- The word of a command has a defined opcode, zero reserved bits and a codec selector of the table. -/
def FieldLayout.Statement (i : Instr) : Prop :=
  opField (encode i) ∈ definedOpcodes ∧ reservedBit (encode i) = 0 ∧ topField (encode i) = 0 ∧
    (codecField (encode i)).toNat ≤ 5

/-- The layout of a word built from its fields. -/
theorem fieldLayout_commandWord (op : BitVec 8) (codec : BitVec 4) (n : BitVec 7) (rid : BitVec 4)
    (hop : op ∈ definedOpcodes) (hc : codec.toNat ≤ 5) (i : Instr) (h : encode i = commandWord op codec n rid) :
    FieldLayout.Statement i := by
  simp only [FieldLayout.Statement, h, opField_commandWord, reservedBit_commandWord, topField_commandWord,
    codecField_commandWord]
  exact ⟨hop, trivial, trivial, hc⟩

theorem FieldLayout.reset : FieldLayout.Statement (.reset) :=
  fieldLayout_commandWord _ _ _ _ (by decide) (by decide) _ rfl
theorem FieldLayout.csrr (csr : BitVec 7) : FieldLayout.Statement (.csrr csr) :=
  fieldLayout_commandWord _ _ _ _ (by decide) (by decide) _ rfl
theorem FieldLayout.bufRead : FieldLayout.Statement (.bufRead) :=
  fieldLayout_commandWord _ _ _ _ (by decide) (by decide) _ rfl
theorem FieldLayout.writeBits (n : BitVec 7) : FieldLayout.Statement (.writeBits n) :=
  fieldLayout_commandWord _ _ _ _ (by decide) (by decide) _ rfl
theorem FieldLayout.writeUnary : FieldLayout.Statement (.writeUnary) :=
  fieldLayout_commandWord _ _ _ _ (by decide) (by decide) _ rfl
theorem FieldLayout.flush : FieldLayout.Statement (.flush) :=
  fieldLayout_commandWord _ _ _ _ (by decide) (by decide) _ rfl
theorem FieldLayout.readBits (rid : BitVec 4) (n : BitVec 7) : FieldLayout.Statement (.readBits rid n) :=
  fieldLayout_commandWord _ _ _ _ (by decide) (by decide) _ rfl
theorem FieldLayout.readUnary (rid : BitVec 4) : FieldLayout.Statement (.readUnary rid) :=
  fieldLayout_commandWord _ _ _ _ (by decide) (by decide) _ rfl
theorem FieldLayout.setBitPos (rid : BitVec 4) : FieldLayout.Statement (.setBitPos rid) :=
  fieldLayout_commandWord _ _ _ _ (by decide) (by decide) _ rfl
theorem FieldLayout.getBitPos (rid : BitVec 4) : FieldLayout.Statement (.getBitPos rid) :=
  fieldLayout_commandWord _ _ _ _ (by decide) (by decide) _ rfl
theorem FieldLayout.encGamma : FieldLayout.Statement (.encGamma) :=
  fieldLayout_commandWord _ _ _ _ (by decide) (by decide) _ rfl
theorem FieldLayout.encDelta : FieldLayout.Statement (.encDelta) :=
  fieldLayout_commandWord _ _ _ _ (by decide) (by decide) _ rfl
theorem FieldLayout.encExpGolomb : FieldLayout.Statement (.encExpGolomb) :=
  fieldLayout_commandWord _ _ _ _ (by decide) (by decide) _ rfl
theorem FieldLayout.encZeta : FieldLayout.Statement (.encZeta) :=
  fieldLayout_commandWord _ _ _ _ (by decide) (by decide) _ rfl
theorem FieldLayout.encRice : FieldLayout.Statement (.encRice) :=
  fieldLayout_commandWord _ _ _ _ (by decide) (by decide) _ rfl
theorem FieldLayout.encMinbin : FieldLayout.Statement (.encMinbin) :=
  fieldLayout_commandWord _ _ _ _ (by decide) (by decide) _ rfl
theorem FieldLayout.decGamma (rid : BitVec 4) : FieldLayout.Statement (.decGamma rid) :=
  fieldLayout_commandWord _ _ _ _ (by decide) (by decide) _ rfl
theorem FieldLayout.decDelta (rid : BitVec 4) : FieldLayout.Statement (.decDelta rid) :=
  fieldLayout_commandWord _ _ _ _ (by decide) (by decide) _ rfl
theorem FieldLayout.decExpGolomb (rid : BitVec 4) : FieldLayout.Statement (.decExpGolomb rid) :=
  fieldLayout_commandWord _ _ _ _ (by decide) (by decide) _ rfl
theorem FieldLayout.decZeta (rid : BitVec 4) : FieldLayout.Statement (.decZeta rid) :=
  fieldLayout_commandWord _ _ _ _ (by decide) (by decide) _ rfl
theorem FieldLayout.decRice (rid : BitVec 4) : FieldLayout.Statement (.decRice rid) :=
  fieldLayout_commandWord _ _ _ _ (by decide) (by decide) _ rfl
theorem FieldLayout.decMinbin (rid : BitVec 4) : FieldLayout.Statement (.decMinbin rid) :=
  fieldLayout_commandWord _ _ _ _ (by decide) (by decide) _ rfl
theorem FieldLayout.lenGamma : FieldLayout.Statement (.lenGamma) :=
  fieldLayout_commandWord _ _ _ _ (by decide) (by decide) _ rfl
theorem FieldLayout.lenDelta : FieldLayout.Statement (.lenDelta) :=
  fieldLayout_commandWord _ _ _ _ (by decide) (by decide) _ rfl
theorem FieldLayout.lenExpGolomb : FieldLayout.Statement (.lenExpGolomb) :=
  fieldLayout_commandWord _ _ _ _ (by decide) (by decide) _ rfl
theorem FieldLayout.lenZeta : FieldLayout.Statement (.lenZeta) :=
  fieldLayout_commandWord _ _ _ _ (by decide) (by decide) _ rfl
theorem FieldLayout.lenRice : FieldLayout.Statement (.lenRice) :=
  fieldLayout_commandWord _ _ _ _ (by decide) (by decide) _ rfl
theorem FieldLayout.lenMinbin : FieldLayout.Statement (.lenMinbin) :=
  fieldLayout_commandWord _ _ _ _ (by decide) (by decide) _ rfl

end Sys2Proof.Laws
end

