-- ==== Sys2Proof/Laws/Sequences.lean ====
section
/-! SUPPORT. What issuing one command as one transaction does (20_memory.md R65), so that a proof about a host sequence
does not unfold the step. -/

namespace Sys2Proof.Laws

open Sys2Proof.Machine

variable {s t : State} {i : Instr} {a b : Word}

/-- A command that its own word decodes to runs on the emptied port with its operands, and the host gets its answer. -/
theorem issue_eq (hd : decode s.cfg.nReaders (encode i) = .ok i)
    (he : exec i { s with inputs := [], opA := a, opB := b } = .next t) : issue i a b s = (t, t.reply) := by
  have hs : step { s with inputs := [.command (encode i) a b] } = .next t := by
    simp only [step, runWord, State.accept, hd]
    exact he
  simp [issue, hs]

@[simp] theorem okResult_ok (r : Word) : okResult (some { status := 0, result := some r }) = some r := rfl

@[simp] theorem okResult_none : okResult none = none := rfl

/-- An answer with another status holds no result for the host (30_encoding.md R80). -/
theorem okResult_of_status {r : Reply} (h : r.status ≠ 0) : okResult (some r) = none := by
  simp only [okResult, if_neg h]

end Sys2Proof.Laws
end

