-- ==== Sys2Proof/Tests/Slice0.lean ====
section
/-! SUPPORT. Tests of one step or one definition each; every expected value is the spec's (the comment says which table or
example). Then, for each statement that has hypotheses, a witness that meets them. -/

namespace Sys2Proof.Tests

open Sys2Proof Sys2Proof.Machine

/-! ### Small states -/

/-- A unit just after reset with 4 words and 2 reader contexts. -/
def idleUnit (e : Endian) : State := State.resetWith ⟨e, 4, 2⟩

/-- A BUILDING unit that holds the given stream bits, with operands a and b on the ports. -/
def writer (e : Endian) (bits : List Nat) (a b : Word) : State :=
  { (idleUnit e).append (bits.map (· == 1)) with opA := a, opB := b }

/-- A FROZEN unit that holds the given stream bits, cursor 1 at pos, with operands a and b on the ports. -/
def reader (e : Endian) (bits : List Nat) (pos a b : Word) : State :=
  { writer e bits a b with mode := .frozen, rpos := (Vector.replicate 16 0).set 1 pos }

/-- The status and the result a meaning answers. -/
def answer : Result → Option (BitVec 4 × Option Word)
  | .next t => t.reply.map fun r => (r.status, r.result)
  | .fault f => nomatch f
  | .refused _ => none

/-- The stream of the state a meaning gives, as bits in stream order. -/
def stream : Result → List Nat
  | .next t => (List.range t.wlen).map fun p => (t.bit p).toNat
  | .fault f => nomatch f
  | .refused _ => []

/-- Cursor 1 of the state a meaning gives. -/
def cursorOne : Result → Option Word
  | .next t => some (t.cursor 1)
  | .fault f => nomatch f
  | .refused _ => none

/-! ### Well-formedness: every check refuses an ill-formed term -/

theorem test_wf_csr_number : (Instr.csrr 4).wellFormed 16 = false ∧ (Instr.csrr 3).wellFormed 16 = true := by decide

theorem test_wf_bit_count : (Instr.writeBits 65).wellFormed 16 = false ∧ (Instr.readBits 0 65).wellFormed 16 = false ∧
    (Instr.writeBits 64).wellFormed 16 = true ∧ (Instr.readBits 0 64).wellFormed 16 = true := by decide

theorem test_wf_reader_context : (Instr.readBits 2 8).wellFormed 2 = false ∧ (Instr.readUnary 2).wellFormed 2 = false ∧
    (Instr.setBitPos 2).wellFormed 2 = false ∧ (Instr.getBitPos 2).wellFormed 2 = false ∧
    (Instr.getBitPos 1).wellFormed 2 = true := by decide

theorem test_wf_reader_context_dec : (Instr.decGamma 2).wellFormed 2 = false ∧ (Instr.decDelta 2).wellFormed 2 = false ∧
    (Instr.decExpGolomb 2).wellFormed 2 = false ∧ (Instr.decZeta 2).wellFormed 2 = false ∧
    (Instr.decRice 2).wellFormed 2 = false ∧ (Instr.decMinbin 2).wellFormed 2 = false := by decide

/-! ### Decoding: a word of every command, from the match column of 30_encoding.md R87 and the tables of
95_test_vectors.md 2.1, bit by bit -/

theorem test_decode_system : decode 2 0b00000000_0000_0_0000000_0000_00000001 = .ok .reset ∧
    decode 2 0b00000000_0000_0_0000011_0000_00000010 = .ok (.csrr 3) ∧
    decode 2 0b00000000_0000_0_0000000_0000_00000011 = .ok .bufRead := by decide

theorem test_decode_writer : decode 2 0b00000000_0000_0_1000000_0000_00010000 = .ok (.writeBits 64) ∧
    decode 2 0b00000000_0000_0_0000000_0000_00010001 = .ok .writeUnary ∧
    decode 2 0b00000000_0000_0_0000000_0000_00010010 = .ok .flush := by decide

theorem test_decode_reader : decode 2 0b00000000_0001_0_0100001_0000_00011000 = .ok (.readBits 1 33) ∧
    decode 16 0b00000000_1111_0_0000000_0000_00011001 = .ok (.readUnary 15) ∧
    decode 2 0b00000000_0001_0_0000000_0000_00011010 = .ok (.setBitPos 1) ∧
    decode 2 0b00000000_0000_0_0000000_0000_00011011 = .ok (.getBitPos 0) := by decide

theorem test_decode_enc : decode 2 0b00000000_0000_0_0000000_0000_00100000 = .ok .encGamma ∧
    decode 2 0b00000000_0000_0_0000000_0001_00100000 = .ok .encDelta ∧
    decode 2 0b00000000_0000_0_0000000_0010_00100000 = .ok .encExpGolomb ∧
    decode 2 0b00000000_0000_0_0000000_0011_00100000 = .ok .encZeta ∧
    decode 2 0b00000000_0000_0_0000000_0100_00100000 = .ok .encRice ∧
    decode 2 0b00000000_0000_0_0000000_0101_00100000 = .ok .encMinbin := by decide

theorem test_decode_dec : decode 2 0b00000000_0000_0_0000000_0000_00100001 = .ok (.decGamma 0) ∧
    decode 2 0b00000000_0001_0_0000000_0001_00100001 = .ok (.decDelta 1) ∧
    decode 2 0b00000000_0001_0_0000000_0010_00100001 = .ok (.decExpGolomb 1) ∧
    decode 2 0b00000000_0000_0_0000000_0011_00100001 = .ok (.decZeta 0) ∧
    decode 2 0b00000000_0001_0_0000000_0100_00100001 = .ok (.decRice 1) ∧
    decode 2 0b00000000_0001_0_0000000_0101_00100001 = .ok (.decMinbin 1) := by decide

theorem test_decode_len : decode 2 0b00000000_0000_0_0000000_0000_00100010 = .ok .lenGamma ∧
    decode 2 0b00000000_0000_0_0000000_0001_00100010 = .ok .lenDelta ∧
    decode 2 0b00000000_0000_0_0000000_0010_00100010 = .ok .lenExpGolomb ∧
    decode 2 0b00000000_0000_0_0000000_0011_00100010 = .ok .lenZeta ∧
    decode 2 0b00000000_0000_0_0000000_0100_00100010 = .ok .lenRice ∧
    decode 2 0b00000000_0000_0_0000000_0101_00100010 = .ok .lenMinbin := by decide

/-- The illegal words of 95_test_vectors.md 2.1, with the case of R89 each falls under. -/
theorem test_decode_illegal : decode 1 0x00000000 = .error .reservedOp ∧ decode 1 0x00000004 = .error .reservedOp ∧
    decode 1 0x00000023 = .error .reservedOp ∧ decode 1 0x00041010 = .error .bitCount ∧
    decode 1 0x0007F018 = .error .bitCount ∧ decode 1 0x00004002 = .error .csrNumber ∧
    decode 1 0x00000112 = .error .unusedField ∧ decode 1 0x00001011 = .error .unusedField ∧
    decode 1 0x00100010 = .error .unusedField ∧ decode 1 0x00000620 = .error .codecSelector ∧
    decode 1 0x00000F21 = .error .codecSelector ∧ decode 1 0x00001022 = .error .unusedField ∧
    decode 1 0x00100022 = .error .unusedField ∧ decode 1 0x00080010 = .error .reservedBits ∧
    decode 1 0x01000012 = .error .reservedBits ∧ decode 1 0x00100018 = .error .readerContext := by decide

/-! ### The state after reset (70_reset_and_hazards.md R300; V-S1) -/

theorem test_reset_memory_wf : State.reset.buf.wf := by decide

theorem test_reset_registers : (State.resetWith ⟨.le, 4, 2⟩).controlRegister 0 = some 0 ∧
    (State.resetWith ⟨.le, 4, 2⟩).controlRegister 1 = some 0 ∧
    (State.resetWith ⟨.le, 4, 2⟩).controlRegister 2 = some 4 ∧
    (State.resetWith ⟨.le, 4, 2⟩).controlRegister 3 = some 0x00010201 ∧
    (State.resetWith ⟨.be, 4, 1⟩).controlRegister 3 = some 0x00010100 := by decide

/-! ### System commands -/

/-- V-S2: RESET from a frozen, faulted unit. -/
theorem test_reset : execReset { reader .be [1, 0, 1] 3 0 0 with fault := some .readPastEnd } =
    .next { idleUnit .be with reply := some { status := 0, result := some 0 } } := rfl

/-- V-B7 and 10_state.md R31: STATUS of a frozen unit; V-F5: with ReadPastEnd recorded. -/
theorem test_csrr_status : answer (execCsrr 0 (reader .be [1] 0 0 0)) = some (0, some 1) ∧
    answer (execCsrr 0 { reader .be [1] 0 0 0 with fault := some .readPastEnd }) = some (0, some 0x61) := by decide

/-- V-S3: a reserved CSR number is IllegalCommand, or BLOCKED once a fault is recorded. -/
theorem test_csrr_reserved : answer (execCsrr 4 (idleUnit .be)) = some (1, none) ∧
    answer (execCsrr 4 { idleUnit .be with fault := some .valueOutOfDomain }) = some (15, none) := by decide

/-! ### Bit I/O (95_test_vectors.md 2.2 and program P1) -/

/-- V-B2: the high bits of A are ignored; the token 5 in four bits, in both orders of E. -/
theorem test_writeBits_both_orders :
    answer (execWriteBits 4 (writer .be [] 0xFFFFFFFFFFFFFFF5 0)) = some (0, some 4) ∧
    stream (execWriteBits 4 (writer .be [] 0xFFFFFFFFFFFFFFF5 0)) = [0, 1, 0, 1] ∧
    stream (execWriteBits 4 (writer .le [] 0xFFFFFFFFFFFFFFF5 0)) = [1, 0, 1, 0] := by decide

/-- P1 step 3: an 8-bit token at position 60 crosses into word 1; the nibbles land as the text under P1 says. -/
theorem test_writeBits_across_words :
    (match execWriteBits 8 (writer .be (List.replicate 60 0) 0xA5 0) with
      | .next t => (t.word 0, t.word 1) | _ => (0, 0)) = (0xA, 0x5000000000000000) ∧
    (match execWriteBits 8 (writer .le (List.replicate 60 0) 0xA5 0) with
      | .next t => (t.word 0, t.word 1) | _ => (0, 0)) = (0x5000000000000000, 0xA) := by decide

/-- V-B4: a unary run of value 3. -/
theorem test_writeUnary : answer (execWriteUnary (writer .le [1] 3 0)) = some (0, some 4) ∧
    stream (execWriteUnary (writer .le [1] 3 0)) = [1, 0, 0, 0, 1] := by decide

/-- V-B11: a run of 2^64 - 1 overflows the buffer with no wrap-around. -/
theorem test_writeUnary_overflow : answer (execWriteUnary (writer .be [] 0xFFFFFFFFFFFFFFFF 0)) = some (5, none) := by decide

/-- 40_bitio.md R112: FLUSH answers WLEN, freezes, and clears what stood in the padding. -/
theorem test_flush : answer (execFlush { writer .be [1, 0, 1, 1, 1] 0 0 with wlen := 3 }) = some (0, some 3) ∧
    (match execFlush { writer .be [1, 0, 1, 1, 1] 0 0 with wlen := 3 } with
      | .next t => (t.mode, t.word 0) | _ => (.building, 0)) = (.frozen, 0xA000000000000000) := by decide

/-- V-B1 and P1 step 19: a token read back from the bits that hold it, in both orders of E. -/
theorem test_readBits : answer (execReadBits 1 3 (reader .be [1, 1, 1, 0, 1] 1 0 0)) = some (0, some 6) ∧
    answer (execReadBits 1 3 (reader .le [1, 1, 1, 0, 1] 1 0 0)) = some (0, some 3) ∧
    cursorOne (execReadBits 1 3 (reader .be [1, 1, 1, 0, 1] 1 0 0)) = some 4 := by decide

/-- V-B8: a read of no bits at a cursor past WLEN still fails, and the cursor stays. -/
theorem test_readBits_past_end : answer (execReadBits 1 0 (reader .be [1] 2 0 0)) = some (6, none) ∧
    cursorOne (execReadBits 1 0 (reader .be [1] 2 0 0)) = some 2 := by decide

/-- V-B4: the second unary value, read from position 1. -/
theorem test_readUnary : answer (execReadUnary 1 (reader .be [1, 0, 0, 0, 1] 1 0 0)) = some (0, some 3) ∧
    cursorOne (execReadUnary 1 (reader .be [1, 0, 0, 0, 1] 1 0 0)) = some 5 := by decide

/-- V-B4: no 1 bit is left. -/
theorem test_readUnary_past_end : answer (execReadUnary 1 (reader .be [1, 0, 0] 1 0 0)) = some (6, none) := by decide

/-- V-B8: a seek to 2^64 - 1 never faults. -/
theorem test_setBitPos : answer (execSetBitPos 1 (reader .be [1] 0 0xFFFFFFFFFFFFFFFF 0)) = some (0, some 0) ∧
    cursorOne (execSetBitPos 1 (reader .be [1] 0 0xFFFFFFFFFFFFFFFF 0)) = some 0xFFFFFFFFFFFFFFFF := by decide

/-- V-B8 and V-S2: tell, and ModeViolation in BUILDING. -/
theorem test_getBitPos : answer (execGetBitPos 1 (reader .be [1] 139 0 0)) = some (0, some 139) ∧
    answer (execGetBitPos 1 (idleUnit .be)) = some (2, none) := by decide

/-- V-B5: the word that ends in a unary run of ten from position 60. -/
theorem test_bufRead : answer (execBufRead (reader .be (List.replicate 70 0 ++ [1]) 0 1 0)) = some (0, some 0x0200000000000000) ∧
    answer (execBufRead (reader .le (List.replicate 70 0 ++ [1]) 0 1 0)) = some (0, some 0x0000000000000040) := by decide

/-- V-B9: the first word past the stream. -/
theorem test_bufRead_past_end : answer (execBufRead (reader .be [1] 0 1 0)) = some (6, none) := by decide

/-! ### The codecs: codewords from the tables of 42, 43 and 44 (R164, R169, R184, R189, R209) -/

/-- R164, x = 8. -/
theorem test_encGamma : answer (execEncGamma (writer .be [] 8 0)) = some (0, some 7) ∧
    stream (execEncGamma (writer .be [] 8 0)) = [0, 0, 0, 1, 0, 0, 1] ∧
    stream (execEncGamma (writer .le [] 8 0)) = [0, 0, 0, 1, 1, 0, 0] := by decide

/-- V-G2: 2^64 - 1 is outside the domain. -/
theorem test_encGamma_domain : answer (execEncGamma (writer .be [1] 0xFFFFFFFFFFFFFFFF 0)) = some (4, none) ∧
    stream (execEncGamma (writer .be [1] 0xFFFFFFFFFFFFFFFF 0)) = [1] := by decide

/-- R164, x = 8, behind one other bit. -/
theorem test_decGamma : answer (execDecGamma 1 (reader .le [1, 0, 0, 0, 1, 1, 0, 0] 1 0 0)) = some (0, some 8) ∧
    cursorOne (execDecGamma 1 (reader .le [1, 0, 0, 0, 1, 1, 0, 0] 1 0 0)) = some 8 := by decide

/-- V-G4: three bits wanted, two left; the cursor stays. -/
theorem test_decGamma_truncated : answer (execDecGamma 1 (reader .be [0, 0, 0, 1, 0, 0] 0 0 0)) = some (6, none) ∧
    cursorOne (execDecGamma 1 (reader .be [0, 0, 0, 1, 0, 0] 0 0 0)) = some 0 := by decide

theorem test_lenGamma : answer (execLenGamma (writer .be [] 0xFFFFFFFF 0)) = some (0, some 65) ∧
    answer (execLenGamma (writer .be [] 0xFFFFFFFFFFFFFFFE 0)) = some (0, some 127) := by decide

/-- R169, x = 11. -/
theorem test_encDelta : answer (execEncDelta (writer .be [] 11 0)) = some (0, some 8) ∧
    stream (execEncDelta (writer .be [] 11 0)) = [0, 0, 1, 0, 0, 1, 0, 0] ∧
    stream (execEncDelta (writer .le [] 11 0)) = [0, 0, 1, 0, 0, 0, 0, 1] := by decide

/-- Scenario 2: the codeword of 1991. -/
theorem test_decDelta :
    answer (execDecDelta 1 (reader .be [0, 0, 0, 1, 0, 1, 1, 1, 1, 1, 1, 0, 0, 1, 0, 0, 0] 0 0 0)) =
      some (0, some 1991) := by decide

theorem test_lenDelta : answer (execLenDelta (writer .be [] 1991 0)) = some (0, some 17) ∧
    answer (execLenDelta (writer .be [] 0xFFFFFFFFFFFFFFFE 0)) = some (0, some 76) := by decide

/-- R184, k = 2, x = 13. -/
theorem test_encExpGolomb : stream (execEncExpGolomb (writer .be [] 13 2)) = [0, 0, 1, 0, 0, 0, 1] ∧
    stream (execEncExpGolomb (writer .le [] 13 2)) = [0, 0, 1, 0, 0, 1, 0] := by decide

theorem test_decExpGolomb : answer (execDecExpGolomb 1 (reader .le [0, 0, 1, 0, 0, 1, 0] 0 0 2)) = some (0, some 13) := by decide

theorem test_lenExpGolomb : answer (execLenExpGolomb (writer .be [] 0xFFFFFFFFFFFFFFFF 1)) = some (0, some 128) ∧
    answer (execLenExpGolomb (writer .be [] 0xFFFFFFFFFFFFFFFF 64)) = some (0, some 65) := by decide

theorem test_lenExpGolomb_faults : answer (execLenExpGolomb (writer .be [] 0xFFFFFFFFFFFFFFFF 0)) = some (4, none) ∧
    answer (execLenExpGolomb (writer .be [] 0 65)) = some (3, none) := by decide

/-- R189, k = 2, x = 13. -/
theorem test_encRice : stream (execEncRice (writer .be [] 13 2)) = [0, 0, 0, 1, 0, 1] ∧
    stream (execEncRice (writer .le [] 13 2)) = [0, 0, 0, 1, 1, 0] := by decide

/-- V-R3: 1001 bits do not fit. -/
theorem test_encRice_overflow : answer (execEncRice (writer .be [] 1000 0)) = some (5, none) := by decide

theorem test_decRice : answer (execDecRice 1 (reader .be [0, 0, 0, 1, 0, 1] 0 0 2)) = some (0, some 13) := by decide

/-- V-R2: quotient 1 with k = 64; with too few bits the read fails first. -/
theorem test_decRice_malformed : answer (execDecRice 1 (reader .be ([0, 1] ++ List.replicate 64 0) 0 0 64)) = some (7, none) ∧
    answer (execDecRice 1 (reader .be ([0, 1] ++ List.replicate 10 0) 0 0 64)) = some (6, none) := by decide +kernel

theorem test_lenRice : answer (execLenRice (writer .be [] 0xFFFFFFFFFFFFFFFE 0)) = some (0, some 0xFFFFFFFFFFFFFFFF) ∧
    answer (execLenRice (writer .be [] 0xFFFFFFFFFFFFFFFF 0xFFFFFFFFFFFFFFFF)) = some (3, none) := by decide

/-- R209, k = 2, x = 8 (the short form) and x = 16 (the long one). -/
theorem test_encZeta : stream (execEncZeta (writer .be [] 7 2)) = [0, 1, 1, 0, 0, 0] ∧
    stream (execEncZeta (writer .le [] 7 2)) = [0, 1, 0, 0, 1, 0] ∧
    stream (execEncZeta (writer .le [] 16 2)) = [0, 0, 1, 1, 0, 0, 0, 0] := by decide

theorem test_decZeta : answer (execDecZeta 1 (reader .le [0, 1, 0, 0, 1, 0] 0 0 2)) = some (0, some 7) ∧
    answer (execDecZeta 1 (reader .le [0, 0, 1, 1, 0, 0, 0, 0] 0 0 2)) = some (0, some 16) := by decide

/-- V-Z2: h = 21 with k = 3; the check on h comes before the next read. -/
theorem test_decZeta_malformed :
    answer (execDecZeta 1 (reader .be (List.replicate 21 0 ++ [1]) 0 0 3)) = some (7, none) := by decide

theorem test_lenZeta : answer (execLenZeta (writer .be [] 0x7FFFFFFFFFFFFFFE 3)) = some (0, some 84) ∧
    answer (execLenZeta (writer .be [] 0x7FFFFFFFFFFFFFFF 3)) = some (4, none) := by decide

/-- Scenario 5, u = 10000: the last short codeword and the first long one. -/
theorem test_encMinbin : stream (execEncMinbin (writer .le [] 6383 10000)) = [1, 1, 1, 1, 0, 1, 1, 1, 0, 0, 0, 1, 1] ∧
    stream (execEncMinbin (writer .be [] 6384 10000)) = [1, 1, 0, 0, 0, 1, 1, 1, 1, 0, 0, 0, 0, 0] ∧
    stream (execEncMinbin (writer .le [] 6384 10000)) = [0, 0, 0, 0, 1, 1, 1, 1, 0, 0, 0, 1, 1, 0] := by decide

/-- V-M1: the codeword of 0 under u = 1 has no bit, even at capacity. -/
theorem test_encMinbin_empty :
    answer (execEncMinbin { writer .be [] 0 1 with wlen := 256 }) = some (0, some 0) := by decide

theorem test_decMinbin : answer (execDecMinbin 1 (reader .be [1, 1, 1, 1] 0 0 14)) = some (0, some 13) ∧
    answer (execDecMinbin 1 (reader .be [0, 0, 1, 1] 0 0 14)) = some (0, some 1) := by decide

theorem test_lenMinbin : answer (execLenMinbin (writer .be [] 0 0xFFFFFFFFFFFFFFFF)) = some (0, some 63) ∧
    answer (execLenMinbin (writer .be [] 1 0xFFFFFFFFFFFFFFFF)) = some (0, some 64) := by decide

/-! ### The step -/

/-- R93: the table's numbering of a word, and that word run as the first command after reset. -/
theorem test_first_command : decodeTableWord 32 0x00008010 = some (.writeBits 8) ∧ decodeTableWord 32 0x00041010 = none ∧
    answer (step (State.reset.withFetchWord 32 0x00003002)) = some (0, some 0x00011000) := by decide

/-- V-F5: with a fault recorded an illegal word is BLOCKED. -/
theorem test_step_blocked :
    answer (step { reader .be [1] 0 0 0 with fault := some .readPastEnd, inputs := [.command 0 0 0] }) = some (15, none) := by
  decide

/-! ### The host sequences -/

/-- 95_test_vectors.md P5: the saved BE word goes to a BE unit shifted, and to an LE unit (a host error, log entry 17) as
it stands, where it makes 32 zero bits. -/
theorem test_restore_tail :
    tailOperand .be 0x443891C400000000 32 = 0x443891C4 ∧
    (restore ⟨.be, ⟨6, 1, .gamma, 0, [], 32⟩, [0x443891C400000000]⟩ (idleUnit .be)).1.buf.word .be 0 = 0x443891C400000000 ∧
    (restore ⟨.be, ⟨6, 1, .gamma, 0, [], 32⟩, [0x443891C400000000]⟩ (idleUnit .le)).1.buf.word .le 0 = 0 := by
  decide +kernel

/-! ## Witnesses

One per statement that has hypotheses, under the statement's name: a concrete state and operands that meet them, for each
clause, at a boundary where the clause has one. -/

/-- The host has put one command on the port of s, with operands a and b. -/
def offered (w : CommandWord) (a b : Word) (s : State) : State := { s with inputs := [.command w a b] }

/-! ### The command word and the step -/

theorem witness_DecodeInvertsEncode : (Instr.readBits 15 64).wellFormed 16 = true := by decide

theorem witness_DecodedCommandIsItsWord : decode 16 0x00F40018 = .ok (.readBits 15 64) := by decide

theorem witness_IllegalWordsAreTheSevenCases : (offered 0x00200019 7 8 (idleUnit .be)).fault = none ∧
    illegalByRule (offered 0x00200019 7 8 (idleUnit .be)).cfg.nReaders 0x00200019 ∧
    (offered 0x00200019 7 8 (idleUnit .be)).inputs = .command 0x00200019 7 8 :: [] := by
  refine ⟨rfl, ?_, rfl⟩
  unfold illegalByRule
  decide

theorem witness_StepRunsTheDecodedCommand :
    (offered 0x00040010 7 8 (idleUnit .le)).inputs = .command 0x00040010 7 8 :: [] ∧
    decode (offered 0x00040010 7 8 (idleUnit .le)).cfg.nReaders 0x00040010 = .ok (.writeBits 64) := ⟨rfl, by decide⟩

theorem witness_EveryCommandHasOneOutcome : (offered 0x00000000 7 8 (idleUnit .le)).inputs = .command 0 7 8 :: [] := rfl

/-- A BUILDING and a FROZEN state that the invariants hold of, each with a command that steps it. -/
theorem witness_StepKeepsTheStateInvariants :
    ((offered 0x00000012 0 0 (writer .be [1, 0, 1] 0 0)).Inv ∧
      ∃ t, step (offered 0x00000012 0 0 (writer .be [1, 0, 1] 0 0)) = .next t) ∧
    ((offered 0x00100019 0 0 (reader .le [1, 0, 1] 3 0 0)).Inv ∧
      ∃ t, step (offered 0x00100019 0 0 (reader .le [1, 0, 1] 3 0 0)) = .next t) := by
  refine ⟨⟨⟨by decide, by decide, by decide, by decide, (fun h => nomatch h), fun _ => by decide, by decide⟩, ⟨_, rfl⟩⟩,
    ⟨⟨by decide, by decide, by decide, by decide, fun _ p h₁ h₂ => ?_, (fun h => nomatch h), by decide⟩, ⟨_, rfl⟩⟩⟩
  have h : ∀ p < 64, 3 ≤ p → (offered 0x00100019 0 0 (reader .le [1, 0, 1] 3 0 0)).bit p = false := by decide
  exact h p h₂ h₁

theorem witness_ResetStateHasTheInvariants : (⟨.le, 2 ^ 58 - 1, 16⟩ : Config).legal ∧ (⟨.be, 1, 1⟩ : Config).legal := by
  decide

theorem witness_BothResetsGiveTheResetState : (reader .le [1] 1 0 0).cfg.legal := by decide

/-! ### Faults -/

theorem witness_RaisedFaultsArePrecise :
    ((reader .be [1] 1 0 0).fault = none ∧
      ∃ t, exec (.readUnary 1) (reader .be [1] 1 0 0) = .next t ∧ t.fault = some .readPastEnd) ∧
    ({ reader .be [1] 1 0 0 with fault := some .readPastEnd } : State).fault = some .readPastEnd ∧
      ∃ t, exec .flush { reader .be [1] 1 0 0 with fault := some .readPastEnd } = .next t :=
  ⟨⟨rfl, _, rfl, rfl⟩, rfl, _, rfl⟩

theorem witness_RecordedFaultBlocksAndSticks :
    (decode 2 0x00000012 ≠ .ok .reset ∧ ∀ csr, decode 2 0x00000012 ≠ .ok (.csrr csr)) ∧
    (decode 2 0x00000000 ≠ .ok .reset ∧ ∀ csr, decode 2 0x00000000 ≠ .ok (.csrr csr)) ∧
    ({ idleUnit .be with fault := some .illegalCommand } : State).fault = some .illegalCommand ∧
    ∃ t, step { offered 0x00000012 0 0 (idleUnit .be) with fault := some .illegalCommand } = .next t :=
  ⟨by decide, by decide, rfl, _, rfl⟩

theorem witness_CommandsRaiseOnlyTheirFaults : (writer .be [] 0 0).fault = none ∧
    ∃ t, exec .encZeta (writer .be [] 0 0) = .next t ∧ t.fault = some .invalidParameter := ⟨rfl, _, rfl, rfl⟩

theorem witness_ModeViolationIsTheWrongMode : (reader .be [1] 0 0 0).fault = none ∧
    Instr.encMinbin.wellFormed (reader .be [1] 0 0 0).cfg.nReaders = true ∧
    (Instr.decZeta 1).wellFormed (idleUnit .be).cfg.nReaders = true := by decide

theorem witness_InvalidParameterIsOutsideTheDomain : (writer .be [] 0 65).fault = none ∧
    legalReader (writer .be [] 0 65).cfg.nReaders 1 ∧ (writer .be [] 0 65).mode = .building ∧
    ¬ paramDomain .rice (writer .be [] 0 65).opB.toNat ∧ paramDomain .rice (writer .be [] 0 64).opB.toNat := by decide

theorem witness_ValueOutOfDomainIsOutsideTheDomain : (writer .be [] 5 5).fault = none ∧
    paramDomain .minbin (writer .be [] 5 5).opB.toNat ∧
    ¬ valueDomain .minbin (writer .be [] 5 5).opB.toNat (writer .be [] 5 5).opA.toNat := by decide

/-- V-B11: 65 bits where 64 are left, and 64. -/
theorem witness_BufferOverflowIsPastCapacity : (writer .be [] 64 2).canWrite ∧ legalCount 64 ∧
    ({ writer .be [] 64 2 with wlen := 192 } : State).cfg.capBits < 192 + (64 + 1) ∧
    192 + 64 ≤ ({ writer .be [] 64 2 with wlen := 192 } : State).cfg.capBits ∧
    paramDomain .rice 2 ∧ valueDomain .rice 2 64 ∧
    ({ writer .be [] 0 1 with wlen := 256 } : State).wlen ≤ (writer .be [] 0 1).cfg.capBits ∧
    (writer .be [] 0 1).opA = 0 ∧ (writer .be [] 0 1).opB = 1 := by decide

theorem witness_ReadPastEndIsPastTheStream : (reader .be [1] 2 0 0).canRead 1 ∧ legalCount 0 ∧
    (reader .be [1] 2 0 0).wlen < ((reader .be [1] 2 0 0).cursor 1).toNat + 0 ∧
    (reader .be [1] 1 0 0).wlen = ((reader .be [1] 1 0 0).cursor 1).toNat + 0 := by decide

/-- The clauses of DEC and of the bound: k = 1 and k = 64 are in every domain; a gamma codeword that lacks its last bit runs
out and the whole one does not; a buffer with a bit above WLEN agrees below it. -/
theorem witness_ReadPastEndIsPastTheStream_dec : (reader .be [0, 1] 0 0 64).canRead 1 ∧
    (1 ≤ (reader .be [0, 1] 0 0 1).b ∧ (reader .be [0, 1] 0 0 64).b ≤ 64) ∧
    (reader .be [0, 1] 0 0 0).GammaRunsOut 0 ∧ gammaParse (reader .be [0, 1, 0] 0 0 0) 0 = .value 1 3 ∧
    (reader .be [0, 1] 0 0 5).MinbinRunsOut 5 1 ∧ readerOf (.decGamma 1) = some 1 ∧
    (∀ p, p < (reader .be [0, 1] 0 0 0).wlen →
      Memory.bit [(0, 0x60)] (reader .be [0, 1] 0 0 0).cfg.endian p = (reader .be [0, 1] 0 0 0).bit p) ∧
    ∃ t, exec (.decGamma 1) (reader .be [0, 1] 0 0 0) = .next t :=
  ⟨by decide, by decide, .inr ⟨1, by unfold State.RunAt; decide⟩, by decide, .inl (by decide), rfl, by decide, _, rfl⟩

/-- A command that is no DEC; V-G3 and V-Z2: a run of 64 before a gamma codeword, a run of 21 before a zeta codeword with k = 3. -/
theorem witness_MalformedStreamIsNoCodeword :
    (∀ (c : CodecName) (rid : BitVec 4), Instr.readUnary 1 ≠ c.dec rid) ∧ (reader .be [1] 0 0 3).canRead 1 ∧
    readUnaryAt (reader .be (List.replicate 64 0 ++ [1]) 0 0 0) 0 = .value 64 65 ∧
    readUnaryAt (reader .be (List.replicate 21 0 ++ [1]) 0 0 3) 0 = .value 21 22 ∧ 64 < (21 + 1) * 3 :=
  ⟨fun c _ => by cases c <;> exact fun h => Instr.noConfusion h, by decide +kernel⟩

/-! ### What holds of every command -/

theorem witness_FrozenStreamIsImmutable :
    (∃ t, exec (.decGamma 1) (reader .be [1] 0 0 0) = .next t) ∧ (reader .be [1] 0 0 0).mode = .frozen ∧
    isWriter .lenZeta = false ∧ ∃ t, exec .lenZeta (writer .be [1] 4 3) = .next t := ⟨⟨_, rfl⟩, rfl, rfl, _, rfl⟩

theorem witness_WriteCursorOnlyGrows : isWriter .encRice = true ∧ (writer .be [1] 4 3).fault = none ∧
    (writer .be [1] 4 3).wlen ≤ (writer .be [1] 4 3).cfg.capBits ∧
    ∃ t, exec .encRice (writer .be [1] 4 3) = .next t ∧ t.fault = none :=
  ⟨rfl, rfl, by decide, _, rfl, rfl⟩

theorem witness_OnlyFlushAndResetWriteMode : ∃ t, exec .flush (writer .be [1] 4 3) = .next t ∧ t.mode = .frozen :=
  ⟨_, rfl, rfl⟩

theorem witness_CommandsWriteOnlyTheirOwnCursor : readerOf (.readUnary 1) ≠ some 0 ∧
    ∃ t, exec (.readUnary 1) (reader .be [0, 1] 0 0 0) = .next t := ⟨by decide, _, rfl⟩

theorem witness_CommandsReadOnlyTheirOwnCursor : readerOf (.readUnary 1) = some 1 ∧
    ({ reader .be [0, 1] 1 0 0 with rpos := (reader .be [0, 1] 1 0 0).rpos.set 0 2 } : State).cursor 1 =
      (reader .be [0, 1] 1 0 0).cursor 1 ∧
    ∃ t, exec (.readUnary 1) (reader .be [0, 1] 1 0 0) = .next t := ⟨rfl, by decide, _, rfl⟩

theorem witness_ReadersOfDifferentContextsCommute : readerOf (.readUnary 1) = some 1 ∧ readerOf (.setBitPos 0) = some 0 ∧
    (1 : BitVec 4) ≠ 0 ∧
    ∃ t₁, exec (.readUnary 1) { reader .be [0, 1] 1 0 0 with opA := 5, opB := 6 } = .next t₁ ∧ t₁.fault = none ∧
    ∃ t₂, exec (.setBitPos 0) { t₁ with opA := 2, opB := 8 } = .next t₂ ∧ t₂.fault = none :=
  ⟨rfl, rfl, by decide, _, rfl, rfl, _, rfl, rfl⟩

theorem witness_WriterAnswersDoNotDependOnEndian : isWriter .encGamma = true ∧
    (∃ t, exec .encGamma (writer .be [1] 4 3) = .next t) ∧ Instr.flush ∈ [Instr.flush, .lenGamma] ∧
    ∃ t, exec .flush (writer .be [1] 4 3) = .next t := ⟨rfl, ⟨_, rfl⟩, by decide, _, rfl⟩

/-! ### The buffer -/

theorem witness_MemWriteLaysTheToken : (writer .be [1, 0, 1] 0 0).buf.wf ∧ 64 ≤ 64 := by decide

theorem witness_MemReadGivesTheToken : (writer .le [1, 0, 1] 0 0).buf.wf ∧ 64 ≤ 64 := by decide

theorem witness_TokenAcrossWordsSplits : (writer .le [1, 0, 1] 0 0).buf.wf ∧ 2 ≤ 64 ∧ 64 < 63 % 64 + 2 := by decide

/-! ### System and bit I/O commands -/

theorem witness_ResetCommandClearsTheUnit : (0x00000001 : CommandWord).extractLsb' 0 8 = 0x01 ∧
    (0x01000001 : CommandWord).extractLsb' 0 8 = 0x01 := by decide

theorem witness_ControlRegistersReadTheirFields : (idleUnit .le).cfg.legal ∧ 3 < (4 : BitVec 7).toNat ∧
    (idleUnit .le).fault = none ∧ ({ idleUnit .le with fault := some .bufferOverflow } : State).fault ≠ none := by decide

/-- Exact fit: 64 bits where 64 are left. -/
theorem witness_WriteBitsAppendsTheToken : ({ writer .be [1] 5 0 with wlen := 192 } : State).buf.wf ∧
    ({ writer .be [1] 5 0 with wlen := 192 } : State).canWrite ∧ (64 : BitVec 7).toNat ≤ 64 ∧
    192 + (64 : BitVec 7).toNat ≤ (writer .be [1] 5 0).cfg.capBits := by decide

theorem witness_WriteUnaryAppendsTheRun : (writer .le [1] 254 0).buf.wf ∧ (writer .le [1] 254 0).canWrite ∧
    (writer .le [1] 254 0).wlen + (writer .le [1] 254 0).opA.toNat + 1 ≤ (writer .le [1] 254 0).cfg.capBits := by decide

theorem witness_FlushPadsAndFreezes : (writer .le [1] 0 0).fault = none ∧ (writer .le [1] 0 0).mode = .building ∧
    (writer .le [1] 0 0).buf.wf ∧ (reader .le [1] 0 0 0).fault = none ∧ (reader .le [1] 0 0 0).mode = .frozen := by decide

theorem witness_ReadBitsGivesTheToken : (reader .be [1, 0, 1] 1 0 0).canRead 1 ∧ (2 : BitVec 7).toNat ≤ 64 ∧
    ((reader .be [1, 0, 1] 1 0 0).cursor 1).toNat + (2 : BitVec 7).toNat ≤ (reader .be [1, 0, 1] 1 0 0).wlen := by decide

theorem witness_ReadUnaryCountsTheZeros : (reader .be [1, 0, 0, 1] 1 0 0).canRead 1 ∧
    ((reader .be [1, 0, 0, 1] 1 0 0).cursor 1).toNat + 2 < (reader .be [1, 0, 0, 1] 1 0 0).wlen ∧
    (∀ j, j < 2 → (reader .be [1, 0, 0, 1] 1 0 0).bit (((reader .be [1, 0, 0, 1] 1 0 0).cursor 1).toNat + j) = false) ∧
    (reader .be [1, 0, 0, 1] 1 0 0).bit (((reader .be [1, 0, 0, 1] 1 0 0).cursor 1).toNat + 2) = true := by decide

theorem witness_SeekSetsAndTellReadsTheCursor : (reader .be [1] 0 7 0).fault = none ∧ (reader .be [1] 0 7 0).canRead 1 ∧
    legalReader (idleUnit .be).cfg.nReaders 1 ∧ (idleUnit .be).mode = .building ∧
    ¬ legalReader (idleUnit .be).cfg.nReaders 2 := by decide

/-- The only word of a stream of 64 bits, and the last of a stream of 65. -/
theorem witness_BufReadGivesTheFinishedWord : (reader .be [1] 0 0 0).fault = none ∧ (reader .be [1] 0 0 0).mode = .frozen ∧
    ({ reader .be [1] 0 0 0 with wlen := 64 } : State).opA.toNat < (64 + 63) / 64 ∧
    ({ reader .be [1] 0 1 0 with wlen := 65 } : State).opA.toNat < (65 + 63) / 64 := by decide

/-! ### The codecs -/

/-- x = 0, and x = 2^64 - 2 with exactly its 127 bits left. -/
theorem witness_EncGammaAppendsTheCodeword : (writer .be [1] 0 0).buf.wf ∧ (writer .be [1] 0 0).canWrite ∧
    (writer .be [1] 0 0).opA.toNat ≤ 2 ^ 64 - 2 ∧ 2 ^ 0 ≤ 0 + 1 ∧ 0 + 1 < 2 ^ (0 + 1) ∧ 1 + (2 * 0 + 1) ≤ 256 ∧
    (writer .be [1] 0xFFFFFFFFFFFFFFFE 0).opA.toNat ≤ 2 ^ 64 - 2 ∧ 2 ^ 63 ≤ 2 ^ 64 - 2 + 1 ∧
    2 ^ 64 - 2 + 1 < 2 ^ (63 + 1) ∧ 129 + (2 * 63 + 1) ≤ (writer .be [1] 0 0).cfg.capBits := by decide

theorem witness_EncDeltaAppendsTheCodeword : (writer .be [1] 1991 0).buf.wf ∧ (writer .be [1] 1991 0).canWrite ∧
    (writer .be [1] 1991 0).opA.toNat ≤ 2 ^ 64 - 2 ∧ 2 ^ 10 ≤ 1991 + 1 ∧ 1991 + 1 < 2 ^ (10 + 1) ∧
    2 ^ 3 ≤ 10 + 1 ∧ 10 + 1 < 2 ^ (3 + 1) ∧ 1 + (2 * 3 + 1 + 10) ≤ (writer .be [1] 1991 0).cfg.capBits := by decide

/-- x = 2^64 - 1 with k = 64 and k = 1. -/
theorem witness_EncExpGolombAppendsTheCodeword : (writer .le [1] 0xFFFFFFFFFFFFFFFF 64).buf.wf ∧
    (writer .le [1] 0xFFFFFFFFFFFFFFFF 64).canWrite ∧ (writer .le [1] 0xFFFFFFFFFFFFFFFF 64).opB.toNat ≤ 64 ∧
    (writer .le [1] 0xFFFFFFFFFFFFFFFF 64).opA.toNat / 2 ^ 64 = 0 ∧ 2 ^ 0 ≤ 0 + 1 ∧ 0 + 1 < 2 ^ (0 + 1) ∧
    (writer .le [1] 0xFFFFFFFFFFFFFFFF 1).opA.toNat / 2 ^ 1 = 2 ^ 63 - 1 ∧ 2 ^ 63 ≤ 2 ^ 63 - 1 + 1 ∧
    2 ^ 63 - 1 + 1 < 2 ^ (63 + 1) ∧ 1 + (2 * 63 + 1 + 1) ≤ (writer .le [1] 0 0).cfg.capBits := by decide

theorem witness_EncRiceAppendsTheCodeword : (writer .le [1] 254 0).buf.wf ∧ (writer .le [1] 254 0).canWrite ∧
    (writer .le [1] 254 0).opB.toNat ≤ 64 ∧
    ¬ ((writer .le [1] 254 0).opB.toNat = 0 ∧ (writer .le [1] 254 0).opA.toNat = 2 ^ 64 - 1) ∧
    (writer .le [1] 254 0).wlen + ((writer .le [1] 254 0).opA.toNat / 2 ^ 0 + 1 + 0) ≤ (writer .le [1] 254 0).cfg.capBits := by
  decide

/-- k = 2: x = 6 is the last short codeword of h = 1 (v = lo - 1), x = 7 the first long one (v = lo). -/
theorem witness_EncZetaAppendsTheCodeword : (writer .be [1] 6 2).buf.wf ∧ (writer .be [1] 6 2).canWrite ∧
    1 ≤ (writer .be [1] 6 2).opB.toNat ∧ (writer .be [1] 6 2).opB.toNat ≤ 64 ∧
    (writer .be [1] 6 2).opA.toNat ≤ 2 ^ 64 - 2 ∧ 2 ^ (1 * 2) ≤ 6 + 1 ∧ 7 + 1 < 2 ^ ((1 + 1) * 2) ∧ (1 + 1) * 2 ≤ 64 ∧
    6 + 1 - 2 ^ (1 * 2) < 2 ^ (1 * 2) ∧ 2 ^ (1 * 2) ≤ 7 + 1 - 2 ^ (1 * 2) ∧
    (writer .be [1] 7 2).wlen + (1 + 1 + 1 * 2 + 2) ≤ (writer .be [1] 7 2).cfg.capBits := by decide

/-- u = 10000: x = limit - 1 and x = limit. -/
theorem witness_EncMinbinAppendsTheCodeword : (writer .be [1] 6383 10000).buf.wf ∧ (writer .be [1] 6383 10000).canWrite ∧
    (writer .be [1] 6384 10000).opA.toNat < (writer .be [1] 6384 10000).opB.toNat ∧ 2 ^ 13 ≤ 10000 ∧
    10000 < 2 ^ (13 + 1) ∧ 6383 < 2 ^ (13 + 1) - 10000 ∧ 2 ^ (13 + 1) - 10000 ≤ 6384 ∧
    (writer .be [1] 6384 10000).wlen + (13 + 1) ≤ (writer .be [1] 6384 10000).cfg.capBits := by decide

theorem witness_DecGammaReadsTheCodeword : (reader .be [1, 0, 0, 0, 1, 0, 0, 1] 1 0 0).canRead 1 ∧ 2 ^ 3 ≤ 8 + 1 ∧
    8 + 1 < 2 ^ (3 + 1) ∧ 1 + (2 * 3 + 1) ≤ (reader .be [1, 0, 0, 0, 1, 0, 0, 1] 1 0 0).wlen ∧
    (reader .be [1, 0, 0, 0, 1, 0, 0, 1] 1 0 0).holds 1 (codeString .be [.unary 3, .binary (8 + 1 - 2 ^ 3) 3]) := by
  unfold State.holds
  decide

theorem witness_DecDeltaReadsTheCodeword : (reader .be [0, 0, 1, 0, 0, 1, 0, 0] 0 0 0).canRead 1 ∧ 2 ^ 3 ≤ 11 + 1 ∧
    11 + 1 < 2 ^ (3 + 1) ∧ 2 ^ 2 ≤ 3 + 1 ∧ 3 + 1 < 2 ^ (2 + 1) ∧
    0 + (2 * 2 + 1 + 3) ≤ (reader .be [0, 0, 1, 0, 0, 1, 0, 0] 0 0 0).wlen ∧
    (reader .be [0, 0, 1, 0, 0, 1, 0, 0] 0 0 0).holds 0
      (codeString .be [.unary 2, .binary (3 + 1 - 2 ^ 2) 2, .binary (11 + 1 - 2 ^ 3) 3]) := by
  unfold State.holds
  decide

theorem witness_DecExpGolombReadsTheCodeword : (reader .le [0, 0, 1, 0, 0, 1, 0] 0 0 2).canRead 1 ∧ 2 ≤ 64 ∧
    2 ^ 2 ≤ 13 / 2 ^ 2 + 1 ∧ 13 / 2 ^ 2 + 1 < 2 ^ (2 + 1) ∧
    0 + (2 * 2 + 1 + 2) ≤ (reader .le [0, 0, 1, 0, 0, 1, 0] 0 0 2).wlen ∧
    (reader .le [0, 0, 1, 0, 0, 1, 0] 0 0 2).holds 0
      (codeString .le [.unary 2, .binary (13 / 2 ^ 2 + 1 - 2 ^ 2) 2, .binary (13 % 2 ^ 2) 2]) := by
  unfold State.holds
  decide

theorem witness_DecRiceReadsTheCodeword : (reader .le [0, 0, 0, 1, 1, 0] 0 0 2).canRead 1 ∧ 2 ≤ 64 ∧
    0 + (13 / 2 ^ 2 + 1 + 2) ≤ (reader .le [0, 0, 0, 1, 1, 0] 0 0 2).wlen ∧
    (reader .le [0, 0, 0, 1, 1, 0] 0 0 2).holds 0 (codeString .le [.unary (13 / 2 ^ 2), .binary (13 % 2 ^ 2) 2]) := by
  unfold State.holds
  decide

/-- k = 2: x = 6 in the short form, x = 7 in the long one. -/
theorem witness_DecZetaReadsTheCodeword : (reader .be [0, 1, 0, 1, 1] 0 0 2).canRead 1 ∧ 2 ^ (1 * 2) ≤ 6 + 1 ∧
    7 + 1 < 2 ^ ((1 + 1) * 2) ∧ (1 + 1) * 2 ≤ 64 ∧ 6 + 1 - 2 ^ (1 * 2) < 2 ^ (1 * 2) ∧
    2 ^ (1 * 2) ≤ 7 + 1 - 2 ^ (1 * 2) ∧
    (reader .be [0, 1, 0, 1, 1] 0 0 2).holds 0 (codeString .be [.unary 1, .binary 3 (1 * 2 + 2 - 1)]) ∧
    (reader .be [0, 1, 1, 0, 0, 0] 0 0 2).holds 0
      (codeString .be [.unary 1, .binary ((4 + 4) / 2) (1 * 2 + 2 - 1), .binary ((4 + 4) % 2) 1]) := by
  unfold State.holds
  decide

/-- u = 5: x = 2 = limit - 1 in the short form, x = 3 = limit in the long one. -/
theorem witness_DecMinbinReadsTheCodeword : (reader .le [0, 1] 0 0 5).canRead 1 ∧ 2 ^ 2 ≤ 5 ∧ 5 < 2 ^ (2 + 1) ∧
    2 < 2 ^ (2 + 1) - 5 ∧ 2 ^ (2 + 1) - 5 ≤ 3 ∧ (reader .le [0, 1] 0 0 5).holds 0 (codeString .le [.binary 2 2]) ∧
    (reader .le [1, 1, 0] 0 0 5).holds 0 (codeString .le [.binary ((3 + 3) / 2) 2, .binary ((3 + 3) % 2) 1]) := by
  unfold State.holds
  decide

theorem witness_LenOfGammaAndDelta : (writer .be [] 1991 0).fault = none ∧ (writer .be [] 1991 0).opA.toNat ≤ 2 ^ 64 - 2 ∧
    2 ^ 10 ≤ 1991 + 1 ∧ 1991 + 1 < 2 ^ (10 + 1) ∧ 2 ^ 3 ≤ 10 + 1 ∧ 10 + 1 < 2 ^ (3 + 1) ∧
    (writer .be [] 0xFFFFFFFFFFFFFFFF 0).opA.toNat = 2 ^ 64 - 1 := by decide

theorem witness_LenOfExpGolombAndRice : (writer .be [] 0xFFFFFFFFFFFFFFFF 0).fault = none ∧
    64 < (writer .be [] 0 65).opB.toNat ∧ (writer .be [] 0 0).opB.toNat = 0 ∧
    (writer .be [] 0xFFFFFFFFFFFFFFFF 0).opA.toNat = 2 ^ 64 - 1 ∧ (writer .be [] 13 2).opB.toNat ≤ 64 ∧
    2 ^ 2 ≤ (writer .be [] 13 2).opA.toNat / 2 ^ 2 + 1 ∧ (writer .be [] 13 2).opA.toNat / 2 ^ 2 + 1 < 2 ^ (2 + 1) := by
  decide

/-- k = 1; k = 2 with x + 1 = 2 * 2^2 - 1 and x + 1 = 2 * 2^2; u = 10000 with x = limit - 1 and x = limit. -/
theorem witness_LenOfZetaAndMinbin : (writer .be [] 6 2).fault = none ∧ 2 ^ (2 * 1) ≤ 6 + 1 ∧ 6 + 1 < 2 ^ ((2 + 1) * 1) ∧
    2 ^ (1 * 2) ≤ 6 + 1 ∧ 7 + 1 < 2 ^ ((1 + 1) * 2) ∧ 6 + 1 < 2 * 2 ^ (1 * 2) ∧ 2 * 2 ^ (1 * 2) ≤ 7 + 1 ∧
    2 ^ 13 ≤ 10000 ∧ 10000 < 2 ^ (13 + 1) ∧ 6383 < 2 ^ (13 + 1) - 10000 ∧ 2 ^ (13 + 1) - 10000 ≤ 6384 := by decide

theorem witness_LenIsTheLengthOfTheCodeword : paramDomain .zeta 3 ∧ valueDomain .zeta 3 (2 ^ 63 - 2) ∧
    paramDomain .minbin (2 ^ 64 - 1) ∧ valueDomain .minbin (2 ^ 64 - 1) (2 ^ 64 - 2) := by decide

/-- ENC.RICE 13, 2 at position 1, then DEC.RICE from position 1 of the frozen stream. -/
theorem witness_DecodeUndoesEncode : (writer .be [1] 13 2).buf.wf ∧ (writer .be [1] 13 2).fault = none ∧
    ∃ t, exec CodecName.rice.enc (writer .be [1] 13 2) = .next t ∧ t.fault = none ∧
      (reader .be [1, 0, 0, 0, 1, 0, 1] 1 0 2).cfg = (writer .be [1] 13 2).cfg ∧
      (reader .be [1, 0, 0, 0, 1, 0, 1] 1 0 2).canRead 1 ∧
      (reader .be [1, 0, 0, 0, 1, 0, 1] 1 0 2).opB = (writer .be [1] 13 2).opB ∧
      ((reader .be [1, 0, 0, 0, 1, 0, 1] 1 0 2).cursor 1).toNat = (writer .be [1] 13 2).wlen ∧
      t.wlen ≤ (reader .be [1, 0, 0, 0, 1, 0, 1] 1 0 2).wlen ∧
      ∀ p, p < t.wlen → (reader .be [1, 0, 0, 0, 1, 0, 1] 1 0 2).bit p = t.bit p :=
  ⟨by decide, rfl, _, rfl, rfl, rfl, by decide, rfl, by decide, by decide, by decide⟩

/-- Under u = 1 the one codeword is empty, a prefix of itself. -/
theorem witness_CodewordsArePrefixFree : paramDomain .minbin 1 ∧ valueDomain .minbin 1 0 ∧
    codeString .be (CodecName.minbin.codec.code 1 0) <+: codeString .be (CodecName.minbin.codec.code 1 0) := by decide

/-! ### The compressed vector -/

/-- Scenario 1: six values, period 2, gamma. -/
theorem witness_BuildRecordsTheSampleTable : (idleUnit .be).cfg.legal ∧ legalReader (idleUnit .be).cfg.nReaders 1 ∧ 1 ≤ 2 ∧
    paramDomain .gamma 0 ∧ (∀ v ∈ ([1, 3, 6, 8, 13, 3] : List Word), valueDomain .gamma 0 v.toNat) ∧
    totalLength .gamma 0 [1, 3, 6, 8, 13, 3] = 32 ∧ 32 ≤ (idleUnit .be).cfg.capBits :=
  ⟨by decide, by decide, by decide, trivial, by simp, by decide, by decide⟩

/-- Scenario 6: the empty vector. -/
theorem witness_IterateAfterBuildYieldsTheInput : (idleUnit .le).cfg.legal ∧ legalReader (idleUnit .le).cfg.nReaders 0 ∧
    1 ≤ 1 ∧ paramDomain .gamma 0 ∧ (∀ v ∈ ([] : List Word), valueDomain .gamma 0 v.toNat) ∧
    totalLength .gamma 0 [] ≤ (idleUnit .le).cfg.capBits :=
  ⟨by decide, by decide, by decide, trivial, by simp, by decide⟩

/-- Scenario 4: Rice with k = 3, and an index out of range. -/
theorem witness_GetAfterBuildGivesTheElement : (idleUnit .be).cfg.legal ∧ legalReader (idleUnit .be).cfg.nReaders 1 ∧
    1 ≤ 2 ∧ paramDomain .rice 3 ∧ (∀ v ∈ ([1, 3, 6, 8, 13, 3] : List Word), valueDomain .rice 3 v.toNat) ∧
    totalLength .rice 3 [1, 3, 6, 8, 13, 3] = 26 ∧ 26 ≤ (idleUnit .be).cfg.capBits ∧
    ([1, 3, 6, 8, 13, 3] : List Word).length ≤ 6 :=
  ⟨by decide, by decide, by decide, by decide, by simp [valueDomain], by decide, by decide, by decide⟩

/-- The frozen state of three bits whose invariants `witness_StepKeepsTheStateInvariants` shows. -/
theorem witness_RestoreAfterSaveGivesTheSameStream : (offered 0x00100019 0 0 (reader .le [1, 0, 1] 3 0 0)).Inv ∧
    (offered 0x00100019 0 0 (reader .le [1, 0, 1] 3 0 0)).fault = none ∧
    (offered 0x00100019 0 0 (reader .le [1, 0, 1] 3 0 0)).mode = .frozen ∧
    (VectorRecord.mk 2 1 .gamma 0 [0, 1] 3).bits = (offered 0x00100019 0 0 (reader .le [1, 0, 1] 3 0 0)).wlen :=
  ⟨witness_StepKeepsTheStateInvariants.2.1, rfl, rfl, rfl⟩

end Sys2Proof.Tests
end

section
/-! SUPPORT. The bit order of the buffer: which bit of which byte a bit of a word is (20_memory.md R52, R60), and what the
write of a token leaves at every position (20_memory.md R55). -/

namespace Sys2Proof.Laws

open Sys2Proof.Machine

/-! ### Words -/

/-- Bit k of a number given by its bytes is bit k mod 8 of byte k / 8. -/
theorem testBit_bytesToNat (bytes : List Byte) (k : Nat) (hk : k / 8 < bytes.length) :
    (bytesToNat bytes).testBit k = bytes[k / 8].getLsbD (k % 8) := by
  induction bytes generalizing k with
  | nil => simp at hk
  | cons b rest ih =>
    have hsplit : bytesToNat (b :: rest) = 2 ^ 8 * bytesToNat rest + b.toNat := by simp only [bytesToNat]; omega
    rw [hsplit, Nat.testBit_two_pow_mul_add _ b.isLt]
    by_cases hlow : k < 8
    · simp [hlow, Nat.div_eq_of_lt hlow, Nat.mod_eq_of_lt hlow, BitVec.getLsbD]
    · have hdiv : k / 8 = (k - 8) / 8 + 1 := by omega
      have hmod : k % 8 = (k - 8) % 8 := by omega
      simp only [if_neg hlow, hdiv, hmod, List.getElem_cons_succ]
      exact ih (k - 8) (by simp only [List.length_cons] at hk; omega)

/-- Where bit k of BUF[i] stands when E = BE: the bytes of a word fall in significance (20_memory.md R60). -/
theorem word_getLsbD_be (m : Memory) (i k : Nat) (hk : k < 64) :
    (m.word .be i).getLsbD k = (m.readByte (8 * i + (7 - k / 8))).getLsbD (k % 8) := by
  simp only [Memory.word, BitVec.getLsbD_ofNat, hk, decide_true, Bool.true_and]
  rw [testBit_bytesToNat _ _ (by simp; omega)]
  simp

/-- Where bit k of BUF[i] stands when E = LE: the bytes of a word rise in significance (20_memory.md R60). -/
theorem word_getLsbD_le (m : Memory) (i k : Nat) (hk : k < 64) :
    (m.word .le i).getLsbD k = (m.readByte (8 * i + k / 8)).getLsbD (k % 8) := by
  simp only [Memory.word, BitVec.getLsbD_ofNat, hk, decide_true, Bool.true_and]
  rw [testBit_bytesToNat _ _ (by simp; omega)]
  simp

/-- Position p is bit 63 - p mod 64 of its word when E = BE (20_memory.md R52). -/
theorem bit_eq_word_getLsbD_be (m : Memory) (p : Nat) : m.bit .be p = (m.word .be (p / 64)).getLsbD (63 - p % 64) := by
  have hbyte : 8 * (p / 64) + (7 - (63 - p % 64) / 8) = p / 8 := by omega
  have hbit : (63 - p % 64) % 8 = 7 - p % 8 := by omega
  rw [word_getLsbD_be m _ _ (by omega), hbyte, hbit]
  rfl

/-- Position p is bit p mod 64 of its word when E = LE (20_memory.md R52). -/
theorem bit_eq_word_getLsbD_le (m : Memory) (p : Nat) : m.bit .le p = (m.word .le (p / 64)).getLsbD (p % 64) := by
  have hbyte : 8 * (p / 64) + p % 64 / 8 = p / 8 := by omega
  have hbit : p % 64 % 8 = p % 8 := by omega
  rw [word_getLsbD_le m _ _ (by omega), hbyte, hbit]
  rfl

/-! ### Tokens -/

/-- With n = 0 MemWrite writes nothing (20_memory.md R55). -/
@[simp] theorem memWrite_zero (m : Memory) (e : Endian) (p v : Nat) : m.memWrite e p 0 v = m := rfl

/-- A position of the token holds the token's bit, most significant first when E = BE. -/
theorem bit_memWrite_inside_be (m : Memory) (hm : m.wf) (p n v j : Nat) (hj : j < n) :
    (m.memWrite .be p n v).bit .be (p + j) = (low v n).testBit (n - 1 - j) := by
  rw [Memory.memWrite, bit_writeString_inside .be _ m hm p j (by simpa using hj), tokenString_be]

/-- A position of the token holds the token's bit, least significant first when E = LE. -/
theorem bit_memWrite_inside_le (m : Memory) (hm : m.wf) (p n v j : Nat) (hj : j < n) :
    (m.memWrite .le p n v).bit .le (p + j) = (low v n).testBit j := by
  rw [Memory.memWrite, bit_writeString_inside .le _ m hm p j (by simpa using hj), tokenString_le]

/-- A position outside the token reads as before (20_memory.md R55). -/
theorem bit_memWrite_outside (m : Memory) (hm : m.wf) (e : Endian) (p n v q : Nat) (hq : q < p ∨ p + n ≤ q) :
    (m.memWrite e p n v).bit e q = m.bit e q :=
  bit_writeString_outside e _ m hm p q (by simpa using hq)

/-! ### The statements -/

/-- Settles O26, in each bit order by the byte of the word that position p falls in. -/
theorem positionIsABitOfItsWord : Obligations.PositionIsABitOfItsWord := by
  intro s p
  unfold State.bit State.word
  cases s.cfg.endian with
  | be => exact bit_eq_word_getLsbD_be s.buf p
  | le => exact bit_eq_word_getLsbD_le s.buf p

/-- Settles O27: inside the token, outside it, and the empty token. -/
theorem memWriteLaysTheToken : Obligations.MemWriteLaysTheToken := by
  intro m e p n v hm _
  refine ⟨fun j hj => ?_, fun q hq => bit_memWrite_outside m hm e p n v q hq, ?_⟩
  · cases e with
    | be => exact bit_memWrite_inside_be m hm p n v j hj
    | le => exact bit_memWrite_inside_le m hm p n v j hj
  · rintro rfl
    exact memWrite_zero m e p v

end Sys2Proof.Laws
end

section
/-! SUPPORT. When a command word is illegal: what each check of the decoder refuses, put together opcode by opcode into the
seven cases of 30_encoding.md R89, and what the step does with such a word (60_exceptions.md R265, R269). -/

namespace Sys2Proof.Laws

open Sys2Proof.Machine

/-! ### The checks of the decoder

Each check refuses a word for its own case of R89 or leaves it to the checks after it. -/

section Checks

variable (w : CommandWord) (k : Except IllegalWord Instr)

/-- The cases (b) and (c). -/
@[simp] theorem requireZero_error_iff (usesCodec usesN usesRid : Bool) :
    (∃ e, requireZero usesCodec usesN usesRid w k = .error e) ↔
      reservedBit w ≠ 0 ∨ topField w ≠ 0 ∨ (usesCodec = false ∧ (codecField w).toNat ≠ 0) ∨
        (usesN = false ∧ (nField w).toNat ≠ 0) ∨ (usesRid = false ∧ (ridField w).toNat ≠ 0) ∨ ∃ e, k = .error e := by
  simp only [requireZero, ne_eq, BitVec.toNat_eq, BitVec.ofNat_eq_ofNat, BitVec.toNat_ofNat, Nat.zero_mod]
  split
  case isTrue hreserved => simp only [Except.error.injEq, exists_eq', true_iff]; tauto
  case isFalse hreserved =>
    split
    case isTrue hunused => simp only [Except.error.injEq, exists_eq', true_iff]; tauto
    case isFalse hunused => tauto

/-- The case (d). -/
@[simp] theorem requireCount_error_iff :
    (∃ e, requireCount w k = .error e) ↔ 64 < (nField w).toNat ∨ ∃ e, k = .error e := by
  by_cases h : legalCount (nField w)
  · simp [requireCount, h, Nat.not_lt.mpr h]
  · simp [requireCount, h, Nat.lt_of_not_le h]

/-- The case (e). -/
@[simp] theorem requireCsr_error_iff :
    (∃ e, requireCsr w k = .error e) ↔ 3 < (nField w).toNat ∨ ∃ e, k = .error e := by
  by_cases h : legalCsr (nField w)
  · simp [requireCsr, h, Nat.not_lt.mpr h]
  · simp [requireCsr, h, Nat.lt_of_not_le h]

/-- The case (f). -/
@[simp] theorem requireReader_error_iff (nReaders : Nat) :
    (∃ e, requireReader nReaders w k = .error e) ↔ nReaders ≤ (ridField w).toNat ∨ ∃ e, k = .error e := by
  by_cases h : legalReader nReaders (ridField w)
  · simp [requireReader, h, Nat.not_le.mpr h]
  · simp [requireReader, h, Nat.le_of_not_lt h]

/-- The case (g). -/
@[simp] theorem selectCodec_error_iff (gamma delta expGolomb zeta rice minbin : Instr) :
    (∃ e, selectCodec w gamma delta expGolomb zeta rice minbin = .error e) ↔ 5 < (codecField w).toNat := by
  unfold selectCodec
  split
  case h_7 =>
    have hreserved : 5 < (codecField w).toNat := by grind
    exact iff_of_true ⟨_, rfl⟩ hreserved
  all_goals
    next hcodec => simp [hcodec]

end Checks

/-! ### The seven cases -/

/-- The seven cases of R89 for a word whose opcode is known. -/
theorem illegalByRule_of_op {nReaders op : Nat} {w : CommandWord} (hop : (opField w).toNat = op) :
    illegalByRule nReaders w ↔
      op ∉ [0x01, 0x02, 0x03, 0x10, 0x11, 0x12, 0x18, 0x19, 0x1A, 0x1B, 0x20, 0x21, 0x22] ∨
      reservedBit w ≠ 0 ∨ topField w ≠ 0 ∨
      (op ∉ [0x20, 0x21, 0x22] ∧ (codecField w).toNat ≠ 0) ∨ (op ∉ [0x02, 0x10, 0x18] ∧ (nField w).toNat ≠ 0) ∨
      (op ∉ [0x18, 0x19, 0x1A, 0x1B, 0x21] ∧ (ridField w).toNat ≠ 0) ∨
      (op ∈ [0x10, 0x18] ∧ 64 < (nField w).toNat) ∨
      (op = 0x02 ∧ 3 < (nField w).toNat) ∨
      (op ∈ [0x18, 0x19, 0x1A, 0x1B, 0x21] ∧ nReaders ≤ (ridField w).toNat) ∨
      (op ∈ [0x20, 0x21, 0x22] ∧ 5 < (codecField w).toNat) := by
  subst hop
  rfl

/-- The decoder refuses a word in exactly the seven cases of R89: each opcode of R84 by the checks of its row, every other
opcode as reserved. -/
theorem decode_error_iff (nReaders : Nat) (w : CommandWord) :
    (∃ e, decode nReaders w = .error e) ↔ illegalByRule nReaders w := by
  unfold decode
  split
  case h_14 =>
    refine iff_of_true ⟨_, rfl⟩ ((illegalByRule_of_op rfl).mpr (.inl ?reserved))
    simp_all
  all_goals
    next hop => simp [illegalByRule_of_op hop]

/-! ### The step on an illegal word -/

/-- A step with a command next on the port runs its word, the operands on the ports. -/
theorem step_command {s : State} {w : CommandWord} {a b : Word} {rest : List HostEvent}
    (h : s.inputs = .command w a b :: rest) : step s = runWord w (s.accept a b rest) := by
  simp only [step, h]

/-- A word the decoder refuses raises IllegalCommand when no fault is recorded, and writes FAULT and the answer only. -/
theorem runWord_of_error {s : State} {w : CommandWord} {e : IllegalWord} (he : decode s.cfg.nReaders w = .error e)
    (hf : s.fault = none) : runWord w s = .next (s.faulted .illegalCommand) :=
  calc runWord w s
    _ = illegal s := by simp only [runWord, he]
    _ = raise s .illegalCommand := by simp [illegal, hf]
    _ = .next (s.faulted .illegalCommand) := rfl

/-! ### The statement -/

/-- Settles O3: the words by the decoder's checks, the step by what an illegal word does. -/
theorem illegalWordsAreTheSevenCases : Obligations.IllegalWordsAreTheSevenCases := by
  refine ⟨decode_error_iff, fun s w a b rest hin hf hill => ?_⟩
  obtain ⟨e, he⟩ := (decode_error_iff s.cfg.nReaders w).mpr hill
  rw [step_command hin]
  exact runWord_of_error he hf

end Sys2Proof.Laws
end

section
/-! SUPPORT. The codec contract (41_codec_contract.md): what each parse procedure reads where a codeword stands, that a
codeword has the length its LEN rule states, and so that DEC gives back what ENC wrote (R149). -/

namespace Sys2Proof.Laws

open Sys2Proof.Machine

variable {s t : State}

/-! ### Codewords that stand in the stream -/

/-- The tokens stand in the stream from position p on, all of them below WLEN. -/
def Stands (s : State) (p : Nat) (ts : List Token) : Prop :=
  p + codeLength ts ≤ s.wlen ∧ s.holds p (codeString s.cfg.endian ts)

theorem stands_append {p : Nat} {ts us : List Token} :
    Stands s p (ts ++ us) ↔ Stands s p ts ∧ Stands s (p + codeLength ts) us := by
  simp only [Stands, codeString_append, codeLength_append, holds_append, codeString_length]
  constructor
  · rintro ⟨hw, hts, hus⟩
    exact ⟨⟨by omega, hts⟩, by omega, hus⟩
  · rintro ⟨⟨_, hts⟩, hw, hus⟩
    exact ⟨by omega, hts, hus⟩

theorem stands_cons {p : Nat} {t : Token} {ts : List Token} :
    Stands s p (t :: ts) ↔ Stands s p [t] ∧ Stands s (p + t.length) ts := by
  simpa using stands_append (s := s) (p := p) (ts := [t]) (us := ts)

theorem readUnaryAt_of_stands {p q : Nat} (h : Stands s p [.unary q]) : readUnaryAt s p = .value q (p + q + 1) := by
  obtain ⟨hw, hq⟩ := h
  refine readUnaryAt_of_holds p q ?_ (by simpa [Token.string] using hq)
  simp only [codeLength_cons, codeLength_nil, Token.length] at hw
  omega

theorem readBitsAt_of_stands {p v n : Nat} (hv : v < 2 ^ n) (h : Stands s p [.binary v n]) :
    readBitsAt s p n = .value v (p + n) := by
  obtain ⟨hw, hn⟩ := h
  exact readBitsAt_of_holds p n v hv (by simpa [Token.length] using hw) (by simpa [Token.string] using hn)

/-- A codeword still stands in a later stream that has its bits below WLEN. -/
theorem stands_of_appended {u : State} {ts : List Token} (h : s.Appended t (codeString s.cfg.endian ts))
    (hcfg : u.cfg = s.cfg) (hw : t.wlen ≤ u.wlen) (hb : ∀ p, s.wlen ≤ p → p < t.wlen → u.bit p = t.bit p) :
    Stands u s.wlen ts := by
  have hcur := h.cursor
  rw [codeString_length] at hcur
  refine ⟨by omega, ?_⟩
  rw [hcfg]
  intro j hj
  have hlen : j < codeLength ts := by simpa using hj
  rw [hb _ (by omega) (by omega), h.written j hj]

/-! ### The contract of one codec -/

/-- What ties the three parts of a codec together: for every accepted 64-bit x the codeword has the stated length, and
the parse procedure gives x and stops behind the codeword wherever that stands (R141, R144, R146, R149). -/
structure Faithful (c : Codec) : Prop where
  /-- The length rule gives the length of the codeword. -/
  length : ∀ {param x : Nat}, c.paramOk param = true → c.valueOk param x = true →
    codeLength (c.code param x) = c.len param x
  /-- The parse procedure inverts the code. -/
  parse : ∀ {param x : Nat} {s : State} {p : Nat}, c.paramOk param = true → c.valueOk param x = true →
    x ≤ 2 ^ 64 - 1 → Stands s p (c.code param x) → c.parse param s p = .value x (p + codeLength (c.code param x))

/-! ### Gamma and delta -/

/-- A number less its leading bit fits the bits below it. -/
theorem sub_two_pow_flog2_lt (x : Nat) : x + 1 - 2 ^ flog2 (x + 1) < 2 ^ flog2 (x + 1) := by
  obtain ⟨_, hhi⟩ := flog2_spec (n := x + 1) (by omega)
  rw [Nat.pow_succ] at hhi
  omega

/-- The end that the parse procedures of gamma and delta share: the bits below the leading bit of x + 1 (R162, R167). -/
theorem mantissa_of_stands {x p : Nat} (hx : x ≤ 2 ^ 64 - 2)
    (h : Stands s p [.binary (x + 1 - 2 ^ flog2 (x + 1)) (flog2 (x + 1))]) :
    (if flog2 (x + 1) ≤ 63 then
      (readBitsAt s p (flog2 (x + 1))).andThen fun r pos => .value (2 ^ flog2 (x + 1) + r - 1) pos
    else .fails .malformedStream) = .value x (p + flog2 (x + 1)) := by
  have hlt : flog2 (x + 1) < 64 := flog2_lt (by omega) (by omega)
  obtain ⟨hlo, _⟩ := flog2_spec (n := x + 1) (by omega)
  have hval : 2 ^ flog2 (x + 1) + (x + 1 - 2 ^ flog2 (x + 1)) - 1 = x := by omega
  rw [if_pos (by omega), readBitsAt_of_stands (sub_two_pow_flog2_lt x) h]
  simp only [Parsed.andThen, hval]

theorem codeLength_gammaCode (x : Nat) : codeLength (gammaCode x) = gammaLength x := by
  simp only [gammaCode, gammaLength, codeLength_cons, codeLength_nil, Token.length]
  omega

/-- R162 where a gamma codeword stands. -/
theorem gammaParse_of_stands {x p : Nat} (hx : x ≤ 2 ^ 64 - 2) (h : Stands s p (gammaCode x)) :
    gammaParse s p = .value x (p + codeLength (gammaCode x)) := by
  obtain ⟨hrun, hrest⟩ := stands_cons.mp h
  rw [gammaParse, readUnaryAt_of_stands hrun]
  refine (mantissa_of_stands hx hrest).trans ?_
  rw [codeLength_gammaCode, gammaLength, Token.length]
  congr 1
  omega

theorem gamma_faithful : Faithful gamma where
  length _ _ := codeLength_gammaCode _
  parse _ hx _ h := gammaParse_of_stands (of_decide_eq_true hx) h

/-- R167 where a delta codeword stands: the exponent by its gamma codeword, then the bits below the leading bit. -/
theorem deltaParse_of_stands {x p : Nat} (hx : x ≤ 2 ^ 64 - 2) (h : Stands s p (deltaCode x)) :
    deltaParse s p = .value x (p + codeLength (deltaCode x)) := by
  obtain ⟨hexp, hrest⟩ := stands_append.mp h
  have hlt : flog2 (x + 1) < 64 := flog2_lt (by omega) (by omega)
  rw [deltaParse, gammaParse_of_stands (by omega) hexp]
  refine (mantissa_of_stands hx hrest).trans ?_
  simp [deltaCode, Token.length, Nat.add_assoc]

theorem delta_faithful : Faithful delta where
  length _ _ := by simp [delta, deltaCode, deltaLength, codeLength_gammaCode, gammaLength, Token.length]
  parse _ hx _ h := deltaParse_of_stands (of_decide_eq_true hx) h

/-! ### Exp-Golomb and Rice -/

/-- The end that the parse procedures of exp-Golomb and Rice share (R182, R187). -/
theorem quotientThenRemainder_of_stands {k x p : Nat} (hx : x ≤ 2 ^ 64 - 1) (h : Stands s p [.binary (x % 2 ^ k) k]) :
    quotientThenRemainder k s (x / 2 ^ k) p = .value x (p + k) := by
  have hval : x / 2 ^ k * 2 ^ k + x % 2 ^ k = x := Nat.div_add_mod' x _
  rw [quotientThenRemainder, readBitsAt_of_stands (Nat.mod_lt _ (Nat.two_pow_pos k)) h]
  simp only [Parsed.andThen, hval, if_pos hx]

/-- Every quotient of an accepted value has a gamma codeword: k = 0 leaves out x = 2^64 - 1 (R180). -/
theorem quotient_le_of_shiftValueOk {k x : Nat} (hx : x ≤ 2 ^ 64 - 1) (h : shiftValueOk k x = true) :
    x / 2 ^ k ≤ 2 ^ 64 - 2 := by
  have h : ¬ (k = 0 ∧ x = 2 ^ 64 - 1) := of_decide_eq_true h
  cases k with
  | zero => simp only [Nat.pow_zero, Nat.div_one]; omega
  | succ k =>
    have hhalf : x / 2 ^ (k + 1) ≤ x / 2 := by
      rw [Nat.pow_succ', ← Nat.div_div_eq_div_mul]
      exact Nat.div_le_self _ _
    omega

theorem expGolomb_faithful : Faithful expGolomb where
  length _ _ := by
    simp [expGolomb, expGolombCode, expGolombLength, codeLength_gammaCode, gammaLength, Token.length]
  parse {k x s p} _ hv hx h := by
    obtain ⟨hquot, hrem⟩ := stands_append.mp h
    show expGolombParse k s p = _
    rw [expGolombParse, gammaParse_of_stands (quotient_le_of_shiftValueOk hx hv) hquot]
    refine (quotientThenRemainder_of_stands hx hrem).trans ?_
    simp [expGolomb, expGolombCode, Token.length, Nat.add_assoc]

theorem rice_faithful : Faithful rice where
  length _ _ := by simp [rice, riceCode, riceLength, Token.length]
  parse {k x s p} _ _ hx h := by
    obtain ⟨hquot, hrem⟩ := stands_cons.mp h
    show riceParse k s p = _
    rw [riceParse, readUnaryAt_of_stands hquot]
    refine (quotientThenRemainder_of_stands hx hrem).trans ?_
    simp [rice, riceCode, Token.length, Nat.add_assoc]

/-! ### Minimal binary -/

theorem minbinCode_short {u x : Nat} (h : x < minbinLimit u) : minbinCode u x = [.binary x (flog2 u)] := if_pos h

theorem minbinCode_long {u x : Nat} (h : minbinLimit u ≤ x) :
    minbinCode u x = [.binary ((x + minbinLimit u) / 2) (flog2 u), .binary ((x + minbinLimit u) % 2) 1] :=
  if_neg (Nat.not_lt.mpr h)

theorem codeLength_minbinCode (u x : Nat) : codeLength (minbinCode u x) = minbinLength u x := by
  by_cases h : x < minbinLimit u
  · simp [minbinCode_short h, minbinLength, h, Token.length]
  · simp [minbinCode_long (Nat.not_lt.mp h), minbinLength, h, Token.length]

/-- The limit and u make up the power of two above u, and the limit is at most the power of two below it (R205). -/
theorem minbinLimit_bounds {u : Nat} (hu : 1 ≤ u) :
    minbinLimit u + u = 2 * 2 ^ flog2 u ∧ minbinLimit u ≤ 2 ^ flog2 u := by
  obtain ⟨hlo, hhi⟩ := flog2_spec hu
  rw [Nat.pow_succ] at hhi
  rw [minbinLimit, Nat.pow_succ]
  omega

/-- R207 where a minimal binary codeword stands: the high bits of a long codeword are at or above the limit, so the
parse procedure tells the two forms apart. -/
theorem minbinParse_of_stands {u x p : Nat} (hx : x < u) (h : Stands s p (minbinCode u x)) :
    minbinParse u s p = .value x (p + codeLength (minbinCode u x)) := by
  obtain ⟨hsum, hle⟩ := minbinLimit_bounds (u := u) (by omega)
  by_cases hlim : x < minbinLimit u
  case pos =>
    rw [minbinCode_short hlim] at h ⊢
    rw [minbinParse, readBitsAt_of_stands (by omega) h]
    simp [Parsed.andThen, hlim, Token.length]
  case neg =>
    rw [minbinCode_long (Nat.not_lt.mp hlim)] at h ⊢
    obtain ⟨hhigh, hlast⟩ := stands_cons.mp h
    have hlast := readBitsAt_of_stands (by omega) hlast
    have hlong : ¬ (x + minbinLimit u) / 2 < minbinLimit u := by omega
    have hval : 2 * ((x + minbinLimit u) / 2) + (x + minbinLimit u) % 2 - minbinLimit u = x := by omega
    rw [minbinParse, readBitsAt_of_stands (by omega) hhigh]
    simp only [Token.length] at hlast
    simp only [Parsed.andThen, if_neg hlong, hlast, hval]
    simp [Token.length, Nat.add_assoc]

theorem minbin_faithful : Faithful minbin where
  length _ _ := codeLength_minbinCode _ _
  parse _ hx _ h := minbinParse_of_stands (of_decide_eq_true hx) h

/-! ### Zeta -/

/-- Half of the end of the interval of level h is at least its start, since k >= 1. -/
theorem zetaLow_le_half_end {k : Nat} (hk : 1 ≤ k) (h : Nat) :
    zetaLow k h ≤ 2 ^ (h * k + k - 1) ∧ 2 ^ ((h + 1) * k) = 2 * 2 ^ (h * k + k - 1) := by
  refine ⟨Nat.pow_le_pow_right (by omega) (by omega), ?_⟩
  rw [← Nat.pow_succ', Nat.succ_mul]
  congr 1
  omega

theorem flog2_zetaWidth {k : Nat} (hk : 1 ≤ k) (h : Nat) : flog2 (zetaWidth k h) = h * k + k - 1 := by
  obtain ⟨hlow, hend⟩ := zetaLow_le_half_end hk h
  have hpos : 0 < zetaLow k h := Nat.two_pow_pos _
  refine flog2_unique ?_ ?_ <;> rw [zetaWidth, hend]
  · omega
  · rw [Nat.pow_succ]; omega

/-- The minimal binary code of an interval gives its short codewords to as many values as lie below the interval. -/
theorem minbinLimit_zetaWidth {k : Nat} (hk : 1 ≤ k) (h : Nat) : minbinLimit (zetaWidth k h) = zetaLow k h := by
  obtain ⟨hlow, hend⟩ := zetaLow_le_half_end hk h
  rw [minbinLimit, flog2_zetaWidth hk, Nat.pow_succ, zetaWidth, hend]
  omega

/-- x + 1 lies in the interval of its level (R200). -/
theorem zetaLevel_spec {k : Nat} (hk : 1 ≤ k) (x : Nat) :
    zetaLow k (zetaLevel k x) ≤ x + 1 ∧
      x + 1 - zetaLow k (zetaLevel k x) < zetaWidth k (zetaLevel k x) := by
  obtain ⟨hlo, hhi⟩ := flog2_spec (n := x + 1) (by omega)
  have hstart : zetaLow k (zetaLevel k x) ≤ 2 ^ flog2 (x + 1) :=
    Nat.pow_le_pow_right (by omega) (Nat.div_mul_le_self _ _)
  have hend : 2 ^ (flog2 (x + 1) + 1) ≤ 2 ^ ((zetaLevel k x + 1) * k) :=
    Nat.pow_le_pow_right (by omega) (Nat.succ_mul _ k ▸ Nat.lt_div_mul_add hk)
  rw [zetaWidth]
  omega

/-- The three cases of LEN.ZETA (R204) are the run and the minimal binary codeword. -/
theorem codeLength_zetaCode {k : Nat} (hk : 1 ≤ k) (x : Nat) : codeLength (zetaCode k x) = zetaLength k x := by
  obtain ⟨hlo, hhi⟩ := zetaLevel_spec hk x
  simp only [zetaCode, zetaLength, codeLength_cons, Token.length, codeLength_minbinCode, minbinLength,
    minbinLimit_zetaWidth hk, flog2_zetaWidth hk]
  by_cases hone : k = 1
  case pos =>
    subst hone
    obtain ⟨_, hend⟩ := zetaLow_le_half_end hk (zetaLevel 1 x)
    have hshort : x + 1 - zetaLow 1 (zetaLevel 1 x) < zetaLow 1 (zetaLevel 1 x) := by
      simp only [zetaWidth, zetaLow, Nat.mul_one, Nat.add_sub_cancel] at hhi hend ⊢
      omega
    simp only [if_pos hshort, if_true, Nat.mul_one]
    omega
  case neg =>
    have hshort : x + 1 - zetaLow k (zetaLevel k x) < zetaLow k (zetaLevel k x) ↔
        x + 1 < 2 * 2 ^ (zetaLevel k x * k) := by
      simp only [zetaLow] at hlo ⊢
      omega
    simp only [hshort, if_neg hone]
    split <;> omega

/-- R203 where a zeta codeword stands. -/
theorem zetaParse_of_stands {k x p : Nat} (hk : 1 ≤ k) (hfit : (zetaLevel k x + 1) * k ≤ 64)
    (h : Stands s p (zetaCode k x)) : zetaParse k s p = .value x (p + codeLength (zetaCode k x)) := by
  obtain ⟨hlo, hhi⟩ := zetaLevel_spec hk x
  obtain ⟨hrun, hrest⟩ := stands_cons.mp h
  have hval : zetaLow k (zetaLevel k x) + (x + 1 - zetaLow k (zetaLevel k x)) - 1 = x := by omega
  have hrest := minbinParse_of_stands hhi hrest
  simp only [Token.length, ← Nat.add_assoc] at hrest
  rw [zetaParse, readUnaryAt_of_stands hrun]
  simp only [Parsed.andThen, if_pos hfit, hrest, hval]
  simp [zetaCode, Token.length, Nat.add_assoc]

theorem zeta_faithful : Faithful zeta where
  length hk _ := codeLength_zetaCode (of_decide_eq_true hk).1 _
  parse hk hx _ h := zetaParse_of_stands (of_decide_eq_true hk).1 (of_decide_eq_true hx).2 h

/-! ### The six codecs -/

theorem codec_faithful : (c : CodecName) → Faithful c.codec
  | .gamma => gamma_faithful
  | .delta => delta_faithful
  | .expGolomb => expGolomb_faithful
  | .zeta => zeta_faithful
  | .rice => rice_faithful
  | .minbin => minbin_faithful

theorem exec_enc (c : CodecName) (s : State) : exec c.enc s = encodeWith c.codec s := by
  cases c <;> rfl

theorem exec_dec (c : CodecName) (rid : BitVec 4) (s : State) : exec (c.dec rid) s = decodeWith c.codec rid s := by
  cases c <;> rfl

/-! ### ENC, then DEC -/

/-- An ENC that raises no fault had an accepted input, and appended its codeword (R143). -/
theorem appended_of_encodeWith {c : Codec} (hs : s.buf.wf) (hf : s.fault = none) (he : encodeWith c s = .next t)
    (ht : t.fault = none) :
    c.paramOk s.b = true ∧ c.valueOk s.b s.a = true ∧ s.Appended t (codeString s.cfg.endian (c.code s.b s.a)) := by
  rcases encodeWith_cases c s with ⟨hsome, _⟩ | ⟨_, _, e⟩ | ⟨_, _, _, e⟩ | ⟨_, _, _, _, e⟩ | ⟨_, _, _, _, _, e⟩ |
    ⟨_, _, hparam, hvalue, _, e⟩
  case inl => simp [hf] at hsome
  case inr.inr.inr.inr.inr =>
    rw [e, finish_next] at he
    subst he
    obtain ⟨hwritten, houtside, hcursor, hrest, hport⟩ := append_appended hs (codeString s.cfg.endian (c.code s.b s.a))
    exact ⟨hparam, hvalue, hwritten, houtside, hcursor, hrest, hport⟩
  all_goals
    rw [e, raise_next] at he
    simp [he] at ht

/-- A DEC that is let through and whose parse procedure gives a value answers it and moves its cursor only (R144). -/
theorem decodeWith_of_parse {c : Codec} {rid : BitVec 4} {x pos : Nat} (hr : s.canRead rid) (hp : c.paramOk s.b = true)
    (hparse : c.parse s.b s (s.cursor rid).toNat = .value x pos) :
    ∃ v, decodeWith c rid s = .next v ∧ v.reply = okReply x ∧ s.ReadTo v rid pos := by
  obtain ⟨hfault, hreader, hmode⟩ := hr
  have hdec : decodeWith c rid s = finish (s.setCursor rid (BitVec.ofNat 64 pos)) (BitVec.ofNat 64 x) := by
    simpa [hfault, hreader, hmode, hp, hparse, finishRead] using decodeWith_cases c rid s
  exact ⟨_, hdec, rfl, cursor_setCursor_self s rid _, fun _ h => cursor_setCursor_of_ne s _ h, ⟨rfl, rfl, rfl, rfl⟩,
    ⟨rfl, rfl, rfl, rfl⟩⟩

/-- Settles O55: ENC leaves the codeword at the old WLEN, it still stands there in the later state, and the parse
procedure of a faithful codec gives the value back. -/
theorem decodeUndoesEncode : Obligations.DecodeUndoesEncode := by
  intro c rid s t u hs hf he ht hcfg hr hB hcur hw hb
  rw [exec_enc] at he
  obtain ⟨hparam, hvalue, happ⟩ := appended_of_encodeWith hs hf he ht
  have hfaith := codec_faithful c
  have hend : t.wlen = s.wlen + codeLength (c.codec.code s.b s.a) := by simpa using happ.cursor
  have hbu : u.b = s.b := congrArg BitVec.toNat hB
  have hparse := hfaith.parse hparam hvalue (Nat.le_pred_of_lt s.opA.isLt) (stands_of_appended happ hcfg hw hb)
  rw [← hend, ← hbu, ← hcur] at hparse
  obtain ⟨v, hv, hreply, hread⟩ := decodeWith_of_parse hr (hbu ▸ hparam) hparse
  exact ⟨v, (exec_dec c rid u).trans hv, hreply, hread, hend.trans (by rw [hfaith.length hparam hvalue]; rfl)⟩

end Sys2Proof.Laws
end

section
/-! SUPPORT. The faults a command raises: the checks of every command in the order of 60_exceptions.md R268 as one table,
how every command ends by it (R265, R266), and what every command does while a fault is recorded (R267). -/

namespace Sys2Proof.Laws

open Sys2Proof.Machine

variable {s t : State}

/-! ### How an answer shows a fault -/

@[simp] theorem raise_eq_faulted_iff {c d : FaultCode} : raise s c = .next (s.faulted d) ↔ c = d := by
  constructor
  · intro h
    have hfault := congrArg State.fault (raise_next.mp h)
    exact (Option.some.inj hfault).symm
  · rintro rfl
    rfl

/-- A command that completes answers status 0, which is the code of no fault. -/
theorem finish_ne_faulted (u : State) (v : Word) (d : FaultCode) : finish u v ≠ .next (s.faulted d) := by
  intro h
  have hreply := congrArg State.reply (finish_next.mp h)
  cases d <;> cases hreply

/-- A command that is blocked answers status 15, which is the code of no fault. -/
theorem blocked_ne_faulted (d : FaultCode) : blocked s ≠ .next (s.faulted d) := by
  intro h
  have hreply := congrArg State.reply (blocked_next.mp h)
  cases d <;> cases hreply

/-! ### The checks of a command in their order -/

/-- The fault that ends a read at a cursor, if one does. -/
def readFault : Parsed → Option FaultCode
  | .value _ _ => none
  | .fails c => some c

/-- The checks of a command of a reader context: the fields of its word, MODE, then its own (60_exceptions.md R268). -/
def readerFault (s : State) (fieldsOk : Prop) [Decidable fieldsOk] (own : Option FaultCode) : Option FaultCode :=
  if ¬ fieldsOk then some .illegalCommand
  else if s.mode ≠ .frozen then some .modeViolation
  else own

/-- The checks of ENC.c (41_codec_contract.md R143). -/
def encFault (c : Codec) (s : State) : Option FaultCode :=
  if s.mode ≠ .building then some .modeViolation
  else if c.paramOk s.b = false then some .invalidParameter
  else if c.valueOk s.b s.a = false then some .valueOutOfDomain
  else if s.cfg.capBits < s.wlen + c.len s.b s.a then some .bufferOverflow
  else none

/-- The checks of DEC.c@rid (41_codec_contract.md R144). -/
def decFault (c : Codec) (rid : BitVec 4) (s : State) : Option FaultCode :=
  readerFault s (legalReader s.cfg.nReaders rid) <|
    if c.paramOk s.b = false then some .invalidParameter else readFault (c.parse s.b s (s.cursor rid).toNat)

/-- The checks of LEN.c (41_codec_contract.md R145). -/
def lenFault (c : Codec) (s : State) : Option FaultCode :=
  if c.paramOk s.b = false then some .invalidParameter
  else if c.valueOk s.b s.a = false then some .valueOutOfDomain
  else none

/-- The first check of a command that does not hold decides its fault (60_exceptions.md R268). -/
def firstFault (s : State) : Instr → Option FaultCode
  | .reset => none
  | .csrr csr => if ¬ legalCsr csr then some .illegalCommand else none
  | .bufRead =>
    if s.mode ≠ .frozen then some .modeViolation
    else if wordsFor s.wlen ≤ s.a then some .readPastEnd
    else none
  | .writeBits n =>
    if ¬ legalCount n then some .illegalCommand
    else if s.mode ≠ .building then some .modeViolation
    else if s.cfg.capBits < s.wlen + n.toNat then some .bufferOverflow
    else none
  | .writeUnary =>
    if s.mode ≠ .building then some .modeViolation
    else if s.cfg.capBits < s.wlen + s.a + 1 then some .bufferOverflow
    else none
  | .flush => none
  | .readBits rid n =>
    readerFault s (legalCount n ∧ legalReader s.cfg.nReaders rid)
      (readFault (readBitsAt s (s.cursor rid).toNat n.toNat))
  | .readUnary rid =>
    readerFault s (legalReader s.cfg.nReaders rid) (readFault (readUnaryAt s (s.cursor rid).toNat))
  | .setBitPos rid | .getBitPos rid => readerFault s (legalReader s.cfg.nReaders rid) none
  | .encGamma => encFault gamma s
  | .encDelta => encFault delta s
  | .encExpGolomb => encFault expGolomb s
  | .encZeta => encFault zeta s
  | .encRice => encFault rice s
  | .encMinbin => encFault minbin s
  | .decGamma rid => decFault gamma rid s
  | .decDelta rid => decFault delta rid s
  | .decExpGolomb rid => decFault expGolomb rid s
  | .decZeta rid => decFault zeta rid s
  | .decRice rid => decFault rice rid s
  | .decMinbin rid => decFault minbin rid s
  | .lenGamma => lenFault gamma s
  | .lenDelta => lenFault delta s
  | .lenExpGolomb => lenFault expGolomb s
  | .lenZeta => lenFault zeta s
  | .lenRice => lenFault rice s
  | .lenMinbin => lenFault minbin s

/-- How a command ends that no recorded fault blocks: with the fault its checks decide on, or, when they decide on none,
complete, with FAULT still clear. -/
def Settles (s : State) (r : Result) : Option FaultCode → Prop
  | some c => r = raise s c
  | none => ∃ u v, r = finish u v ∧ u.fault = none

theorem Settles.raised (c : FaultCode) : Settles s (raise s c) (some c) := rfl

theorem Settles.complete {u : State} (v : Word) (h : u.fault = none) : Settles s (finish u v) none := ⟨u, v, rfl, h⟩

/-- One check: when it does not hold the command ends with its fault, and when it holds the checks after it decide. -/
theorem Settles.check {p : Prop} [Decidable p] {c : FaultCode} {k : Result} {o : Option FaultCode} (h : Settles s k o) :
    Settles s (if p then raise s c else k) (if p then some c else o) := by
  split
  · exact .raised c
  · exact h

/-- The check of the fields of the word, where no fault is recorded. -/
theorem Settles.checkFields (hf : s.fault = none) {p : Prop} [Decidable p] {k : Result} {o : Option FaultCode}
    (h : Settles s k o) : Settles s (if p then illegal s else k) (if p then some .illegalCommand else o) := by
  have hill : illegal s = raise s .illegalCommand := by simp [illegal, hf]
  rw [hill]
  exact .check h

/-- The blocked check lets a command through where no fault is recorded. -/
theorem Settles.unblocked (hf : s.fault = none) {k : Result} {o : Option FaultCode} (h : Settles s k o) :
    Settles s (if s.fault.isSome then blocked s else k) o := by
  simpa [hf] using h

theorem Settles.read (hf : s.fault = none) (rid : BitVec 4) (r : Parsed) :
    Settles s (finishRead s rid r) (readFault r) := by
  cases r with
  | value x pos => exact .complete _ hf
  | fails c => exact .raised c

theorem Settles.eq_faulted_iff {r : Result} {o : Option FaultCode} (h : Settles s r o) (d : FaultCode) :
    r = .next (s.faulted d) ↔ o = some d := by
  cases o with
  | some c =>
    have hr : r = raise s c := h
    rw [hr, raise_eq_faulted_iff, Option.some.injEq]
  | none =>
    obtain ⟨u, v, rfl, _⟩ := h
    exact iff_of_false (finish_ne_faulted u v d) (by simp)

/-! ### Each command ends by its checks -/

section Unblocked

variable (hf : s.fault = none)
include hf

theorem execCsrr_settles (csr : BitVec 7) : Settles s (execCsrr csr s) (firstFault s (.csrr csr)) := by
  have hreg := controlRegister_isSome csr s
  rcases execCsrr_cases csr s with ⟨v, hv, e⟩ | ⟨hnone, e⟩ <;> rw [e]
  · have hlegal : legalCsr csr := hreg.mp (by simp [hv])
    simpa [firstFault, hlegal] using Settles.complete v hf
  · have hlegal : ¬ legalCsr csr := fun h => by simpa [hnone] using hreg.mpr h
    simpa [firstFault, illegal, hf, hlegal] using Settles.raised (s := s) .illegalCommand

theorem execFlush_settles : Settles s (execFlush s) none := by
  rcases execFlush_cases s with ⟨h, _⟩ | ⟨_, _, e⟩ | ⟨_, _, e⟩
  · simp [hf] at h
  · exact e ▸ .complete _ hf
  · exact e ▸ .complete _ hf

theorem encodeWith_settles (c : Codec) : Settles s (encodeWith c s) (encFault c s) := by
  unfold encodeWith
  rw [layTokens_eq_append]
  exact .unblocked hf (.check (.check (.check (.check (.complete _ hf)))))

theorem decodeWith_settles (c : Codec) (rid : BitVec 4) : Settles s (decodeWith c rid s) (decFault c rid s) :=
  .unblocked hf (.checkFields hf (.check (.check (.read hf rid _))))

theorem lengthWith_settles (c : Codec) : Settles s (lengthWith c s) (lenFault c s) :=
  .unblocked hf (.check (.check (.complete _ hf)))

/-- Every command that no recorded fault blocks ends with the fault its checks decide on, or complete. -/
theorem exec_settles : (i : Instr) → Settles s (exec i s) (firstFault s i)
  | .reset => .complete _ (resetUnit_fault s)
  | .csrr csr => execCsrr_settles hf csr
  | .bufRead => .unblocked hf (.check (.check (.complete _ hf)))
  | .writeBits _ => .unblocked hf (.checkFields hf (.check (.check (.complete _ hf))))
  | .writeUnary => .unblocked hf (.check (.check (.complete _ hf)))
  | .flush => execFlush_settles hf
  | .readBits rid _ => .unblocked hf (.checkFields hf (.check (.read hf rid _)))
  | .readUnary rid => .unblocked hf (.checkFields hf (.check (.read hf rid _)))
  | .setBitPos _ => .unblocked hf (.checkFields hf (.check (.complete _ hf)))
  | .getBitPos _ => .unblocked hf (.checkFields hf (.check (.complete _ hf)))
  | .encGamma => encodeWith_settles hf gamma
  | .encDelta => encodeWith_settles hf delta
  | .encExpGolomb => encodeWith_settles hf expGolomb
  | .encZeta => encodeWith_settles hf zeta
  | .encRice => encodeWith_settles hf rice
  | .encMinbin => encodeWith_settles hf minbin
  | .decGamma rid => decodeWith_settles hf gamma rid
  | .decDelta rid => decodeWith_settles hf delta rid
  | .decExpGolomb rid => decodeWith_settles hf expGolomb rid
  | .decZeta rid => decodeWith_settles hf zeta rid
  | .decRice rid => decodeWith_settles hf rice rid
  | .decMinbin rid => decodeWith_settles hf minbin rid
  | .lenGamma => lengthWith_settles hf gamma
  | .lenDelta => lengthWith_settles hf delta
  | .lenExpGolomb => lengthWith_settles hf expGolomb
  | .lenZeta => lengthWith_settles hf zeta
  | .lenRice => lengthWith_settles hf rice
  | .lenMinbin => lengthWith_settles hf minbin

end Unblocked

/-! ### What a recorded fault does -/

/-- Every command but RESET and CSRR makes the blocked check first (60_exceptions.md R265). -/
theorem exec_eq_blocked (hf : s.fault ≠ none) {i : Instr} (hreset : i ≠ .reset) (hcsrr : ∀ csr, i ≠ .csrr csr) :
    exec i s = blocked s := by
  have hsome : s.fault.isSome = true := Option.isSome_iff_ne_none.mpr hf
  cases i
  case reset => exact absurd rfl hreset
  case csrr csr => exact absurd rfl (hcsrr csr)
  all_goals exact if_pos hsome

theorem illegal_eq_blocked (hf : s.fault ≠ none) : illegal s = blocked s := by
  rcases illegal_cases s with ⟨_, e⟩ | ⟨hnone, _⟩
  · exact e
  · exact absurd hnone hf

/-- While a fault is recorded a command but RESET completes with no change of state, which CSRR alone does, or is blocked
(46_system.md R251; 60_exceptions.md R267). -/
theorem exec_of_fault (hf : s.fault ≠ none) {i : Instr} (hreset : i ≠ .reset) :
    (∃ v, exec i s = finish s v) ∨ exec i s = blocked s := by
  by_cases hcsrr : ∃ csr, i = .csrr csr
  · obtain ⟨csr, rfl⟩ := hcsrr
    rcases execCsrr_cases csr s with ⟨v, _, e⟩ | ⟨_, e⟩
    · exact .inl ⟨v, e⟩
    · exact .inr (e.trans (illegal_eq_blocked hf))
  · exact .inr (exec_eq_blocked hf hreset (not_exists.mp hcsrr))

/-- A recorded fault outlives every command but RESET (60_exceptions.md R266, R267). -/
theorem exec_keeps_fault (hf : s.fault ≠ none) {i : Instr} (hreset : i ≠ .reset) (he : exec i s = .next t) :
    t.fault = s.fault := by
  rcases exec_of_fault hf hreset with ⟨v, e⟩ | e <;> rw [e] at he
  · rw [finish_next.mp he]
  · rw [blocked_next.mp he]

/-! ### When a command raises a fault -/

/-- A command raises a fault exactly when none is recorded and its checks decide on that fault. -/
theorem exec_eq_faulted_iff {i : Instr} {d : FaultCode} :
    exec i s = .next (s.faulted d) ↔ s.fault = none ∧ firstFault s i = some d := by
  by_cases hf : s.fault = none
  · rw [(exec_settles hf i).eq_faulted_iff]
    exact (and_iff_right hf).symm
  · refine iff_of_false (fun he => ?_) fun h => hf h.1
    by_cases hreset : i = .reset
    · subst hreset
      exact finish_ne_faulted _ _ d he
    · rcases exec_of_fault hf hreset with ⟨v, e⟩ | e <;> rw [e] at he
      · exact finish_ne_faulted s v d he
      · exact blocked_ne_faulted d he

/-- A command that ends with a fault recorded where none was has raised it, and written nothing else
(60_exceptions.md R266). -/
theorem eq_faulted_of_fault {i : Instr} {c : FaultCode} (hf : s.fault = none) (he : exec i s = .next t)
    (ht : t.fault = some c) : t = s.faulted c := by
  have hends := exec_settles hf i
  rw [he] at hends
  cases ho : firstFault s i with
  | some d =>
    rw [ho] at hends
    have heq : t = s.faulted d := raise_next.mp hends.symm
    have hcode : some d = some c := by rw [← ht, heq]; rfl
    rw [heq, Option.some.inj hcode]
  | none =>
    rw [ho] at hends
    obtain ⟨u, v, hu, hclear⟩ := hends
    rw [finish_next.mp hu.symm, hclear] at ht
    cases ht

/-- Settles O10: the first clause by the checks of the command, the second by what a recorded fault does. -/
theorem raisedFaultsArePrecise : Obligations.RaisedFaultsArePrecise := by
  intro i s t c he
  refine ⟨fun hf ht => eq_faulted_of_fault hf he ht, fun hf hreset => ?_⟩
  rw [exec_keeps_fault (by simp [hf]) hreset he, hf]

end Sys2Proof.Laws
end

section
/-! SUPPORT. What a step does while a fault is recorded (60_exceptions.md R267). Only a word that decodes to RESET can end
the fault, so the decoder is read backwards first: which words pass each of its checks, and that RESET has one word. -/

namespace Sys2Proof.Laws

open Sys2Proof.Machine

variable {s t : State}

/-! ### The words that decode to a command -/

theorem requireZero_eq_ok {usesCodec usesN usesRid : Bool} {w : CommandWord} {k : Except IllegalWord Instr} {i : Instr} :
    requireZero usesCodec usesN usesRid w k = .ok i ↔
      (reservedBit w = 0 ∧ topField w = 0) ∧ (usesCodec = false → codecField w = 0) ∧ (usesN = false → nField w = 0) ∧
        (usesRid = false → ridField w = 0) ∧ k = .ok i := by
  unfold requireZero
  split
  · simp only [reduceCtorEq, false_iff]; tauto
  · split
    · simp only [reduceCtorEq, false_iff]; tauto
    · tauto

theorem requireCount_eq_ok {w : CommandWord} {k : Except IllegalWord Instr} {i : Instr} :
    requireCount w k = .ok i ↔ legalCount (nField w) ∧ k = .ok i := by
  unfold requireCount
  split <;> simp [*]

theorem requireCsr_eq_ok {w : CommandWord} {k : Except IllegalWord Instr} {i : Instr} :
    requireCsr w k = .ok i ↔ legalCsr (nField w) ∧ k = .ok i := by
  unfold requireCsr
  split <;> simp [*]

theorem requireReader_eq_ok {nReaders : Nat} {w : CommandWord} {k : Except IllegalWord Instr} {i : Instr} :
    requireReader nReaders w k = .ok i ↔ legalReader nReaders (ridField w) ∧ k = .ok i := by
  unfold requireReader
  split <;> simp [*]

/-- The codec selector gives none but the six commands it chooses from. -/
theorem selectCodec_ne_ok {w : CommandWord} {gamma delta expGolomb zeta rice minbin i : Instr}
    (hi : i ∉ [gamma, delta, expGolomb, zeta, rice, minbin]) :
    selectCodec w gamma delta expGolomb zeta rice minbin ≠ .ok i := by
  intro h
  unfold selectCodec at h
  split at h <;> cases h <;> simp at hi

/-- RESET has one word (30_encoding.md R93). -/
theorem eq_of_decode_reset {nReaders : Nat} {w : CommandWord} (h : decode nReaders w = .ok .reset) : w = 0x00000001 := by
  unfold decode at h
  split at h
  case h_1 hop =>
    obtain ⟨⟨hr, ht⟩, hcodec, hn, hrid, _⟩ := requireZero_eq_ok.mp h
    have hop : opField w = 0x01 := BitVec.eq_of_toNat_eq hop
    rw [← commandWord_fields w hr ht, hop, hcodec rfl, hn rfl, hrid rfl]
    rfl
  all_goals
    simp [requireZero_eq_ok, requireCount_eq_ok, requireCsr_eq_ok, requireReader_eq_ok, selectCodec_ne_ok] at h

/-! ### The step while a fault is recorded -/

/-- A word that decodes to neither RESET nor CSRR, illegal words among them, is turned away (60_exceptions.md R267). -/
theorem runWord_of_fault (hf : s.fault ≠ none) {w : CommandWord} (hreset : decode s.cfg.nReaders w ≠ .ok .reset)
    (hcsrr : ∀ csr, decode s.cfg.nReaders w ≠ .ok (.csrr csr)) : runWord w s = .next s.turnedAway := by
  have hblocked : runWord w s = blocked s := by
    rcases runWord_cases w s with ⟨i, hi, e⟩ | ⟨_, _, e⟩
    · rw [hi] at hreset hcsrr
      exact e.trans (exec_eq_blocked hf (fun h => hreset (h ▸ rfl)) fun csr h => hcsrr csr (h ▸ rfl))
    · exact e.trans (illegal_eq_blocked hf)
  exact hblocked

/-- A recorded fault outlives every word but that of RESET (60_exceptions.md R267). -/
theorem runWord_keeps_fault (hf : s.fault ≠ none) {w : CommandWord} (hw : w ≠ 0x00000001)
    (he : runWord w s = .next t) : t.fault = s.fault := by
  rcases runWord_cases w s with ⟨i, hi, e⟩ | ⟨_, _, e⟩ <;> rw [e] at he
  · exact exec_keeps_fault hf (fun hreset => hw (eq_of_decode_reset (hreset ▸ hi))) he
  · rw [illegal_eq_blocked hf] at he
    rw [blocked_next.mp he]

/-- Settles O11: the first clause by the blocked check, the second event by event. -/
theorem recordedFaultBlocksAndSticks : Obligations.RecordedFaultBlocksAndSticks := by
  refine ⟨fun s w a b rest hin hf hreset hcsrr => ?_, fun s t c hf hstep => ?_⟩
  · rw [step_command hin]
    exact runWord_of_fault (s := s.accept a b rest) hf hreset hcsrr
  · rcases step_cases s with ⟨_, e⟩ | ⟨rest, hin, _⟩ | ⟨w, a, b, rest, hin, e⟩
    case inl =>
      rw [e] at hstep
      exact .inl (Host.Outcome.next.inj hstep ▸ hf)
    case inr.inl => exact .inr (.inl ⟨rest, hin⟩)
    case inr.inr =>
      by_cases hw : w = 0x00000001
      · exact .inr (.inr ⟨a, b, rest, hw ▸ hin⟩)
      · rw [e] at hstep
        have hkept := runWord_keeps_fault (s := s.accept a b rest) (by simp [hf]) hw hstep
        exact .inl (hkept.trans hf)

end Sys2Proof.Laws
end

section
/-! SUPPORT. When each fault is raised (60_exceptions.md R270 to R273, R275): what the checks of the commands come to, fault
by fault, over the domains of 41_codec_contract.md R147 and the parse procedures of the six codecs. -/

namespace Sys2Proof.Laws

open Sys2Proof.Machine

variable {s : State}

/-! ### Reading the table of checks -/

/-- A fault is the first when its own check is the first that does not hold. -/
theorem check_eq_some {p : Prop} [Decidable p] {c d : FaultCode} {o : Option FaultCode} :
    (if p then some c else o) = some d ↔ (p ∧ c = d) ∨ (¬ p ∧ o = some d) := by
  split <;> simp [*]

@[simp] theorem readFault_eq_some {r : Parsed} {d : FaultCode} : readFault r = some d ↔ r = .fails d := by
  cases r <;> simp [readFault]

theorem mode_ne_building {m : Mode} : m ≠ .building ↔ m = .frozen := by
  cases m <;> simp

theorem mode_ne_frozen {m : Mode} : m ≠ .frozen ↔ m = .building := by
  cases m <;> simp

theorem readerFault_eq_some {fieldsOk : Prop} [Decidable fieldsOk] {own : Option FaultCode} {d : FaultCode} :
    readerFault s fieldsOk own = some d ↔
      (¬ fieldsOk ∧ .illegalCommand = d) ∨
      (fieldsOk ∧ ((s.mode = .building ∧ .modeViolation = d) ∨ (s.mode = .frozen ∧ own = some d))) := by
  simp only [readerFault, check_eq_some, mode_ne_frozen, mode_ne_building, not_not]

theorem encFault_eq_some {c : Codec} {d : FaultCode} :
    encFault c s = some d ↔
      (s.mode = .frozen ∧ .modeViolation = d) ∨
      (s.mode = .building ∧ ((c.paramOk s.b = false ∧ .invalidParameter = d) ∨
        (c.paramOk s.b = true ∧ ((c.valueOk s.b s.a = false ∧ .valueOutOfDomain = d) ∨
          (c.valueOk s.b s.a = true ∧ s.cfg.capBits < s.wlen + c.len s.b s.a ∧ .bufferOverflow = d))))) := by
  simp [encFault, check_eq_some, mode_ne_building, mode_ne_frozen]

theorem decFault_eq_some {c : Codec} {rid : BitVec 4} {d : FaultCode} :
    decFault c rid s = some d ↔
      (¬ legalReader s.cfg.nReaders rid ∧ .illegalCommand = d) ∨
      (legalReader s.cfg.nReaders rid ∧ ((s.mode = .building ∧ .modeViolation = d) ∨
        (s.mode = .frozen ∧ ((c.paramOk s.b = false ∧ .invalidParameter = d) ∨
          (c.paramOk s.b = true ∧ c.parse s.b s (s.cursor rid).toNat = .fails d))))) := by
  simp only [decFault, readerFault_eq_some, check_eq_some, readFault_eq_some, Bool.not_eq_false]

theorem lenFault_eq_some {c : Codec} {d : FaultCode} :
    lenFault c s = some d ↔
      (c.paramOk s.b = false ∧ .invalidParameter = d) ∨
      (c.paramOk s.b = true ∧ c.valueOk s.b s.a = false ∧ .valueOutOfDomain = d) := by
  simp [lenFault, check_eq_some]

@[simp] theorem firstFault_enc (c : CodecName) : firstFault s c.enc = encFault c.codec s := by cases c <;> rfl

@[simp] theorem firstFault_dec (c : CodecName) (rid : BitVec 4) : firstFault s (c.dec rid) = decFault c.codec rid s := by
  cases c <;> rfl

@[simp] theorem firstFault_len (c : CodecName) : firstFault s c.len = lenFault c.codec s := by cases c <;> rfl

/-! ### The domains of the codecs -/

theorem paramOk_eq_true (c : CodecName) {k : Nat} : c.codec.paramOk k = true ↔ paramDomain c k := by
  cases c <;> simp [CodecName.codec, gamma, delta, expGolomb, zeta, rice, minbin, shiftParamOk]

theorem paramOk_eq_false (c : CodecName) {k : Nat} : c.codec.paramOk k = false ↔ ¬ paramDomain c k := by
  rw [← paramOk_eq_true, Bool.not_eq_true]

theorem valueOk_eq_true (c : CodecName) {k x : Nat} (hx : x < 2 ^ 64) :
    c.codec.valueOk k x = true ↔ valueDomain c k x := by
  have hle : x ≤ 2 ^ 64 - 1 := Nat.le_pred_of_lt hx
  cases c
  case expGolomb | rice =>
    show shiftValueOk k x = true ↔ x ≤ 2 ^ 64 - 1 ∧ ¬ (x = 2 ^ 64 - 1 ∧ k = 0)
    rw [shiftValueOk, decide_eq_true_iff]
    omega
  case zeta => exact decide_eq_true_iff
  all_goals simp [CodecName.codec, gamma, delta, minbin]

theorem valueOk_eq_false (c : CodecName) {k x : Nat} (hx : x < 2 ^ 64) :
    c.codec.valueOk k x = false ↔ ¬ valueDomain c k x := by
  rw [← valueOk_eq_true c hx, Bool.not_eq_true]

/-! ### The faults of a parse procedure -/

/-- A read that fails does so with one of the two stream faults (60_exceptions.md R268). -/
def OnlyStreamFaults (r : Parsed) : Prop := ∀ d, r = .fails d → d = .readPastEnd ∨ d = .malformedStream

theorem OnlyStreamFaults.ne_fails {r : Parsed} {d : FaultCode} (h : OnlyStreamFaults r)
    (hd : d ≠ .readPastEnd ∧ d ≠ .malformedStream) : r ≠ .fails d := fun hr =>
  (h d hr).elim hd.1 hd.2

theorem OnlyStreamFaults.value {x p : Nat} : OnlyStreamFaults (.value x p) := fun _ h => nomatch h

theorem OnlyStreamFaults.malformed : OnlyStreamFaults (.fails .malformedStream) := fun _ h => .inr (by cases h; rfl)

theorem OnlyStreamFaults.readBits {p n : Nat} : OnlyStreamFaults (readBitsAt s p n) :=
  fun _ h => .inl (readBitsAt_eq_fails.mp h).2

theorem OnlyStreamFaults.readUnary {p : Nat} : OnlyStreamFaults (readUnaryAt s p) :=
  fun _ h => .inl (readUnaryAt_eq_fails.mp h).2

theorem OnlyStreamFaults.andThen {r : Parsed} {k : Nat → Nat → Parsed} (hr : OnlyStreamFaults r)
    (hk : ∀ x p, OnlyStreamFaults (k x p)) : OnlyStreamFaults (r.andThen k) := by
  intro d h
  rcases andThen_eq_fails.mp h with h | ⟨x, p, _, h⟩
  · exact hr d h
  · exact hk x p d h

theorem OnlyStreamFaults.ite {c : Prop} [Decidable c] {r r' : Parsed} (h : OnlyStreamFaults r) (h' : OnlyStreamFaults r') :
    OnlyStreamFaults (if c then r else r') := by
  split
  · exact h
  · exact h'

theorem gammaParse_onlyStreamFaults {p : Nat} : OnlyStreamFaults (gammaParse s p) :=
  .andThen .readUnary fun _ _ => .ite (.andThen .readBits fun _ _ => .value) .malformed

theorem minbinParse_onlyStreamFaults {u p : Nat} : OnlyStreamFaults (minbinParse u s p) :=
  .andThen .readBits fun _ _ => .ite .value (.andThen .readBits fun _ _ => .value)

theorem quotientThenRemainder_onlyStreamFaults {k d p : Nat} : OnlyStreamFaults (quotientThenRemainder k s d p) :=
  .andThen .readBits fun _ _ => .ite .value .malformed

theorem parse_onlyStreamFaults {k p : Nat} : (c : CodecName) → OnlyStreamFaults (c.codec.parse k s p)
  | .gamma => gammaParse_onlyStreamFaults
  | .delta =>
    .andThen gammaParse_onlyStreamFaults fun _ _ => .ite (.andThen .readBits fun _ _ => .value) .malformed
  | .expGolomb => .andThen gammaParse_onlyStreamFaults fun _ _ => quotientThenRemainder_onlyStreamFaults
  | .zeta =>
    .andThen .readUnary fun _ _ => .ite (.andThen minbinParse_onlyStreamFaults fun _ _ => .value) .malformed
  | .rice => .andThen .readUnary fun _ _ => quotientThenRemainder_onlyStreamFaults
  | .minbin => minbinParse_onlyStreamFaults

/-! ### ModeViolation -/

theorem encFault_eq_modeViolation {c : Codec} : encFault c s = some .modeViolation ↔ s.mode = .frozen := by
  simp [encFault_eq_some]

theorem readerFault_eq_modeViolation {fieldsOk : Prop} [Decidable fieldsOk] {own : Option FaultCode} (h : fieldsOk)
    (hown : own ≠ some .modeViolation) : readerFault s fieldsOk own = some .modeViolation ↔ s.mode = .building := by
  simp [readerFault_eq_some, h, hown]

theorem readFault_ne_modeViolation {r : Parsed} (h : OnlyStreamFaults r) : readFault r ≠ some .modeViolation := fun hr =>
  h.ne_fails (by decide) (readFault_eq_some.mp hr)

theorem decFault_eq_modeViolation (c : CodecName) {rid : BitVec 4} (h : legalReader s.cfg.nReaders rid) :
    decFault c.codec rid s = some .modeViolation ↔ s.mode = .building := by
  have hparse := readFault_ne_modeViolation (parse_onlyStreamFaults (s := s) (k := s.b) (p := (s.cursor rid).toNat) c)
  refine readerFault_eq_modeViolation h ?_
  split
  · simp
  · exact hparse

theorem lenFault_ne_modeViolation {c : Codec} : lenFault c s ≠ some .modeViolation := by
  simp [lenFault_eq_some]

/-- The mode check of DEC: the six are reader commands. -/
theorem dec_modeViolation_iff (c : CodecName) {rid : BitVec 4} (h : legalReader s.cfg.nReaders rid) :
    firstFault s (c.dec rid) = some .modeViolation ↔
      (isWriter (c.dec rid) = true ∧ s.mode = .frozen) ∨ (isReader (c.dec rid) = true ∧ s.mode = .building) := by
  have hreader : isReader (c.dec rid) = true ∧ isWriter (c.dec rid) = false := by cases c <;> exact ⟨rfl, rfl⟩
  simp [decFault_eq_modeViolation c h, hreader]

/-- Settles O13, by the mode check of each group of commands: writers, readers, and those legal in both modes. -/
theorem modeViolationIsTheWrongMode : Obligations.ModeViolationIsTheWrongMode := by
  intro i s hf hw
  rw [exec_eq_faulted_iff, and_iff_right hf]
  cases i
  case writeBits n =>
    have hlegal : legalCount n := of_decide_eq_true hw
    simp [firstFault, hlegal, isWriter, isReader, readerOf, mode_ne_building]
  case writeUnary => simp [firstFault, isWriter, isReader, readerOf, mode_ne_building]
  case encGamma | encDelta | encExpGolomb | encZeta | encRice | encMinbin =>
    simp [firstFault, encFault_eq_modeViolation, isWriter, isReader, readerOf]
  case bufRead => simp [firstFault, isWriter, isReader, mode_ne_frozen]
  case readBits rid n =>
    have hfields : legalCount n ∧ legalReader s.cfg.nReaders rid := by simpa [Instr.wellFormed, and_comm] using hw
    simp [firstFault, readerFault_eq_modeViolation hfields (readFault_ne_modeViolation .readBits), isWriter, isReader,
      readerOf]
  case readUnary rid =>
    have hreader : legalReader s.cfg.nReaders rid := of_decide_eq_true hw
    simp [firstFault, readerFault_eq_modeViolation hreader (readFault_ne_modeViolation .readUnary), isWriter, isReader,
      readerOf]
  case setBitPos rid | getBitPos rid =>
    have hreader : legalReader s.cfg.nReaders rid := of_decide_eq_true hw
    simp [firstFault, readerFault_eq_modeViolation hreader (own := none) nofun, isWriter, isReader, readerOf]
  case decGamma rid => exact dec_modeViolation_iff .gamma (of_decide_eq_true hw)
  case decDelta rid => exact dec_modeViolation_iff .delta (of_decide_eq_true hw)
  case decExpGolomb rid => exact dec_modeViolation_iff .expGolomb (of_decide_eq_true hw)
  case decZeta rid => exact dec_modeViolation_iff .zeta (of_decide_eq_true hw)
  case decRice rid => exact dec_modeViolation_iff .rice (of_decide_eq_true hw)
  case decMinbin rid => exact dec_modeViolation_iff .minbin (of_decide_eq_true hw)
  case reset | csrr | flush => simp [firstFault, isWriter, isReader, readerOf]
  case lenGamma | lenDelta | lenExpGolomb | lenZeta | lenRice | lenMinbin =>
    simp [firstFault, lenFault_ne_modeViolation, isWriter, isReader, readerOf]

/-! ### InvalidParameter and ValueOutOfDomain -/

/-- Settles O14: the parameter check stands behind the mode check, and no parse procedure raises the fault. -/
theorem invalidParameterIsOutsideTheDomain : Obligations.InvalidParameterIsOutsideTheDomain := by
  intro c rid s hf
  have hparse (k p : Nat) : c.codec.parse k s p ≠ .fails .invalidParameter :=
    (parse_onlyStreamFaults c).ne_fails (by decide)
  refine ⟨?_, fun hreader => ?_, ?_⟩ <;> rw [exec_eq_faulted_iff, and_iff_right hf]
  · simp [encFault_eq_some, paramOk_eq_false, State.b]
  · simp [decFault_eq_some, hreader, hparse, paramOk_eq_false, State.b]
  · simp [lenFault_eq_some, paramOk_eq_false, State.b]

/-- Settles O15: the value check stands behind the parameter check, and no parse procedure raises the fault. -/
theorem valueOutOfDomainIsOutsideTheDomain : Obligations.ValueOutOfDomainIsOutsideTheDomain := by
  intro c rid s hf
  have hparse (k p : Nat) : c.codec.parse k s p ≠ .fails .valueOutOfDomain :=
    (parse_onlyStreamFaults c).ne_fails (by decide)
  refine ⟨?_, ?_, ?_⟩
  · rw [exec_eq_faulted_iff, and_iff_right hf]
    simp [encFault_eq_some, paramOk_eq_true, valueOk_eq_false c s.opA.isLt, State.a, State.b]
  · rw [exec_eq_faulted_iff, and_iff_right hf]
    simp [lenFault_eq_some, paramOk_eq_true, valueOk_eq_false c s.opA.isLt, State.a, State.b]
  · rw [Ne, exec_eq_faulted_iff, and_iff_right hf]
    simp [decFault_eq_some, hparse]

/-! ### BufferOverflow -/

theorem minbinLength_one_zero : minbinLength 1 0 = 0 := by decide

/-- Settles O16: the bound is the last check of the writer commands, and the stated length of an accepted input is the
length of its codeword. -/
theorem bufferOverflowIsPastCapacity : Obligations.BufferOverflowIsPastCapacity := by
  refine ⟨fun n s hw hlegal => ?writeBits, fun s hw => ?writeUnary, fun c s hw hparam hvalue => ?enc,
    fun s hcap => ?writeNothing, fun s hcap hA hB => ?encNothing, fun s hf => ?flush⟩ <;>
    simp only [ne_eq, exec_eq_faulted_iff]
  case writeBits => simp [firstFault, hw, hlegal]
  case writeUnary => simp [firstFault, hw, State.a, Nat.add_assoc]
  case enc =>
    have hparam := (paramOk_eq_true c).mpr hparam
    have hvalue := (valueOk_eq_true c s.opA.isLt).mpr hvalue
    rw [(codec_faithful c).length hparam hvalue]
    simp [encFault_eq_some, hw, hparam, hvalue, State.a, State.b]
  case writeNothing =>
    rintro ⟨_, h⟩
    simp only [firstFault, check_eq_some, reduceCtorEq, and_false, false_or, or_false, and_true] at h
    obtain ⟨_, _, hover⟩ := h
    exact absurd hcap (Nat.not_le.mpr hover)
  case encNothing =>
    rintro ⟨_, h⟩
    have hover : s.cfg.capBits < s.wlen + minbinLength s.b s.a := by
      have h : encFault minbin s = some .bufferOverflow := h
      simp only [encFault_eq_some, reduceCtorEq, and_false, false_or, and_true] at h
      obtain ⟨_, _, _, hover⟩ := h
      exact hover
    have hnothing : minbinLength s.b s.a = 0 := by
      rw [State.a, State.b, hA, hB]
      exact minbinLength_one_zero
    omega
  case flush => simp [firstFault]

/-! ### MalformedStream -/

theorem readUnaryAt_ne_malformed {p : Nat} : readUnaryAt s p ≠ .fails .malformedStream := fun h =>
  nomatch (readUnaryAt_eq_fails.mp h).2

theorem readBitsAt_ne_malformed {p n : Nat} : readBitsAt s p n ≠ .fails .malformedStream := fun h =>
  nomatch (readBitsAt_eq_fails.mp h).2

/-- After a read that is not malformed a parse is malformed exactly where its rest is. -/
theorem andThen_malformed_iff {r : Parsed} {k : Nat → Nat → Parsed} (hr : r ≠ .fails .malformedStream) :
    r.andThen k = .fails .malformedStream ↔ ∃ x q, r = .value x q ∧ k x q = .fails .malformedStream := by
  rw [andThen_eq_fails, or_iff_right hr]

/-- Before a rest that is not malformed a bound check makes a parse malformed exactly where the bound is broken. -/
theorem bound_malformed_iff {c : Prop} [Decidable c] {r : Parsed} (hr : r ≠ .fails .malformedStream) :
    (if c then r else .fails .malformedStream) = .fails .malformedStream ↔ ¬ c := by
  by_cases h : c <;> simp [h, hr]

/-- The end that gamma and delta share: an exponent above 63 (R162, R167). -/
theorem mantissa_malformed_iff {h q : Nat} :
    (if h ≤ 63 then (readBitsAt s q h).andThen fun r pos => .value (2 ^ h + r - 1) pos else .fails .malformedStream) =
      .fails .malformedStream ↔ 64 ≤ h := by
  rw [bound_malformed_iff (by simp [andThen_malformed_iff readBitsAt_ne_malformed])]
  omega

/-- The end that exp-Golomb and Rice share: a value that does not fit 64 bits (R182, R187). -/
theorem quotientThenRemainder_malformed_iff {k d q : Nat} :
    quotientThenRemainder k s d q = .fails .malformedStream ↔
      ∃ r q', readBitsAt s q k = .value r q' ∧ 2 ^ 64 ≤ d * 2 ^ k + r := by
  rw [quotientThenRemainder, andThen_malformed_iff readBitsAt_ne_malformed]
  refine exists₂_congr fun r q' => and_congr_right fun _ => ?_
  rw [bound_malformed_iff (by simp)]
  omega

theorem gammaParse_malformed_iff {p : Nat} :
    gammaParse s p = .fails .malformedStream ↔ ∃ h q, readUnaryAt s p = .value h q ∧ 64 ≤ h := by
  simp only [gammaParse, andThen_malformed_iff readUnaryAt_ne_malformed, mantissa_malformed_iff]

theorem deltaParse_malformed_iff {p : Nat} :
    deltaParse s p = .fails .malformedStream ↔
      gammaParse s p = .fails .malformedStream ∨ ∃ h q, gammaParse s p = .value h q ∧ 64 ≤ h := by
  simp only [deltaParse, andThen_eq_fails, mantissa_malformed_iff]

theorem expGolombParse_malformed_iff {k p : Nat} :
    expGolombParse k s p = .fails .malformedStream ↔
      gammaParse s p = .fails .malformedStream ∨
      ∃ d q r q', gammaParse s p = .value d q ∧ readBitsAt s q k = .value r q' ∧ 2 ^ 64 ≤ d * 2 ^ k + r := by
  simp only [expGolombParse, andThen_eq_fails, quotientThenRemainder_malformed_iff, exists_and_left]

theorem riceParse_malformed_iff {k p : Nat} :
    riceParse k s p = .fails .malformedStream ↔
      ∃ d q r q', readUnaryAt s p = .value d q ∧ readBitsAt s q k = .value r q' ∧ 2 ^ 64 ≤ d * 2 ^ k + r := by
  simp only [riceParse, andThen_malformed_iff readUnaryAt_ne_malformed, quotientThenRemainder_malformed_iff,
    exists_and_left]

theorem minbinParse_ne_malformed {u p : Nat} : minbinParse u s p ≠ .fails .malformedStream := by
  rw [minbinParse, Ne, andThen_malformed_iff readBitsAt_ne_malformed]
  rintro ⟨v, q, _, h⟩
  split at h
  · cases h
  · simp [andThen_malformed_iff readBitsAt_ne_malformed] at h

theorem zetaParse_malformed_iff {k p : Nat} :
    zetaParse k s p = .fails .malformedStream ↔ ∃ h q, readUnaryAt s p = .value h q ∧ 64 < (h + 1) * k := by
  rw [zetaParse, andThen_malformed_iff readUnaryAt_ne_malformed]
  refine exists₂_congr fun h q => and_congr_right fun _ => ?_
  rw [bound_malformed_iff (by simp [andThen_malformed_iff minbinParse_ne_malformed]), Nat.not_le]

/-- DEC of an existing context in FROZEN raises MalformedStream exactly when its parse procedure does, behind the
parameter check (41_codec_contract.md R144). -/
theorem exec_dec_malformed_iff (c : CodecName) {rid : BitVec 4} (hr : s.canRead rid) :
    exec (c.dec rid) s = .next (s.faulted .malformedStream) ↔
      paramDomain c s.opB.toNat ∧
        c.codec.parse s.opB.toNat s (s.cursor rid).toNat = .fails .malformedStream := by
  obtain ⟨hf, hreader, hmode⟩ := hr
  simp [exec_eq_faulted_iff, decFault_eq_some, hf, hreader, hmode, paramOk_eq_true, State.b]

/-- No command but DEC has a check that raises MalformedStream. -/
theorem firstFault_ne_malformed {i : Instr} (hi : ∀ (c : CodecName) (rid : BitVec 4), i ≠ c.dec rid) :
    firstFault s i ≠ some .malformedStream := by
  cases i
  case decGamma rid => exact absurd rfl (hi .gamma rid)
  case decDelta rid => exact absurd rfl (hi .delta rid)
  case decExpGolomb rid => exact absurd rfl (hi .expGolomb rid)
  case decZeta rid => exact absurd rfl (hi .zeta rid)
  case decRice rid => exact absurd rfl (hi .rice rid)
  case decMinbin rid => exact absurd rfl (hi .minbin rid)
  case encGamma | encDelta | encExpGolomb | encZeta | encRice | encMinbin => simp [firstFault, encFault_eq_some]
  case lenGamma | lenDelta | lenExpGolomb | lenZeta | lenRice | lenMinbin => simp [firstFault, lenFault_eq_some]
  case readBits rid n => simp [firstFault, readerFault_eq_some, readBitsAt_ne_malformed]
  case readUnary rid => simp [firstFault, readerFault_eq_some, readUnaryAt_ne_malformed]
  case setBitPos rid | getBitPos rid => simp [firstFault, readerFault_eq_some]
  case reset | flush => simp [firstFault]
  case csrr | bufRead | writeBits | writeUnary =>
    simp only [firstFault, check_eq_some, reduceCtorEq, and_false, or_self, ne_eq, not_false_eq_true]

/-- Settles O18: the commands that are no DEC by their checks, the six DEC by their parse procedures. -/
theorem malformedStreamIsNoCodeword : Obligations.MalformedStreamIsNoCodeword := by
  refine ⟨fun i s _ hi he => firstFault_ne_malformed hi (exec_eq_faulted_iff.mp he).2, fun rid s hr => ?_⟩
  have hdec (c : CodecName) (hp : paramDomain c s.opB.toNat) :=
    (exec_dec_malformed_iff c hr).trans (and_iff_right hp)
  refine ⟨?_, ?_, fun hk => ?_, fun hk => ?_, fun hk hk' => ?_, fun he => ?_⟩
  · exact (hdec .gamma trivial).trans gammaParse_malformed_iff
  · exact (hdec .delta trivial).trans deltaParse_malformed_iff
  · exact (hdec .expGolomb hk).trans expGolombParse_malformed_iff
  · exact (hdec .rice hk).trans riceParse_malformed_iff
  · exact (hdec .zeta ⟨hk, hk'⟩).trans zetaParse_malformed_iff
  · exact minbinParse_ne_malformed ((exec_dec_malformed_iff .minbin hr).mp he).2

end Sys2Proof.Laws
end

section
/-! SUPPORT. What a command can do to the state, said once for all 28 (60_exceptions.md R265, R266): it is turned away,
raises a fault, only answers, appends bits, pads and freezes, moves one cursor, or resets the unit. The statements about
every command and the invariants of 10_state.md R38 are read off these seven cases. -/

namespace Sys2Proof.Laws

open Sys2Proof.Machine

variable {s t : State} {i : Instr}

/-! ### The seven effects -/

/-- The state after a command that completed in state u with result v (30_encoding.md R80). -/
def answering (u : State) (v : Word) : State := { u with reply := some { status := 0, result := some v } }

/-- The state s may be left in by command i. -/
inductive Effect (i : Instr) (s : State) : State → Prop
  /-- BLOCKED (60_exceptions.md R267). -/
  | turnedAway (hf : s.fault ≠ none) : Effect i s s.turnedAway
  /-- A fault (60_exceptions.md R266). -/
  | raised (hf : s.fault = none) (c : FaultCode) : Effect i s (s.faulted c)
  /-- The command only answers. -/
  | answers (hi : isWriter i = false) (v : Word) : Effect i s (answering s v)
  /-- A writer command appends bits and answers their number (40_bitio.md R110, R111; 41_codec_contract.md R143). -/
  | appends (hi : isWriter i = true) (hs : s.canWrite) (bits : List Bool)
      (hroom : s.wlen + bits.length ≤ s.cfg.capBits) :
      Effect i s (answering (s.append bits) (BitVec.ofNat 64 bits.length))
  /-- FLUSH in BUILDING (40_bitio.md R112). -/
  | freezes (hi : i = .flush) (hs : s.canWrite) :
      Effect i s (answering { s.pad with mode := .frozen } (BitVec.ofNat 64 s.wlen))
  /-- A reader command moves its own cursor (40_bitio.md R113 to R115; 41_codec_contract.md R144). -/
  | moves (r : BitVec 4) (hi : readerOf i = some r) (hs : s.canRead r) (p v : Word) :
      Effect i s (answering (s.setCursor r p) v)
  /-- RESET (46_system.md R250). -/
  | resets (hi : i = .reset) : Effect i s (answering s.resetUnit 0)

/-- A command ends in a next state, with one of its effects. -/
def Ends (i : Instr) (s : State) (r : Result) : Prop := ∃ t, r = .next t ∧ Effect i s t

theorem Ends.intro {u : State} (v : Word) (h : Effect i s (answering u v)) : Ends i s (finish u v) := ⟨_, rfl, h⟩

theorem Ends.raised (hf : s.fault = none) (c : FaultCode) : Ends i s (raise s c) := ⟨_, rfl, .raised hf c⟩

theorem Ends.illegal : Ends i s (illegal s) := by
  rcases illegal_cases s with ⟨hsome, e⟩ | ⟨hf, e⟩ <;> rw [e]
  · exact ⟨_, rfl, .turnedAway (Option.isSome_iff_ne_none.mp hsome)⟩
  · exact .raised hf _

/-- The blocked check: the checks after it run with no fault recorded. -/
theorem Ends.unblocked {k : Result} (h : s.fault = none → Ends i s k) :
    Ends i s (if s.fault.isSome then blocked s else k) := by
  split
  · next hsome => exact ⟨_, rfl, .turnedAway (Option.isSome_iff_ne_none.mp hsome)⟩
  · next hsome => exact h (Option.not_isSome_iff_eq_none.mp hsome)

/-- A check with its fault: what comes after it may rely on it. -/
theorem Ends.check {p : Prop} [Decidable p] {c : FaultCode} {k : Result} (hf : s.fault = none) (h : ¬ p → Ends i s k) :
    Ends i s (if p then raise s c else k) := by
  split
  · exact .raised hf c
  · next hp => exact h hp

/-- The check of the fields of the word. -/
theorem Ends.checkFields {p : Prop} [Decidable p] {k : Result} (h : ¬ p → Ends i s k) :
    Ends i s (if p then Machine.illegal s else k) := by
  split
  · exact .illegal
  · next hp => exact h hp

/-- A read at a cursor raises its fault or moves the cursor past what it read. -/
theorem Ends.read {rid : BitVec 4} (hi : readerOf i = some rid) (hs : s.canRead rid) (r : Parsed) :
    Ends i s (finishRead s rid r) := by
  rcases finishRead_cases s rid r with ⟨x, pos, _, e⟩ | ⟨c, _, e⟩ <;> rw [e]
  · exact .intro _ (.moves rid hi hs _ _)
  · exact .raised hs.1 c

/-! ### The effect of each command -/

theorem execCsrr_ends (csr : BitVec 7) : Ends (.csrr csr) s (execCsrr csr s) := by
  rcases execCsrr_cases csr s with ⟨v, _, e⟩ | ⟨_, e⟩ <;> rw [e]
  · exact .intro v (.answers rfl v)
  · exact .illegal

theorem execWriteBits_ends (n : BitVec 7) : Ends (.writeBits n) s (execWriteBits n s) := by
  refine .unblocked fun hf => .checkFields fun _ => .check hf fun hmode => .check hf fun hroom => ?_
  have hresult : n.setWidth 64 = BitVec.ofNat 64 (tokenString s.cfg.endian s.a n.toNat).length := by
    simp
  rw [appendToken_eq_append, hresult]
  exact .intro _ (.appends rfl ⟨hf, not_not.mp hmode⟩ _ (by simpa using hroom))

theorem execWriteUnary_ends : Ends .writeUnary s (execWriteUnary s) := by
  refine .unblocked fun hf => .check hf fun hmode => .check hf fun hroom => ?_
  have hresult : s.a + 1 = (unaryString s.a).length := by simp
  rw [hresult]
  exact .intro _ (.appends rfl ⟨hf, not_not.mp hmode⟩ _ (by simpa [Nat.add_assoc] using hroom))

theorem execFlush_ends : Ends .flush s (execFlush s) := by
  refine .unblocked fun hf => ?_
  cases hmode : s.mode
  · exact .intro _ (.freezes rfl ⟨hf, hmode⟩)
  · exact .intro _ (.answers rfl _)

/-- ENC of a codec whose length rule gives the length of its codewords. -/
theorem encodeWith_ends {c : Codec} (hc : Faithful c) (hi : isWriter i = true) : Ends i s (encodeWith c s) := by
  refine .unblocked fun hf => .check hf fun hmode => .check hf fun hparam => .check hf fun hvalue =>
    .check hf fun hroom => ?_
  have hlen := hc.length (Bool.not_eq_false _ ▸ hparam) (Bool.not_eq_false _ ▸ hvalue)
  rw [← codeString_length s.cfg.endian] at hlen
  rw [← hlen] at hroom ⊢
  rw [layTokens_eq_append]
  exact .intro _ (.appends hi ⟨hf, not_not.mp hmode⟩ _ (Nat.le_of_not_lt hroom))

theorem decodeWith_ends {c : Codec} {rid : BitVec 4} (hi : readerOf i = some rid) : Ends i s (decodeWith c rid s) :=
  .unblocked fun hf => .checkFields fun hr => .check hf fun hmode => .check hf fun _ =>
    .read hi ⟨hf, not_not.mp hr, not_not.mp hmode⟩ _

theorem lengthWith_ends {c : Codec} (hi : isWriter i = false) : Ends i s (lengthWith c s) :=
  .unblocked fun hf => .check hf fun _ => .check hf fun _ => .intro _ (.answers hi _)

/-- Every command ends in a next state, with one of the seven effects (60_exceptions.md R264). -/
theorem exec_ends : (i : Instr) → Ends i s (exec i s)
  | .reset => .intro _ (.resets rfl)
  | .csrr csr => execCsrr_ends csr
  | .bufRead => .unblocked fun hf => .check hf fun _ => .check hf fun _ => .intro _ (.answers rfl _)
  | .writeBits n => execWriteBits_ends n
  | .writeUnary => execWriteUnary_ends
  | .flush => execFlush_ends
  | .readBits _ _ => .unblocked fun hf => .checkFields fun h => .check hf fun hm =>
      .read rfl ⟨hf, (not_not.mp h).2, not_not.mp hm⟩ _
  | .readUnary _ => .unblocked fun hf => .checkFields fun h => .check hf fun hm =>
      .read rfl ⟨hf, not_not.mp h, not_not.mp hm⟩ _
  | .setBitPos _ => .unblocked fun hf => .checkFields fun h => .check hf fun hm =>
      .intro _ (.moves _ rfl ⟨hf, not_not.mp h, not_not.mp hm⟩ _ _)
  | .getBitPos _ => .unblocked fun hf => .checkFields fun _ => .check hf fun _ => .intro _ (.answers rfl _)
  | .encGamma => encodeWith_ends gamma_faithful rfl
  | .encDelta => encodeWith_ends delta_faithful rfl
  | .encExpGolomb => encodeWith_ends expGolomb_faithful rfl
  | .encZeta => encodeWith_ends zeta_faithful rfl
  | .encRice => encodeWith_ends rice_faithful rfl
  | .encMinbin => encodeWith_ends minbin_faithful rfl
  | .decGamma _ => decodeWith_ends rfl
  | .decDelta _ => decodeWith_ends rfl
  | .decExpGolomb _ => decodeWith_ends rfl
  | .decZeta _ => decodeWith_ends rfl
  | .decRice _ => decodeWith_ends rfl
  | .decMinbin _ => decodeWith_ends rfl
  | .lenGamma => lengthWith_ends rfl
  | .lenDelta => lengthWith_ends rfl
  | .lenExpGolomb => lengthWith_ends rfl
  | .lenZeta => lengthWith_ends rfl
  | .lenRice => lengthWith_ends rfl
  | .lenMinbin => lengthWith_ends rfl

/-- What a command that answers a next state did. -/
theorem effect_of_exec (he : exec i s = .next t) : Effect i s t := by
  obtain ⟨u, hu, heffect⟩ := exec_ends (s := s) i
  rw [he] at hu
  exact Host.Outcome.next.inj hu ▸ heffect

/-! ### The invariants of the state -/

/-- The invariants speak of the configuration and of four of the five items of the unit only. -/
theorem inv_of_sameItems (h : s.Inv) (hcfg : t.cfg = s.cfg) (hbuf : t.buf = s.buf) (hwlen : t.wlen = s.wlen)
    (hmode : t.mode = s.mode) (hrpos : t.rpos = s.rpos) : t.Inv := by
  cases s; cases t
  simp only at hcfg hbuf hwlen hmode hrpos
  subst hcfg hbuf hwlen hmode hrpos
  exact ⟨h.config, h.canonical, h.inCapacity, h.length, h.padding, h.cursors, h.absent⟩

theorem inv_append (h : s.Inv) (hs : s.canWrite) {bits : List Bool} (hroom : s.wlen + bits.length ≤ s.cfg.capBits) :
    (s.append bits).Inv where
  config := h.config
  canonical := writeString_wf _ bits _ h.canonical _
  inCapacity := writeString_below _ bits _ _ _ h.inCapacity (by simpa [Config.capBits, ← Nat.mul_assoc] using hroom)
  length := hroom
  padding hmode := by simp [hs.2] at hmode
  cursors _ := h.cursors hs.2
  absent := h.absent

theorem le_wordsFor (n : Nat) : n ≤ 64 * wordsFor n := by
  unfold wordsFor
  omega

theorem inv_freeze (h : s.Inv) : State.Inv { s.pad with mode := .frozen } where
  config := h.config
  canonical := writeString_wf _ _ _ h.canonical _
  inCapacity := by
    have hlen : s.wlen ≤ 64 * s.cfg.bufWords := h.length
    have hend : 64 * wordsFor s.wlen ≤ 64 * s.cfg.bufWords := by unfold wordsFor; omega
    have hle := le_wordsFor s.wlen
    refine writeString_below _ _ _ (8 * s.cfg.bufWords) _ h.inCapacity ?_
    rw [List.length_replicate]
    omega
  length := h.length
  padding _ p hlo hhi := by
    obtain ⟨j, rfl⟩ := Nat.exists_eq_add_of_le hlo
    have hhi : s.wlen + j < 64 * wordsFor s.wlen := hhi
    refine (bit_writeString_inside _ _ _ h.canonical _ j (by simp; omega)).trans ?_
    simp
  cursors hmode := nomatch hmode
  absent := h.absent

theorem inv_setCursor (h : s.Inv) {r : BitVec 4} (hs : s.canRead r) (p : Word) : (s.setCursor r p).Inv where
  config := h.config
  canonical := h.canonical
  inCapacity := h.inCapacity
  length := h.length
  padding := h.padding
  cursors hmode := by
    obtain ⟨_, _, hfrozen⟩ := hs
    cases hfrozen.symm.trans hmode
  absent q hq := by
    obtain ⟨_, hreader, _⟩ := hs
    have hne : q ≠ r := by rintro rfl; exact absurd hreader (Nat.not_lt.mpr hq)
    exact (cursor_setCursor_of_ne s p hne).trans (h.absent q hq)

/-- The reset values of the five items satisfy the invariants (10_state.md R40). -/
theorem inv_of_reset (hcfg : t.cfg.legal) (hbuf : t.buf = []) (hwlen : t.wlen = 0) (hmode : t.mode = .building)
    (hrpos : t.rpos = Vector.replicate 16 0) : t.Inv where
  config := hcfg
  canonical := by simp [hbuf, Memory.wf]
  inCapacity := by simp [hbuf]
  length := by simp [hwlen]
  padding h := by simp [hmode] at h
  cursors _ := replicate_cursor hrpos
  absent r _ := replicate_cursor hrpos r

/-- Every effect keeps the invariants. -/
theorem effect_keeps_inv (h : s.Inv) (he : Effect i s t) : t.Inv := by
  cases he with
  | turnedAway | raised | answers => exact inv_of_sameItems h rfl rfl rfl rfl rfl
  | appends _ hs bits hroom => exact inv_of_sameItems (inv_append h hs hroom) rfl rfl rfl rfl rfl
  | freezes _ _ => exact inv_of_sameItems (inv_freeze h) rfl rfl rfl rfl rfl
  | moves r _ hs p v => exact inv_of_sameItems (inv_setCursor h hs p) rfl rfl rfl rfl rfl
  | resets _ => exact inv_of_reset h.config rfl rfl rfl rfl

/-- A command word ends in a next state, with one of the effects of some command: an illegal word, which has none of its
own, is turned away or raises. -/
theorem runWord_effect (w : CommandWord) (s : State) : ∃ i, Ends i s (runWord w s) := by
  rcases runWord_cases w s with ⟨i, _, e⟩ | ⟨_, _, e⟩ <;> rw [e]
  · exact ⟨i, exec_ends i⟩
  · exact ⟨.reset, .illegal⟩

/-- Settles O7, event by event: nothing on the port, a hardware reset, or a command word by its effect. -/
theorem stepKeepsTheStateInvariants : Obligations.StepKeepsTheStateInvariants := by
  intro s t h hstep
  rcases step_cases s with ⟨_, e⟩ | ⟨rest, _, e⟩ | ⟨w, a, b, rest, _, e⟩ <;> rw [e] at hstep
  · exact Host.Outcome.next.inj hstep ▸ h
  · exact Host.Outcome.next.inj hstep ▸ inv_of_reset h.config rfl rfl rfl rfl
  · obtain ⟨i, u, hu, heffect⟩ := runWord_effect w (s.accept a b rest)
    rw [hstep] at hu
    have haccept : (s.accept a b rest).Inv := inv_of_sameItems h rfl rfl rfl rfl rfl
    exact Host.Outcome.next.inj hu ▸ effect_keeps_inv haccept heffect

/-- Settles O8, by the reset values. -/
theorem resetStateHasTheInvariants : Obligations.ResetStateHasTheInvariants :=
  ⟨fun _ hc => inv_of_reset hc rfl rfl rfl rfl, inv_of_reset (by decide) rfl rfl rfl rfl⟩

end Sys2Proof.Laws
end

section
/-! SUPPORT. What holds of every command, read off its effect: its outcome (60_exceptions.md R264), and which of BUF, WLEN,
MODE and RPOS it may write (10_state.md R23 to R29). -/

namespace Sys2Proof.Laws

open Sys2Proof.Machine

variable {s t : State} {i : Instr}

/-! ### The outcome of a command word -/

/-- An effect leaves the queue of the port as it was and is one of the three outcomes of R264. -/
theorem effect_outcome (h : Effect i s t) : t.inputs = s.inputs ∧
    ((∃ r, t.reply = some { status := 0, result := some r }) ∨
     (s.fault = none ∧ ∃ c, t = s.faulted c ∧ 1 ≤ c.code.toNat ∧ c.code.toNat ≤ 7) ∨
     (s.fault ≠ none ∧ t = s.turnedAway)) := by
  cases h with
  | turnedAway hf => exact ⟨rfl, .inr (.inr ⟨hf, rfl⟩)⟩
  | raised hf c => exact ⟨rfl, .inr (.inl ⟨hf, c, rfl, faultCode_range c⟩)⟩
  | answers | appends | freezes | moves | resets => exact ⟨rfl, .inl ⟨_, rfl⟩⟩

/-- Settles O6, by the effect of the word. -/
theorem everyCommandHasOneOutcome : Obligations.EveryCommandHasOneOutcome := by
  intro s w a b rest hin
  obtain ⟨i, t, ht, heffect⟩ := runWord_effect w (s.accept a b rest)
  exact ⟨t, (step_command hin).trans ht, effect_outcome heffect⟩

/-- Settles O5: the word decodes on the accepted state as on the old one, whose configuration is the same. -/
theorem stepRunsTheDecodedCommand : Obligations.StepRunsTheDecodedCommand := by
  intro s w a b rest i hin hdecode
  rw [step_command hin]
  simp only [runWord, accept_cfg, hdecode]
  rfl

/-! ### What a command may write -/

/-- Settles O19: only appending and freezing write the buffer, and both need BUILDING. -/
theorem frozenStreamIsImmutable : Obligations.FrozenStreamIsImmutable := by
  intro i s t he hreset
  cases effect_of_exec he with
  | turnedAway | raised | answers | moves => exact ⟨fun hm => ⟨rfl, rfl, hm⟩, fun _ _ => rfl⟩
  | appends hi hs => exact ⟨fun hm => by simp [hs.2] at hm, fun hw => by simp [hi] at hw⟩
  | freezes hi hs => exact ⟨fun hm => by simp [hs.2] at hm, fun _ hflush => absurd hi hflush⟩
  | resets hi => exact absurd hi hreset

theorem not_writer_of_reader {r : BitVec 4} (h : readerOf i = some r) : isWriter i = false := by
  cases i <;> simp [readerOf, isWriter] at h ⊢

/-- A writer command that ends with no fault has appended, and answers by how much. -/
theorem reply_of_writer (h : Effect i s t) (hi : isWriter i = true) (hs : s.fault = none) (ht : t.fault = none) :
    t.reply = okReply (t.wlen - s.wlen) := by
  cases h with
  | turnedAway hf => exact absurd hs hf
  | raised _ c => simp [State.faulted] at ht
  | answers hi' => simp [hi] at hi'
  | appends _ _ bits _ => simp [answering, okReply]
  | freezes hi' => simp [hi', isWriter] at hi
  | moves r hi' => simp [not_writer_of_reader hi'] at hi
  | resets hi' => simp [hi', isWriter] at hi

/-- Settles O20: only appending moves the write cursor, by the bits it answers and within capacity. -/
theorem writeCursorOnlyGrows : Obligations.WriteCursorOnlyGrows := by
  intro i s t he hreset
  have heffect := effect_of_exec he
  have hreply := reply_of_writer heffect
  cases heffect with
  | turnedAway | raised | answers | freezes | moves => exact ⟨Nat.le_refl _, id, fun _ => rfl, hreply⟩
  | appends hi _ bits hroom =>
    exact ⟨Nat.le_add_right _ _, fun _ => hroom, fun hw => by simp [hi] at hw, hreply⟩
  | resets hi => exact absurd hi hreset

/-- Settles O21: only freezing and resetting write MODE. -/
theorem onlyFlushAndResetWriteMode : Obligations.OnlyFlushAndResetWriteMode := by
  intro i s t he
  cases effect_of_exec he with
  | turnedAway | raised | answers | appends | moves => exact .inl rfl
  | freezes hi hs => exact .inr (.inl ⟨hi, hs.2, rfl⟩)
  | resets hi => exact .inr (.inr ⟨hi, rfl⟩)

/-- Settles O22: a cursor is moved by the command of its context only. -/
theorem commandsWriteOnlyTheirOwnCursor : Obligations.CommandsWriteOnlyTheirOwnCursor := by
  intro i s t he hreset r hr
  cases effect_of_exec he with
  | turnedAway | raised | answers | appends | freezes => rfl
  | moves q hi _ p _ => exact cursor_setCursor_of_ne s p fun h => hr (h ▸ hi)
  | resets hi => exact absurd hi hreset

/-! ### The faults of a command -/

theorem encFault_mem {c : Codec} {f : FaultCode} (h : encFault c s = some f) :
    f ∈ [.illegalCommand, .modeViolation, .invalidParameter, .valueOutOfDomain, .bufferOverflow] := by
  rcases encFault_eq_some.mp h with ⟨_, rfl⟩ | ⟨_, ⟨_, rfl⟩ | ⟨_, ⟨_, rfl⟩ | ⟨_, _, rfl⟩⟩⟩ <;> decide

/-- A codec without a parameter never raises InvalidParameter. -/
theorem encFault_mem_of_noParam {c : Codec} {f : FaultCode} (hc : c.paramOk s.b = true) (h : encFault c s = some f) :
    f ∈ [.illegalCommand, .modeViolation, .valueOutOfDomain, .bufferOverflow] := by
  rcases encFault_eq_some.mp h with ⟨_, rfl⟩ | ⟨_, ⟨hparam, _⟩ | ⟨_, ⟨_, rfl⟩ | ⟨_, _, rfl⟩⟩⟩
  case inr.inl => simp [hc] at hparam
  all_goals decide

theorem decFault_mem (c : CodecName) {rid : BitVec 4} {f : FaultCode} (h : decFault c.codec rid s = some f) :
    f ∈ [.illegalCommand, .modeViolation, .invalidParameter, .readPastEnd, .malformedStream] := by
  rcases decFault_eq_some.mp h with ⟨_, rfl⟩ | ⟨_, ⟨_, rfl⟩ | ⟨_, ⟨_, rfl⟩ | ⟨_, hparse⟩⟩⟩
  case inr.inr.inr => rcases parse_onlyStreamFaults c f hparse with rfl | rfl <;> decide
  all_goals decide

/-- A codec without a parameter never raises InvalidParameter. -/
theorem decFault_mem_of_noParam (c : CodecName) {rid : BitVec 4} {f : FaultCode} (hc : c.codec.paramOk s.b = true)
    (h : decFault c.codec rid s = some f) : f ∈ [.illegalCommand, .modeViolation, .readPastEnd, .malformedStream] := by
  rcases decFault_eq_some.mp h with ⟨_, rfl⟩ | ⟨_, ⟨_, rfl⟩ | ⟨_, ⟨hparam, _⟩ | ⟨_, hparse⟩⟩⟩
  case inr.inr.inl => simp [hc] at hparam
  case inr.inr.inr => rcases parse_onlyStreamFaults c f hparse with rfl | rfl <;> decide
  all_goals decide

/-- No bits are malformed for minimal binary (44_codec_zeta_minbin.md R207). -/
theorem decFault_minbin_mem {rid : BitVec 4} {f : FaultCode} (h : decFault minbin rid s = some f) :
    f ∈ [.illegalCommand, .modeViolation, .invalidParameter, .readPastEnd] := by
  have hmem := decFault_mem .minbin h
  have hne : f ≠ .malformedStream := by
    rintro rfl
    have hparse : minbinParse s.b s (s.cursor rid).toNat ≠ .fails .malformedStream := minbinParse_ne_malformed
    simp [decFault_eq_some, minbin, hparse] at h
  cases f <;> simp at hne hmem ⊢

theorem lenFault_mem {c : Codec} {f : FaultCode} (h : lenFault c s = some f) :
    f ∈ [.illegalCommand, .invalidParameter, .valueOutOfDomain] := by
  rcases lenFault_eq_some.mp h with ⟨_, rfl⟩ | ⟨_, _, rfl⟩ <;> decide

/-- A codec without a parameter never raises InvalidParameter. -/
theorem lenFault_mem_of_noParam {c : Codec} {f : FaultCode} (hc : c.paramOk s.b = true) (h : lenFault c s = some f) :
    f ∈ [.illegalCommand, .valueOutOfDomain] := by
  rcases lenFault_eq_some.mp h with ⟨hparam, _⟩ | ⟨_, _, rfl⟩
  · simp [hc] at hparam
  · decide

/-- The checks of a reader command whose own read raises ReadPastEnd or nothing. -/
theorem readerFault_mem {fieldsOk : Prop} [Decidable fieldsOk] {own : Option FaultCode} {f : FaultCode}
    (hown : ∀ d, own = some d → d = .readPastEnd) (h : readerFault s fieldsOk own = some f) :
    f ∈ [.illegalCommand, .modeViolation, .readPastEnd] := by
  rcases readerFault_eq_some.mp h with ⟨_, rfl⟩ | ⟨_, ⟨_, rfl⟩ | ⟨_, hd⟩⟩
  case inr.inr => rw [hown f hd]; decide
  all_goals decide

/-- The row of each command in the table of 60_exceptions.md R276, by its checks. -/
theorem firstFault_mem_mayRaise {f : FaultCode} : (i : Instr) → firstFault s i = some f → f ∈ mayRaise i
  | .reset, h | .flush, h => nomatch h
  | .csrr _, h => by
    simp only [firstFault, check_eq_some, reduceCtorEq, and_false, or_false] at h
    simp [mayRaise, ← h.2]
  | .bufRead, h => by
    simp only [firstFault, check_eq_some, reduceCtorEq, and_false, or_false] at h
    rcases h with ⟨_, rfl⟩ | ⟨_, _, rfl⟩ <;> decide
  | .writeBits _, h => by
    simp only [firstFault, check_eq_some, reduceCtorEq, and_false, or_false] at h
    rcases h with ⟨_, rfl⟩ | ⟨_, ⟨_, rfl⟩ | ⟨_, _, rfl⟩⟩ <;> simp [mayRaise]
  | .writeUnary, h => by
    simp only [firstFault, check_eq_some, reduceCtorEq, and_false, or_false] at h
    rcases h with ⟨_, rfl⟩ | ⟨_, _, rfl⟩ <;> decide
  | .readBits _ _, h => readerFault_mem (fun _ hd => (readBitsAt_eq_fails.mp (readFault_eq_some.mp hd)).2) h
  | .readUnary _, h => readerFault_mem (fun _ hd => (readUnaryAt_eq_fails.mp (readFault_eq_some.mp hd)).2) h
  | .setBitPos _, h | .getBitPos _, h => by
    rcases readerFault_eq_some.mp h with ⟨_, rfl⟩ | ⟨_, ⟨_, rfl⟩ | ⟨_, hd⟩⟩
    case inr.inr => cases hd
    all_goals simp [mayRaise]
  | .encGamma, h => encFault_mem_of_noParam (c := gamma) rfl h
  | .encDelta, h => encFault_mem_of_noParam (c := delta) rfl h
  | .encExpGolomb, h | .encZeta, h | .encRice, h | .encMinbin, h => encFault_mem h
  | .decGamma _, h => decFault_mem_of_noParam .gamma rfl h
  | .decDelta _, h => decFault_mem_of_noParam .delta rfl h
  | .decExpGolomb _, h => decFault_mem .expGolomb h
  | .decZeta _, h => decFault_mem .zeta h
  | .decRice _, h => decFault_mem .rice h
  | .decMinbin _, h => decFault_minbin_mem h
  | .lenGamma, h => lenFault_mem_of_noParam (c := gamma) rfl h
  | .lenDelta, h => lenFault_mem_of_noParam (c := delta) rfl h
  | .lenExpGolomb, h | .lenZeta, h | .lenRice, h | .lenMinbin, h => lenFault_mem h

/-- Settles O12: a fault that was not recorded before is the first fault of the command's checks. -/
theorem commandsRaiseOnlyTheirFaults : Obligations.CommandsRaiseOnlyTheirFaults := by
  intro i s t c hf he ht
  have hraised := eq_faulted_of_fault hf he ht
  subst hraised
  exact firstFault_mem_mayRaise i (exec_eq_faulted_iff.mp he).2

end Sys2Proof.Laws
end

section
/-! SUPPORT. Decoder and encoder as inverses (30_encoding.md R84, R88, R93), and the words of single commands. -/

namespace Sys2Proof.Laws

open Sys2Proof.Machine

/-! ### From the command to its word and back -/

section Checks

variable {nReaders : Nat} {usesCodec usesN usesRid : Bool} {op : BitVec 8} {codec : BitVec 4} {n : BitVec 7}
  {rid : BitVec 4} {k : Except IllegalWord Instr}

/-- A word built from fields passes the zero checks when the fields its command does not use are zero. -/
theorem requireZero_commandWord (hcodec : usesCodec = false → codec = 0) (hn : usesN = false → n = 0)
    (hrid : usesRid = false → rid = 0) : requireZero usesCodec usesN usesRid (commandWord op codec n rid) k = k := by
  simp only [requireZero, reservedBit_commandWord, topField_commandWord, codecField_commandWord, nField_commandWord,
    ridField_commandWord]
  rw [if_neg (by tauto), if_neg (by tauto)]

theorem requireCount_commandWord (h : legalCount n) : requireCount (commandWord op codec n rid) k = k := by
  simp [requireCount, h]

theorem requireCsr_commandWord (h : legalCsr n) : requireCsr (commandWord op codec n rid) k = k := by
  simp [requireCsr, h]

theorem requireReader_commandWord (h : legalReader nReaders rid) :
    requireReader nReaders (commandWord op codec n rid) k = k := by
  simp [requireReader, h]

end Checks

/-- Settles O1, command by command: the opcode picks the row, and the checks of the row pass. -/
theorem decodeInvertsEncode : Obligations.DecodeInvertsEncode := by
  intro nReaders i hw
  cases i
  case csrr csr =>
    have hcsr : legalCsr csr := of_decide_eq_true hw
    simp [decode, encode, requireZero_commandWord, requireCsr_commandWord hcsr]
  case writeBits n =>
    have hcount : legalCount n := of_decide_eq_true hw
    simp [decode, encode, requireZero_commandWord, requireCount_commandWord hcount]
  case readBits rid n =>
    obtain ⟨hreader, hcount⟩ : legalReader nReaders rid ∧ legalCount n := by simpa [Instr.wellFormed] using hw
    simp [decode, encode, requireZero_commandWord, requireCount_commandWord hcount, requireReader_commandWord hreader]
  case readUnary rid | setBitPos rid | getBitPos rid | decGamma rid | decDelta rid | decExpGolomb rid | decZeta rid |
      decRice rid | decMinbin rid =>
    have hreader : legalReader nReaders rid := of_decide_eq_true hw
    simp [decode, encode, requireZero_commandWord, requireReader_commandWord hreader, selectCodec]
  all_goals simp [decode, encode, requireZero_commandWord, selectCodec]

/-! ### From the word to its command and back -/

/-- The command is well formed and its word has these fields, the reserved bits zero. -/
def HasFields (nReaders : Nat) (op : BitVec 8) (codec : BitVec 4) (n : BitVec 7) (rid : BitVec 4) (i : Instr) : Prop :=
  i.wellFormed nReaders = true ∧ encode i = commandWord op codec n rid

/-- What holds of the six commands a codec selector chooses from, each at its number, holds of the chosen one. -/
theorem selectCodec_elim {P : BitVec 4 → Instr → Prop} {w : CommandWord}
    {gamma delta expGolomb zeta rice minbin i : Instr}
    (h : selectCodec w gamma delta expGolomb zeta rice minbin = .ok i) (hgamma : P 0 gamma) (hdelta : P 1 delta)
    (hexpGolomb : P 2 expGolomb) (hzeta : P 3 zeta) (hrice : P 4 rice) (hminbin : P 5 minbin) : P (codecField w) i := by
  have hfield {c : Nat} (hc : (codecField w).toNat = c) : codecField w = BitVec.ofNat 4 c := by rw [← hc]; simp
  unfold selectCodec at h
  split at h
  case h_7 => cases h
  all_goals
    next hc =>
    cases h
    rw [hfield hc]
    assumption

theorem opField_eq_ofNat {w : CommandWord} {op : Nat} (h : (opField w).toNat = op) : opField w = BitVec.ofNat 8 op := by
  rw [← h]; simp

/-- A word that decodes has zero reserved bits and the fields of its command, row by row of the opcode map. -/
theorem hasFields_of_decode {nReaders : Nat} {w : CommandWord} {i : Instr} (h : decode nReaders w = .ok i) :
    (reservedBit w = 0 ∧ topField w = 0) ∧
      HasFields nReaders (opField w) (codecField w) (nField w) (ridField w) i := by
  unfold decode at h
  split at h
  case h_14 => cases h
  all_goals
    rename_i hop
    obtain ⟨hreserved, hcodec, hn, hrid, h⟩ := requireZero_eq_ok.mp h
    refine ⟨hreserved, ?_⟩
    rw [opField_eq_ofNat hop]
  case h_1 | h_3 | h_5 | h_6 =>
    cases h
    rw [hcodec rfl, hn rfl, hrid rfl]
    exact ⟨rfl, rfl⟩
  case h_2 =>
    obtain ⟨hcsr, ⟨⟩⟩ := requireCsr_eq_ok.mp h
    rw [hcodec rfl, hrid rfl]
    exact ⟨decide_eq_true hcsr, rfl⟩
  case h_4 =>
    obtain ⟨hcount, ⟨⟩⟩ := requireCount_eq_ok.mp h
    rw [hcodec rfl, hrid rfl]
    exact ⟨decide_eq_true hcount, rfl⟩
  case h_7 =>
    obtain ⟨hcount, h⟩ := requireCount_eq_ok.mp h
    obtain ⟨hreader, ⟨⟩⟩ := requireReader_eq_ok.mp h
    rw [hcodec rfl]
    exact ⟨by simp [Instr.wellFormed, hcount, hreader], rfl⟩
  case h_8 | h_9 | h_10 =>
    obtain ⟨hreader, ⟨⟩⟩ := requireReader_eq_ok.mp h
    rw [hcodec rfl, hn rfl]
    exact ⟨decide_eq_true hreader, rfl⟩
  case h_11 | h_13 =>
    rw [hn rfl, hrid rfl]
    refine selectCodec_elim (P := fun c => HasFields nReaders _ c 0 0) h ?_ ?_ ?_ ?_ ?_ ?_ <;> exact ⟨rfl, rfl⟩
  case h_12 =>
    obtain ⟨hreader, h⟩ := requireReader_eq_ok.mp h
    rw [hn rfl]
    refine selectCodec_elim (P := fun c => HasFields nReaders _ c 0 (ridField w)) h ?_ ?_ ?_ ?_ ?_ ?_ <;>
      exact ⟨decide_eq_true hreader, rfl⟩

/-- Settles O2: a word with zero reserved bits is the word of its fields. -/
theorem decodedCommandIsItsWord : Obligations.DecodedCommandIsItsWord := by
  intro nReaders w i h
  obtain ⟨⟨hreserved, htop⟩, hwf, he⟩ := hasFields_of_decode h
  exact ⟨hwf, he.trans (commandWord_fields w hreserved htop)⟩

/-- Settles O4, by evaluating the decoder on the twelve words. -/
theorem workedEncodingsDecode : Obligations.WorkedEncodingsDecode := by
  unfold Obligations.WorkedEncodingsDecode
  decide

/-! ### CSRR -/

/-- STATUS as a number (10_state.md R31). -/
theorem statusRegister_eq (s : State) : s.statusRegister =
    BitVec.ofNat 64 ((match s.mode with | .building => 0 | .frozen => 1) + 2 ^ 4 * (faultField s.fault).toNat) := by
  unfold State.statusRegister
  generalize faultField s.fault = f
  revert f
  cases s.mode <;> decide

/-- CONFIG as a number, where the count of contexts fits its field (10_state.md R34). -/
theorem configRegister_eq (s : State) (h : s.cfg.nReaders ≤ 16) : s.configRegister =
    BitVec.ofNat 64 ((match s.cfg.endian with | .be => 0 | .le => 1) + 2 ^ 8 * s.cfg.nReaders + 2 ^ 16) := by
  unfold State.configRegister
  generalize s.cfg.nReaders = n at h
  revert n
  cases s.cfg.endian <;> decide

theorem execCsrr_of_register {s : State} {csr : BitVec 7} {n : Nat}
    (h : s.controlRegister csr = some (BitVec.ofNat 64 n)) : exec (.csrr csr) s = .next (s.completed n) := by
  rcases execCsrr_cases csr s with ⟨v, hv, e⟩ | ⟨hnone, _⟩
  · cases hv.symm.trans h
    exact e
  · simp [hnone] at h

theorem execCsrr_of_reserved {s : State} {csr : BitVec 7} (h : 3 < csr.toNat) : exec (.csrr csr) s = illegal s := by
  rcases execCsrr_cases csr s with ⟨v, hv, _⟩ | ⟨_, e⟩
  · have hlegal : legalCsr csr := (controlRegister_isSome csr s).mp (by simp [hv])
    exact absurd h (Nat.not_lt.mpr hlegal)
  · exact e

/-- Settles O31, register by register. -/
theorem controlRegistersReadTheirFields : Obligations.ControlRegistersReadTheirFields := by
  intro s hcfg
  obtain ⟨_, _, _, hreaders⟩ := hcfg
  refine ⟨execCsrr_of_register ?_, execCsrr_of_register rfl, execCsrr_of_register rfl, execCsrr_of_register ?_,
    fun csr hcsr => ⟨fun hf => ?_, fun hf => ?_⟩⟩
  · exact congrArg some (statusRegister_eq s)
  · exact congrArg some (configRegister_eq s hreaders)
  · rw [execCsrr_of_reserved hcsr, illegal, hf]
    rfl
  · rw [execCsrr_of_reserved hcsr, illegal_eq_blocked hf]
    rfl

/-! ### RESET: its word, and the two resets -/

theorem decode_reset (nReaders : Nat) : decode nReaders 0x00000001 = .ok .reset := decodeInvertsEncode nReaders .reset rfl

/-- No other command has the opcode of RESET. -/
theorem eq_reset_of_opField {i : Instr} (h : opField (encode i) = 0x01) : i = .reset := by
  cases i <;> simp [encode] at h ⊢

theorem execReset_next (s : State) : exec .reset s = .next (answering s.resetUnit 0) := rfl

/-- Settles O30: by the inverse of the decoder for the word, and by the reset values for the unit. -/
theorem resetCommandClearsTheUnit : Obligations.ResetCommandClearsTheUnit := by
  refine ⟨fun nReaders w hop => ?_, fun s => ?_⟩
  · by_cases hw : w = 0x00000001
    · exact .inl ⟨hw, hw ▸ decode_reset nReaders⟩
    · refine .inr ⟨hw, ?_⟩
      cases hdecode : decode nReaders w with
      | error e => exact ⟨e, rfl⟩
      | ok i =>
        obtain ⟨_, he⟩ := decodedCommandIsItsWord nReaders w i hdecode
        have hreset := eq_reset_of_opField (i := i) (he ▸ hop)
        subst hreset
        exact absurd he.symm hw
  · exact ⟨_, execReset_next s, rfl, ⟨rfl, rfl, rfl, rfl⟩, rfl, rfl, rfl, resetUnit_cursor s, rfl, rfl, rfl, rfl, rfl⟩

/-- Settles O9: both events end in one step in a state with the reset values. -/
theorem bothResetsGiveTheResetState : Obligations.BothResetsGiveTheResetState := by
  intro s rest a b _
  have hword : step { s with inputs := .command 0x00000001 a b :: rest } =
      .next (answering (s.accept a b rest).resetUnit 0) := by
    rw [step_command rfl]
    simp only [runWord, accept_cfg, decode_reset]
    exact execReset_next _
  exact ⟨s.hardwareReset rest, _, rfl, hword, ⟨rfl, rfl, rfl, rfl, rfl⟩, rfl, rfl, rfl, rfl, rfl, rfl, rfl,
    hardwareReset_cursor s rest, congrArg some (statusRegister_eq _), rfl, rfl, rfl⟩

/-! ### SET_BIT_POS and GET_BIT_POS: match and mask -/

section Mask

variable (w : CommandWord)

/-- The mask of R87 keeps every field but RID. -/
theorem fields_and_mask : opField (w &&& 0xFF0FFFFF) = opField w ∧ codecField (w &&& 0xFF0FFFFF) = codecField w ∧
    nField (w &&& 0xFF0FFFFF) = nField w ∧ reservedBit (w &&& 0xFF0FFFFF) = reservedBit w ∧
    topField (w &&& 0xFF0FFFFF) = topField w ∧ ridField (w &&& 0xFF0FFFFF) = 0 := by
  refine ⟨?_, ?_, ?_, ?_, ?_, ?_⟩ <;>
    simp only [opField, codecField, nField, reservedBit, topField, ridField, BitVec.extractLsb'_and]
  case refine_6 => exact BitVec.and_zero
  all_goals exact BitVec.and_allOnes

/-- The fields of a word built from an opcode and a context. -/
theorem fields_of_eq {op : BitVec 8} {rid : BitVec 4} {w : CommandWord} (h : commandWord op 0 0 rid = w) :
    opField w = op ∧ codecField w = 0 ∧ nField w = 0 ∧ reservedBit w = 0 ∧ topField w = 0 ∧ ridField w = rid := by
  subst h
  simp

/-- Match and mask of a command whose word has no field but RID select exactly its words (30_encoding.md R87). -/
theorem and_mask_eq_iff (op : BitVec 8) :
    w &&& 0xFF0FFFFF = commandWord op 0 0 0 ↔ commandWord op 0 0 (ridField w) = w := by
  obtain ⟨mop, mcodec, mn, mreserved, mtop, mrid⟩ := fields_and_mask w
  constructor
  · intro h
    obtain ⟨hop, hcodec, hn, hreserved, htop, _⟩ := fields_of_eq h.symm
    rw [← commandWord_fields w (mreserved.symm.trans hreserved) (mtop.symm.trans htop), ← mop, ← mcodec, ← mn, hop,
      hcodec, hn, ridField_commandWord]
  · intro h
    obtain ⟨hop, hcodec, hn, hreserved, htop, _⟩ := fields_of_eq h
    rw [← commandWord_fields (w &&& 0xFF0FFFFF) (mreserved.trans hreserved) (mtop.trans htop), mop, mcodec, mn, mrid,
      hop, hcodec, hn]

end Mask

end Sys2Proof.Laws
end

section
/-! SUPPORT. The tokens of the buffer as read back (20_memory.md R56, R59) and the bit I/O commands that complete
(40_bitio.md R110 to R117): what each leaves and answers. -/

namespace Sys2Proof.Laws

open Sys2Proof.Machine

variable {s : State}

/-! ### MemRead -/

/-- A state that holds a given buffer: through it a law about the stream of a state is one about the buffer. -/
def withBuffer (m : Memory) (e : Endian) : State := { State.resetWith ⟨e, 1, 1⟩ with buf := m }

/-- The string of a token stands where MemWrite wrote it. -/
theorem holds_memWrite (m : Memory) (hm : m.wf) (e : Endian) (p n v : Nat) :
    (withBuffer (m.memWrite e p n v) e).holds p (tokenString e v n) := by
  rw [← tokenString_low e v n]
  exact fun j hj => bit_writeString_inside e _ m hm p j hj

/-- Settles O28, in each bit order by the weights of R56, the last clause by reading where the token stands. -/
theorem memReadGivesTheToken : Obligations.MemReadGivesTheToken := by
  refine ⟨fun m e p n _ => ⟨memRead_lt (withBuffer m e) p n, fun j hj => ?_⟩, fun _ _ _ => rfl,
    fun m e p n v hm _ => memRead_of_holds p n v (holds_memWrite m hm e p n v)⟩
  cases e with
  | be => exact testBit_memRead_be (s := withBuffer m .be) rfl p n j hj
  | le => exact testBit_memRead_le (s := withBuffer m .le) rfl p n j hj

/-! ### A token across two words -/

/-- The bits of BUF[i] as a number, when E = BE (20_memory.md R52). -/
theorem testBit_word_be (m : Memory) (i : Nat) {k : Nat} (hk : k < 64) :
    (m.word .be i).toNat.testBit k = m.bit .be (64 * i + (63 - k)) := by
  have hword : (64 * i + (63 - k)) / 64 = i := by omega
  have hbit : 63 - (64 * i + (63 - k)) % 64 = k := by omega
  rw [bit_eq_word_getLsbD_be, hword, hbit]
  rfl

/-- The bits of BUF[i] as a number, when E = LE (20_memory.md R52). -/
theorem testBit_word_le (m : Memory) (i : Nat) {k : Nat} (hk : k < 64) :
    (m.word .le i).toNat.testBit k = m.bit .le (64 * i + k) := by
  have hword : (64 * i + k) / 64 = i := by omega
  have hbit : (64 * i + k) % 64 = k := by omega
  rw [bit_eq_word_getLsbD_le, hword, hbit]
  rfl

theorem testBit_word_of_ge (m : Memory) (e : Endian) (i : Nat) {k : Nat} (hk : 64 ≤ k) :
    (m.word e i).toNat.testBit k = false :=
  BitVec.testBit_toNat _ ▸ BitVec.getLsbD_of_ge _ k hk

theorem testBit_low_of_ge (v : Nat) {n k : Nat} (hk : n ≤ k) : (low v n).testBit k = false := by
  simp [low, Nat.testBit_mod_two_pow, Nat.not_lt.mpr hk]

section Split

variable (m : Memory) (hm : m.wf) (p n v : Nat) (hn : n ≤ 64) (hp : 64 < p % 64 + n)
include hm hn hp

/-- E = BE: the high bits of the token end the first word, its low bits begin the next (20_memory.md R59). -/
theorem memWrite_splits_be :
    ((m.memWrite .be p n v).word .be (p / 64)).toNat % 2 ^ (64 - p % 64) = low v n / 2 ^ (n - (64 - p % 64)) ∧
    ((m.memWrite .be p n v).word .be (p / 64 + 1)).toNat / 2 ^ (64 - (n - (64 - p % 64))) =
      low v n % 2 ^ (n - (64 - p % 64)) := by
  constructor <;> refine Nat.eq_of_testBit_eq fun k => ?_ <;> rw [Nat.testBit_mod_two_pow, Nat.testBit_div_two_pow]
  · by_cases hk : k < 64 - p % 64
    · have hpos : 64 * (p / 64) + (63 - k) = p + (63 - p % 64 - k) := by omega
      have hbit : n - 1 - (63 - p % 64 - k) = n - (64 - p % 64) + k := by omega
      rw [testBit_word_be _ _ (by omega), hpos, bit_memWrite_inside_be m hm p n v _ (by omega), hbit]
      simp [hk, Nat.add_comm]
    · rw [testBit_low_of_ge v (by omega)]
      simp [hk]
  · by_cases hk : k < n - (64 - p % 64)
    · have hpos : 64 * (p / 64 + 1) + (63 - (k + (64 - (n - (64 - p % 64))))) = p + (n - 1 - k) := by omega
      have hbit : n - 1 - (n - 1 - k) = k := by omega
      rw [testBit_word_be _ _ (by omega), hpos, bit_memWrite_inside_be m hm p n v _ (by omega), hbit]
      simp [hk]
    · rw [testBit_word_of_ge _ _ _ (by omega)]
      simp [hk]

/-- E = LE: the low bits of the token end the first word, its high bits begin the next (20_memory.md R59). -/
theorem memWrite_splits_le :
    ((m.memWrite .le p n v).word .le (p / 64)).toNat / 2 ^ (p % 64) = low v n % 2 ^ (64 - p % 64) ∧
    ((m.memWrite .le p n v).word .le (p / 64 + 1)).toNat % 2 ^ (n - (64 - p % 64)) = low v n / 2 ^ (64 - p % 64) := by
  constructor <;> refine Nat.eq_of_testBit_eq fun k => ?_ <;> rw [Nat.testBit_mod_two_pow, Nat.testBit_div_two_pow]
  · by_cases hk : k < 64 - p % 64
    · have hpos : 64 * (p / 64) + (k + p % 64) = p + k := by omega
      rw [testBit_word_le _ _ (by omega), hpos, bit_memWrite_inside_le m hm p n v _ (by omega)]
      simp [hk]
    · rw [testBit_word_of_ge _ _ _ (by omega)]
      simp [hk]
  · by_cases hk : k < n - (64 - p % 64)
    · have hpos : 64 * (p / 64 + 1) + k = p + (k + (64 - p % 64)) := by omega
      rw [testBit_word_le _ _ (by omega), hpos, bit_memWrite_inside_le m hm p n v _ (by omega)]
      simp [hk]
    · rw [testBit_low_of_ge v (by omega)]
      simp [hk]

end Split

/-- Settles O29, in each bit order bit by bit. -/
theorem tokenAcrossWordsSplits : Obligations.TokenAcrossWordsSplits := by
  intro m e p n v hm hn hp
  cases e with
  | be => exact memWrite_splits_be m hm p n v hn hp
  | le => exact memWrite_splits_le m hm p n v hn hp

/-! ### Commands that append -/

/-- The result is that of a command that appended the bits and answered their number n. -/
def AppendsBits (s : State) (r : Result) (n : Nat) (bits : List Bool) : Prop :=
  ∃ t, r = .next t ∧ t.reply = okReply n ∧ t.wlen = s.wlen + n ∧ s.Appended t bits

theorem appendsBits_finish (hs : s.buf.wf) {n : Nat} {bits : List Bool} (hn : bits.length = n) :
    AppendsBits s (finish (s.append bits) (BitVec.ofNat 64 n)) n bits := by
  obtain ⟨hwritten, houtside, hcursor, hrest, hport⟩ := append_appended hs bits
  exact ⟨_, rfl, rfl, congrArg (s.wlen + ·) hn, hwritten, houtside, hcursor, hrest, hport⟩

/-- WRITE_BITS that completes (40_bitio.md R110). -/
theorem execWriteBits_ok {n : BitVec 7} (hs : s.canWrite) (hn : legalCount n)
    (hroom : s.wlen + n.toNat ≤ s.cfg.capBits) : exec (.writeBits n) s =
      finish (s.append (tokenString s.cfg.endian s.a n.toNat)) (BitVec.ofNat 64 n.toNat) := by
  simpa [exec, hs, hn, hroom, Nat.not_lt.mpr hroom] using execWriteBits_cases n s

/-- WRITE_UNARY that completes (40_bitio.md R111). -/
theorem execWriteUnary_ok (hs : s.canWrite) (hroom : s.wlen + s.a + 1 ≤ s.cfg.capBits) :
    exec .writeUnary s = finish (s.append (unaryString s.a)) (BitVec.ofNat 64 (s.a + 1)) := by
  have hroom' : s.wlen + s.a < s.cfg.capBits := hroom
  simpa [exec, hs, hroom', Nat.not_lt.mpr hroom] using execWriteUnary_cases s

/-- Settles O32: the token is appended, and its bits in the order of E are those of A. -/
theorem writeBitsAppendsTheToken : Obligations.WriteBitsAppendsTheToken := by
  intro n s hwf hs hn hroom
  obtain ⟨t, he, hreply, hwlen, happ⟩ :=
    appendsBits_finish hwf (tokenString_length s.cfg.endian s.opA.toNat n.toNat)
  refine ⟨t, (execWriteBits_ok hs hn hroom).trans he, hreply, hwlen, happ, fun j hj => ?_⟩
  rw [happ.written j (by simpa using hj)]
  cases s.cfg.endian with
  | be => exact tokenString_be ..
  | le => exact tokenString_le ..

/-- Settles O33: the run is appended, zeros before its one. -/
theorem writeUnaryAppendsTheRun : Obligations.WriteUnaryAppendsTheRun := by
  intro s hwf hs hroom
  obtain ⟨t, he, hreply, hwlen, happ⟩ := appendsBits_finish hwf (unaryString_length s.opA.toNat)
  refine ⟨t, (execWriteUnary_ok hs hroom).trans he, hreply, hwlen, happ, fun j hj => ?_, ?_⟩
  · rw [happ.written j (by simp; omega), unaryString_getElem]
    simp; omega
  · rw [happ.written _ (by simp), unaryString_getElem]
    simp

/-! ### FLUSH -/

/-- FLUSH in BUILDING (40_bitio.md R112). -/
theorem execFlush_building (hs : s.canWrite) :
    exec .flush s = finish { s.pad with mode := .frozen } (BitVec.ofNat 64 s.wlen) := by
  simpa [exec, hs] using execFlush_cases s

/-- FLUSH in FROZEN (40_bitio.md R112). -/
theorem execFlush_frozen (hf : s.fault = none) (hmode : s.mode = .frozen) :
    exec .flush s = finish s (BitVec.ofNat 64 s.wlen) := by
  simpa [exec, hf, hmode] using execFlush_cases s

/-- Padding writes zeros up to the end of the last word. -/
theorem bit_pad_inside (hwf : s.buf.wf) {p : Nat} (hlo : s.wlen ≤ p) (hhi : p < 64 * wordsFor s.wlen) :
    s.pad.bit p = false := by
  obtain ⟨j, rfl⟩ := Nat.exists_eq_add_of_le hlo
  refine (bit_writeString_inside _ _ _ hwf _ j (by simp; omega)).trans ?_
  simp

/-- Padding writes nothing else. -/
theorem bit_pad_outside (hwf : s.buf.wf) {p : Nat} (h : p < s.wlen ∨ 64 * wordsFor s.wlen ≤ p) :
    s.pad.bit p = s.bit p := by
  have hle := le_wordsFor s.wlen
  exact bit_writeString_outside _ _ _ hwf _ p (by simp; omega)

/-- Settles O34, in each mode. -/
theorem flushPadsAndFreezes : Obligations.FlushPadsAndFreezes := by
  intro s hf
  refine ⟨fun hmode hwf => ?_, execFlush_frozen hf⟩
  exact ⟨_, execFlush_building ⟨hf, hmode⟩, rfl, rfl, fun _ => bit_pad_inside hwf, fun _ => bit_pad_outside hwf, rfl, hf,
    rfl, rfl, rfl, rfl, rfl⟩

/-! ### Commands that read at a cursor -/

/-- The result is that of a command that read x at the cursor of rid and moved it to pos. -/
def ReadsValue (s : State) (r : Result) (rid : BitVec 4) (x pos : Nat) : Prop :=
  ∃ t, r = .next t ∧ t.reply = okReply x ∧ s.ReadTo t rid pos

theorem readsValue_finish (rid : BitVec 4) (pos x : Nat) :
    ReadsValue s (finish (s.setCursor rid (BitVec.ofNat 64 pos)) (BitVec.ofNat 64 x)) rid x pos :=
  ⟨_, rfl, rfl, cursor_setCursor_self s rid _, fun _ h => cursor_setCursor_of_ne s _ h, ⟨rfl, rfl, rfl, rfl⟩,
    ⟨rfl, rfl, rfl, rfl⟩⟩

/-- READ_BITS that is let through (40_bitio.md R113). -/
theorem execReadBits_ok {rid : BitVec 4} {n : BitVec 7} (hs : s.canRead rid) (hn : legalCount n) :
    exec (.readBits rid n) s = finishRead s rid (readBitsAt s (s.cursor rid).toNat n.toNat) := by
  simpa [exec, hs, hn] using execReadBits_cases rid n s

/-- READ_UNARY that is let through (40_bitio.md R114). -/
theorem execReadUnary_ok {rid : BitVec 4} (hs : s.canRead rid) :
    exec (.readUnary rid) s = finishRead s rid (readUnaryAt s (s.cursor rid).toNat) := by
  simpa [exec, hs] using execReadUnary_cases rid s

/-- SET_BIT_POS that is let through (40_bitio.md R115). -/
theorem execSetBitPos_ok {rid : BitVec 4} (hs : s.canRead rid) :
    exec (.setBitPos rid) s = finish (s.setCursor rid s.opA) 0 := by
  simpa [exec, hs] using execSetBitPos_cases rid s

/-- GET_BIT_POS that is let through (40_bitio.md R116). -/
theorem execGetBitPos_ok {rid : BitVec 4} (hs : s.canRead rid) : exec (.getBitPos rid) s = finish s (s.cursor rid) := by
  simpa [exec, hs] using execGetBitPos_cases rid s

/-- BUF_READ of a word that holds stream bits (40_bitio.md R117). -/
theorem execBufRead_ok (hf : s.fault = none) (hmode : s.mode = .frozen) (ha : s.a < wordsFor s.wlen) :
    exec .bufRead s = finish s (s.word s.a) := by
  simpa [exec, hf, hmode, ha, Nat.not_le.mpr ha] using execBufRead_cases s

theorem ofNat_toNat_word (v : Word) : BitVec.ofNat 64 v.toNat = v := by simp

theorem finish_eq_completed (s : State) (v : Word) : finish s v = .next (s.completed v.toNat) := by
  rw [State.completed, okReply, ofNat_toNat_word]
  rfl

/-- Settles O35: the value is that of MemRead at the cursor. -/
theorem readBitsGivesTheToken : Obligations.ReadBitsGivesTheToken := by
  intro rid n s hs hn hw
  obtain ⟨t, he, hreply, hread⟩ := readsValue_finish (s := s) rid ((s.cursor rid).toNat + n.toNat)
    (s.memRead (s.cursor rid).toNat n.toNat)
  refine ⟨t, s.memRead (s.cursor rid).toNat n.toNat, ?_, hread, hreply, memRead_lt s _ _, fun j hj => ?_⟩
  · rw [execReadBits_ok hs hn, readBitsAt_eq_value.mpr ⟨hw, rfl, rfl⟩]
    exact he
  · cases hendian : s.cfg.endian with
    | be => exact testBit_memRead_be hendian _ _ j hj
    | le => exact testBit_memRead_le hendian _ _ j hj

/-- Settles O36: the run at the cursor is the one READ_UNARY finds. -/
theorem readUnaryCountsTheZeros : Obligations.ReadUnaryCountsTheZeros := by
  intro rid q s hs hw hzeros hone
  rw [execReadUnary_ok hs, readUnaryAt_eq_value.mpr ⟨⟨hw, hzeros, hone⟩, rfl⟩]
  exact readsValue_finish rid _ q

/-- Settles O37: match and mask by the fields of the word, the two commands by their checks. -/
theorem seekSetsAndTellReadsTheCursor : Obligations.SeekSetsAndTellReadsTheCursor := by
  refine ⟨fun w => ⟨and_mask_eq_iff w 0x1A, and_mask_eq_iff w 0x1B⟩, fun rid s hf => ⟨fun hs => ⟨?_, ?_⟩,
    fun hreader hmode => ?_, fun hreader => ?_⟩⟩
  · have hread := readsValue_finish (s := s) rid s.opA.toNat 0
    rw [ofNat_toNat_word] at hread
    exact execSetBitPos_ok hs ▸ hread
  · rw [execGetBitPos_ok hs, finish_eq_completed]
  · simp [exec_eq_faulted_iff, firstFault, readerFault_eq_some, hf, hreader, hmode]
  · simp [exec_eq_faulted_iff, firstFault, readerFault_eq_some, hf, hreader]

/-- Settles O38: the word answered is that of the buffer, whose bits are stream positions (20_memory.md R52). -/
theorem bufReadGivesTheFinishedWord : Obligations.BufReadGivesTheFinishedWord := by
  intro s hf hmode ha
  refine ⟨s.word s.a, ?_, fun k hk => ?_⟩
  · rw [execBufRead_ok hf hmode ha, finish_eq_completed]
  · have hword : (64 * s.opA.toNat + k) / 64 = s.a := by simp only [State.a]; omega
    have hbit : (64 * s.opA.toNat + k) % 64 = k := by omega
    have hpos := positionIsABitOfItsWord s (64 * s.opA.toNat + k)
    rw [hword, hbit] at hpos
    exact hpos.symm

end Sys2Proof.Laws
end

section
/-! SUPPORT. The six codecs (42_codec_gamma_delta.md, 43_codec_expgolomb_rice.md, 44_codec_zeta_minbin.md) with the
exponents given by what they bracket: the codewords ENC appends, DEC reads and LEN measures, and the laws of
41_codec_contract.md R146 and R150. -/

namespace Sys2Proof.Laws

open Sys2Proof.Machine

variable {s : State}

/-! ### Codewords by their bracketing exponents -/

section Brackets

variable {x h k : Nat}

theorem gammaCode_eq (hlo : 2 ^ h ≤ x + 1) (hhi : x + 1 < 2 ^ (h + 1)) :
    gammaCode x = [.unary h, .binary (x + 1 - 2 ^ h) h] := by
  simp only [gammaCode, flog2_unique hlo hhi]

theorem deltaCode_eq {g : Nat} (hlo : 2 ^ h ≤ x + 1) (hhi : x + 1 < 2 ^ (h + 1)) (glo : 2 ^ g ≤ h + 1)
    (ghi : h + 1 < 2 ^ (g + 1)) :
    deltaCode x = [.unary g, .binary (h + 1 - 2 ^ g) g, .binary (x + 1 - 2 ^ h) h] := by
  simp only [deltaCode, flog2_unique hlo hhi, gammaCode_eq glo ghi, List.cons_append, List.nil_append]

theorem expGolombCode_eq (hlo : 2 ^ h ≤ x / 2 ^ k + 1) (hhi : x / 2 ^ k + 1 < 2 ^ (h + 1)) :
    expGolombCode k x = [.unary h, .binary (x / 2 ^ k + 1 - 2 ^ h) h, .binary (x % 2 ^ k) k] := by
  simp only [expGolombCode, gammaCode_eq hlo hhi, List.cons_append, List.nil_append]

theorem zetaLevel_eq (hlo : 2 ^ (h * k) ≤ x + 1) (hhi : x + 1 < 2 ^ ((h + 1) * k)) : zetaLevel k x = h := by
  obtain ⟨flo, fhi⟩ := flog2_spec (n := x + 1) (by omega)
  have hbelow : flog2 (x + 1) < (h + 1) * k := flog2_lt (by omega) hhi
  have habove : h * k < flog2 (x + 1) + 1 := (Nat.pow_lt_pow_iff_right (by omega : 1 < 2)).mp (by omega)
  exact Nat.div_eq_of_lt_le (by omega) hbelow

theorem zetaCode_eq_short (hk : 1 ≤ k) (hlo : 2 ^ (h * k) ≤ x + 1) (hhi : x + 1 < 2 ^ ((h + 1) * k))
    (hv : x + 1 - 2 ^ (h * k) < 2 ^ (h * k)) :
    zetaCode k x = [.unary h, .binary (x + 1 - 2 ^ (h * k)) (h * k + k - 1)] := by
  have hlim : x + 1 - zetaLow k h < minbinLimit (zetaWidth k h) := by rwa [minbinLimit_zetaWidth hk]
  simp only [zetaCode, zetaLevel_eq hlo hhi, minbinCode_short hlim, flog2_zetaWidth hk]
  rfl

theorem zetaCode_eq_long (hk : 1 ≤ k) (hlo : 2 ^ (h * k) ≤ x + 1) (hhi : x + 1 < 2 ^ ((h + 1) * k))
    (hv : 2 ^ (h * k) ≤ x + 1 - 2 ^ (h * k)) :
    zetaCode k x = [.unary h, .binary ((x + 1 - 2 ^ (h * k) + 2 ^ (h * k)) / 2) (h * k + k - 1),
      .binary ((x + 1 - 2 ^ (h * k) + 2 ^ (h * k)) % 2) 1] := by
  have hlim : minbinLimit (zetaWidth k h) ≤ x + 1 - zetaLow k h := by rwa [minbinLimit_zetaWidth hk]
  simp only [zetaCode, zetaLevel_eq hlo hhi, minbinCode_long hlim, flog2_zetaWidth hk, minbinLimit_zetaWidth hk]
  rfl

theorem minbinLimit_eq {u l : Nat} (hlo : 2 ^ l ≤ u) (hhi : u < 2 ^ (l + 1)) : minbinLimit u = 2 ^ (l + 1) - u := by
  rw [minbinLimit, flog2_unique hlo hhi]

theorem minbinCode_eq_short {u l : Nat} (hlo : 2 ^ l ≤ u) (hhi : u < 2 ^ (l + 1)) (hx : x < 2 ^ (l + 1) - u) :
    minbinCode u x = [.binary x l] := by
  rw [minbinCode_short (minbinLimit_eq hlo hhi ▸ hx), flog2_unique hlo hhi]

theorem minbinCode_eq_long {u l : Nat} (hlo : 2 ^ l ≤ u) (hhi : u < 2 ^ (l + 1)) (hx : 2 ^ (l + 1) - u ≤ x) :
    minbinCode u x =
      [.binary ((x + (2 ^ (l + 1) - u)) / 2) l, .binary ((x + (2 ^ (l + 1) - u)) % 2) 1] := by
  rw [minbinCode_long (minbinLimit_eq hlo hhi ▸ hx), flog2_unique hlo hhi, minbinLimit_eq hlo hhi]

/-- The accepted inputs of zeta by the exponent that brackets them (44_codec_zeta_minbin.md R200). -/
theorem valueDomain_zeta (hx : x ≤ 2 ^ 64 - 2) (hlo : 2 ^ (h * k) ≤ x + 1) (hhi : x + 1 < 2 ^ ((h + 1) * k))
    (hfit : (h + 1) * k ≤ 64) : valueDomain .zeta k x :=
  ⟨hx, (congrArg (fun l => (l + 1) * k) (zetaLevel_eq hlo hhi)).trans_le hfit⟩

theorem valueDomain_shift (hx : x ≤ 2 ^ 64 - 1) (hv : ¬ (k = 0 ∧ x = 2 ^ 64 - 1)) :
    x ≤ 2 ^ 64 - 1 ∧ ¬ (x = 2 ^ 64 - 1 ∧ k = 0) :=
  ⟨hx, fun ⟨h₁, h₂⟩ => hv ⟨h₂, h₁⟩⟩

end Brackets

/-! ### ENC -/

/-- ENC.c of an accepted input that fits (41_codec_contract.md R143). -/
theorem exec_enc_ok (c : CodecName) (hs : s.canWrite) (hp : paramDomain c s.b) (hv : valueDomain c s.b s.a)
    (hroom : s.wlen + c.codec.len s.b s.a ≤ s.cfg.capBits) : exec c.enc s =
      finish (s.append (codeString s.cfg.endian (c.codec.code s.b s.a))) (BitVec.ofNat 64 (c.codec.len s.b s.a)) := by
  have hparam := (paramOk_eq_true c).mpr hp
  have hvalue : c.codec.valueOk s.b s.a = true := (valueOk_eq_true c s.opA.isLt).mpr hv
  rw [exec_enc]
  simpa [hs, hparam, hvalue, hroom, Nat.not_lt.mpr hroom] using encodeWith_cases c.codec s

/-- ENC.c appends its codeword, given as a token list, and answers its length. -/
theorem exec_enc_appends (c : CodecName) {n : Nat} {ts : List Token} (hwf : s.buf.wf) (hs : s.canWrite)
    (hp : paramDomain c s.b) (hv : valueDomain c s.b s.a) (hcode : c.codec.code s.b s.a = ts) (hn : codeLength ts = n)
    (hroom : s.wlen + n ≤ s.cfg.capBits) : AppendsBits s (exec c.enc s) n (codeString s.cfg.endian ts) := by
  have hlen : codeLength (c.codec.code s.b s.a) = c.codec.len s.b s.a :=
    (codec_faithful c).length ((paramOk_eq_true c).mpr hp) ((valueOk_eq_true c s.opA.isLt).mpr hv)
  rw [hcode, hn] at hlen
  rw [exec_enc_ok c hs hp hv (hlen ▸ hroom), ← hlen, hcode]
  exact appendsBits_finish hwf (by simpa using hn)

theorem opA_le (s : State) : s.opA.toNat ≤ 2 ^ 64 - 1 := Nat.le_pred_of_lt s.opA.isLt

/-- Settles O39, by the codeword of the bracketing exponent. -/
theorem encGammaAppendsTheCodeword : Obligations.EncGammaAppendsTheCodeword := by
  intro s h hwf hs hx hlo hhi hroom
  exact exec_enc_appends .gamma hwf hs trivial hx (gammaCode_eq hlo hhi) (by simp [Token.length]; omega) hroom

/-- Settles O40, by the codeword of the two bracketing exponents. -/
theorem encDeltaAppendsTheCodeword : Obligations.EncDeltaAppendsTheCodeword := by
  intro s h g hwf hs hx hlo hhi glo ghi hroom
  exact exec_enc_appends .delta hwf hs trivial hx (deltaCode_eq hlo hhi glo ghi) (by simp [Token.length]; omega) hroom

/-- Settles O41, by the codeword of the bracketing exponent. -/
theorem encExpGolombAppendsTheCodeword : Obligations.EncExpGolombAppendsTheCodeword := by
  intro s h k d hwf hs hk hv hlo hhi hroom
  exact exec_enc_appends .expGolomb hwf hs hk (valueDomain_shift (opA_le s) hv) (expGolombCode_eq hlo hhi)
    (by simp [Token.length]; omega) hroom

/-- Settles O42: the codeword needs no bracket. -/
theorem encRiceAppendsTheCodeword : Obligations.EncRiceAppendsTheCodeword := by
  intro s k d hwf hs hk hv hroom
  exact exec_enc_appends .rice hwf hs hk (valueDomain_shift (opA_le s) hv) rfl (by simp [Token.length]) hroom

/-- Settles O43, form by form. -/
theorem encZetaAppendsTheCodeword : Obligations.EncZetaAppendsTheCodeword := by
  intro s h k m lo v hwf hs hk hk' hx hlo hhi hfit
  have hvalue := valueDomain_zeta hx hlo hhi hfit
  exact ⟨fun hv hroom => exec_enc_appends .zeta hwf hs ⟨hk, hk'⟩ hvalue (zetaCode_eq_short hk hlo hhi hv)
      (by simp [Token.length]; omega) hroom,
    fun hv hroom => exec_enc_appends .zeta hwf hs ⟨hk, hk'⟩ hvalue (zetaCode_eq_long hk hlo hhi hv)
      (by simp [Token.length]; omega) hroom⟩

/-- Settles O44, form by form. -/
theorem encMinbinAppendsTheCodeword : Obligations.EncMinbinAppendsTheCodeword := by
  intro s l u x limit hwf hs hx hlo hhi
  have hu : 1 ≤ u := Nat.lt_of_le_of_lt (Nat.zero_le x) hx
  exact ⟨fun hlim hroom => exec_enc_appends .minbin hwf hs hu hx (minbinCode_eq_short hlo hhi hlim)
      (by simp [Token.length]) hroom,
    fun hlim hroom => exec_enc_appends .minbin hwf hs hu hx (minbinCode_eq_long hlo hhi hlim)
      (by simp [Token.length]) hroom⟩

/-! ### DEC -/

/-- DEC.c where the parse procedure gives a value (41_codec_contract.md R144). -/
theorem exec_dec_of_parse (c : CodecName) {rid : BitVec 4} {x pos : Nat} (hs : s.canRead rid) (hp : paramDomain c s.b)
    (hparse : c.codec.parse s.b s (s.cursor rid).toNat = .value x pos) :
    ReadsValue s (exec (c.dec rid) s) rid x pos := by
  rw [exec_dec]
  exact decodeWith_of_parse hs ((paramOk_eq_true c).mpr hp) hparse

/-- DEC.c reads the codeword, given as a token list, of an accepted x that stands at the cursor. -/
theorem exec_dec_reads (c : CodecName) {rid : BitVec 4} {x n : Nat} {ts : List Token} (hs : s.canRead rid)
    (hp : paramDomain c s.b) (hv : valueDomain c s.b x) (hx : x ≤ 2 ^ 64 - 1) (hcode : c.codec.code s.b x = ts)
    (hn : codeLength ts = n) (hw : (s.cursor rid).toNat + n ≤ s.wlen)
    (hholds : s.holds (s.cursor rid).toNat (codeString s.cfg.endian ts)) :
    ReadsValue s (exec (c.dec rid) s) rid x ((s.cursor rid).toNat + n) := by
  subst hcode hn
  exact exec_dec_of_parse c hs hp ((codec_faithful c).parse ((paramOk_eq_true c).mpr hp)
    ((valueOk_eq_true c (Nat.lt_of_le_pred (by omega) hx)).mpr hv) hx ⟨hw, hholds⟩)

/-- Settles O45, by the codeword of the bracketing exponent. -/
theorem decGammaReadsTheCodeword : Obligations.DecGammaReadsTheCodeword := by
  intro rid s x h hs hx hlo hhi hw hholds
  exact exec_dec_reads .gamma hs trivial hx (by omega) (gammaCode_eq hlo hhi) (by simp [Token.length]; omega) hw hholds

/-- Settles O46, by the codeword of the two bracketing exponents. -/
theorem decDeltaReadsTheCodeword : Obligations.DecDeltaReadsTheCodeword := by
  intro rid s x h g hs hx hlo hhi glo ghi hw hholds
  exact exec_dec_reads .delta hs trivial hx (by omega) (deltaCode_eq hlo hhi glo ghi) (by simp [Token.length]; omega) hw
    hholds

/-- Settles O47, by the codeword of the bracketing exponent. -/
theorem decExpGolombReadsTheCodeword : Obligations.DecExpGolombReadsTheCodeword := by
  intro rid s x h k d hs hk hx hv hlo hhi hw hholds
  exact exec_dec_reads .expGolomb hs hk (valueDomain_shift hx hv) hx (expGolombCode_eq (k := k) hlo hhi)
    (by simp [Token.length]; omega) hw hholds

/-- R187 where a Rice codeword stands, whether ENC accepts its value or not. -/
theorem riceParse_of_stands {k x p : Nat} (hx : x ≤ 2 ^ 64 - 1) (h : Stands s p (riceCode k x)) :
    riceParse k s p = .value x (p + (x / 2 ^ k + 1 + k)) := by
  obtain ⟨hquot, hrem⟩ := stands_cons.mp h
  rw [riceParse, readUnaryAt_of_stands hquot]
  exact (quotientThenRemainder_of_stands hx hrem).trans (by simp [Token.length, Nat.add_assoc])

/-- Settles O48: the parse procedure gives every 64-bit x, the one that ENC refuses for k = 0 among them. -/
theorem decRiceReadsTheCodeword : Obligations.DecRiceReadsTheCodeword := by
  intro rid s x k d hs hk hx hw hholds
  have hlen : codeLength (riceCode k x) = d + 1 + k := by simp [riceCode, Token.length]; rfl
  exact exec_dec_of_parse .rice hs hk (riceParse_of_stands hx ⟨hlen ▸ hw, hholds⟩)

/-- Settles O49, form by form. -/
theorem decZetaReadsTheCodeword : Obligations.DecZetaReadsTheCodeword := by
  intro rid s x h k lo v p hs hk hk' hx hlo hhi hfit
  have hvalue := valueDomain_zeta hx hlo hhi hfit
  exact ⟨fun hv hw hholds => exec_dec_reads .zeta hs ⟨hk, hk'⟩ hvalue (by omega) (zetaCode_eq_short (k := k) hk hlo hhi hv)
      (by simp [Token.length]; omega) hw hholds,
    fun hv hw hholds => exec_dec_reads .zeta hs ⟨hk, hk'⟩ hvalue (by omega) (zetaCode_eq_long (k := k) hk hlo hhi hv)
      (by simp [Token.length]; omega) hw hholds⟩

/-- Settles O50, form by form. -/
theorem decMinbinReadsTheCodeword : Obligations.DecMinbinReadsTheCodeword := by
  intro rid s x l u limit p hs hx hlo hhi
  have hu : 1 ≤ u := Nat.lt_of_le_of_lt (Nat.zero_le x) hx
  have hbound : x ≤ 2 ^ 64 - 1 := Nat.le_of_lt_succ (Nat.lt_trans hx s.opB.isLt)
  exact ⟨fun hlim hw hholds => exec_dec_reads .minbin hs hu hx hbound (minbinCode_eq_short hlo hhi hlim)
      (by simp [Token.length]) hw hholds,
    fun hlim hw hholds => exec_dec_reads .minbin hs hu hx hbound (minbinCode_eq_long hlo hhi hlim)
      (by simp [Token.length]) hw hholds⟩

/-! ### The bounds of the lengths -/

section Bounds

variable {x h k : Nat}

theorem le_of_two_pow_le {n m : Nat} (hlo : 2 ^ h ≤ n) (hn : n < 2 ^ (m + 1)) : h ≤ m :=
  Nat.le_of_lt_succ ((Nat.pow_lt_pow_iff_right (by omega : 1 < 2)).mp (Nat.lt_of_le_of_lt hlo hn))

/-- A gamma length is at most 127 (42_codec_gamma_delta.md R161). -/
theorem gamma_exponent_le (hx : x ≤ 2 ^ 64 - 2) (hlo : 2 ^ h ≤ x + 1) : h ≤ 63 :=
  le_of_two_pow_le hlo (by omega)

theorem delta_exponent_le {g : Nat} (hh : h ≤ 63) (glo : 2 ^ g ≤ h + 1) : g ≤ 6 :=
  le_of_two_pow_le glo (by omega)

theorem quotient_lt (hk : k ≤ 64) (hx : x ≤ 2 ^ 64 - 1) : x / 2 ^ k < 2 ^ (64 - k) := by
  rw [Nat.div_lt_iff_lt_mul (Nat.two_pow_pos k), ← Nat.pow_add, Nat.sub_add_cancel hk]
  omega

/-- The exponent of an exp-Golomb codeword leaves room for the remainder: its length is at most 128
(43_codec_expgolomb_rice.md R181). -/
theorem expGolomb_length_le (hk : k ≤ 64) (hx : x ≤ 2 ^ 64 - 1) (hv : ¬ (k = 0 ∧ x = 2 ^ 64 - 1))
    (hlo : 2 ^ h ≤ x / 2 ^ k + 1) : 2 * h + 1 + k ≤ 128 := by
  have hquot := quotient_lt hk hx
  rcases Nat.eq_zero_or_pos k with rfl | hpos
  · rw [Nat.pow_zero, Nat.div_one] at hlo
    have hh := gamma_exponent_le (by omega) hlo
    omega
  · have hh : h ≤ 64 - k := (Nat.pow_le_pow_iff_right (by omega : 1 < 2)).mp (Nat.le_trans hlo hquot)
    omega

/-- A Rice length fits 64 bits (43_codec_expgolomb_rice.md R186). -/
theorem rice_length_le (hk : k ≤ 64) (hx : x ≤ 2 ^ 64 - 1) (hv : ¬ (k = 0 ∧ x = 2 ^ 64 - 1)) :
    x / 2 ^ k + 1 + k ≤ 2 ^ 64 - 1 := by
  have hquot := quotient_lt hk hx
  rcases Nat.eq_zero_or_pos k with rfl | hpos
  · rw [Nat.pow_zero, Nat.div_one]
    omega
  · have hhalf : 2 ^ (64 - k) ≤ 2 ^ 63 := Nat.pow_le_pow_right (by omega) (by omega)
    omega

/-- A zeta length is at most 129 (44_codec_zeta_minbin.md R204). -/
theorem zeta_length_le (hk : 1 ≤ k) (hfit : (zetaLevel k x + 1) * k ≤ 64) : zetaLength k x ≤ 129 := by
  have hlevel : zetaLevel k x ≤ zetaLevel k x * k := Nat.le_mul_of_pos_right _ hk
  rw [Nat.succ_mul] at hfit
  simp only [zetaLength]
  split
  · omega
  · split <;> omega

theorem minbin_length_le {u : Nat} (hu : 1 ≤ u) (hmax : u ≤ 2 ^ 64 - 1) : minbinLength u x ≤ 64 := by
  have hlog : flog2 u < 64 := flog2_lt hu (by omega)
  rw [minbinLength]
  split <;> omega

end Bounds

/-! ### LEN -/

theorem exec_len (c : CodecName) (s : State) : exec c.len s = lengthWith c.codec s := by
  cases c <;> rfl

/-- LEN.c of an accepted input (41_codec_contract.md R145). -/
theorem exec_len_ok (c : CodecName) {n : Nat} (hf : s.fault = none) (hp : paramDomain c s.b)
    (hv : valueDomain c s.b s.a) (hn : c.codec.len s.b s.a = n) : exec c.len s = .next (s.completed n) := by
  have hparam := (paramOk_eq_true c).mpr hp
  have hvalue : c.codec.valueOk s.b s.a = true := (valueOk_eq_true c s.opA.isLt).mpr hv
  have hlen : lengthWith c.codec s = finish s (BitVec.ofNat 64 n) := by
    simpa [hf, hparam, hvalue, hn] using lengthWith_cases c.codec s
  rw [exec_len, hlen]
  rfl

/-- LEN.c of a parameter outside the domain. -/
theorem exec_len_invalidParameter (c : CodecName) (hf : s.fault = none) (hp : ¬ paramDomain c s.opB.toNat) :
    exec c.len s = .next (s.faulted .invalidParameter) := by
  obtain ⟨_, _, hlen⟩ := invalidParameterIsOutsideTheDomain c 0 s hf
  exact hlen.mpr hp

/-- LEN.c of a value outside the domain. -/
theorem exec_len_valueOutOfDomain (c : CodecName) (hf : s.fault = none) (hp : paramDomain c s.opB.toNat)
    (hv : ¬ valueDomain c s.opB.toNat s.opA.toNat) : exec c.len s = .next (s.faulted .valueOutOfDomain) := by
  obtain ⟨_, hlen, _⟩ := valueOutOfDomainIsOutsideTheDomain c 0 s hf
  exact hlen.mpr ⟨hp, hv⟩

/-- Settles O51: the two formulas with the bracketing exponents, and the one value outside the domain. -/
theorem lenOfGammaAndDelta : Obligations.LenOfGammaAndDelta := by
  refine ⟨rfl, rfl, fun s hf => ⟨fun hx h hlo hhi => ?_, fun hx => ?_⟩⟩
  · have hexp := gamma_exponent_le hx hlo
    refine ⟨⟨by omega, exec_len_ok .gamma hf trivial hx ?_⟩, fun g glo ghi => ?_⟩
    · show gammaLength s.opA.toNat = _
      rw [gammaLength, flog2_unique hlo hhi]
    · have gexp := delta_exponent_le hexp glo
      refine ⟨by omega, exec_len_ok .delta hf trivial hx ?_⟩
      show deltaLength s.opA.toNat = _
      simp only [deltaLength, flog2_unique hlo hhi, flog2_unique glo ghi]
  · have hout : ¬ s.opA.toNat ≤ 2 ^ 64 - 2 := by omega
    exact ⟨exec_len_valueOutOfDomain .gamma hf trivial hout, exec_len_valueOutOfDomain .delta hf trivial hout⟩

/-- Settles O52: the two domains, then the two formulas. -/
theorem lenOfExpGolombAndRice : Obligations.LenOfExpGolombAndRice := by
  refine ⟨rfl, rfl, fun s hf => ⟨fun hk => ?_, fun hk hx => ?_, fun hk hv => ⟨?_, fun h hlo hhi => ?_⟩⟩⟩
  · have hout : ¬ s.opB.toNat ≤ 64 := Nat.not_le.mpr hk
    exact ⟨exec_len_invalidParameter .expGolomb hf hout, exec_len_invalidParameter .rice hf hout⟩
  · have hin : s.opB.toNat ≤ 64 := by omega
    have hout : ¬ (s.opA.toNat ≤ 2 ^ 64 - 1 ∧ ¬ (s.opA.toNat = 2 ^ 64 - 1 ∧ s.opB.toNat = 0)) := fun h => h.2 ⟨hx, hk⟩
    exact ⟨exec_len_valueOutOfDomain .expGolomb hf hin hout, exec_len_valueOutOfDomain .rice hf hin hout⟩
  · exact ⟨rice_length_le hk (opA_le s) hv, exec_len_ok .rice hf hk (valueDomain_shift (opA_le s) hv) rfl⟩
  · refine ⟨expGolomb_length_le hk (opA_le s) hv hlo,
      exec_len_ok .expGolomb hf hk (valueDomain_shift (opA_le s) hv) ?_⟩
    show expGolombLength s.opB.toNat s.opA.toNat = _
    rw [expGolombLength, flog2_unique hlo hhi]

/-- Settles O53, case by case of the two length rules. -/
theorem lenOfZetaAndMinbin : Obligations.LenOfZetaAndMinbin := by
  refine fun s hf => ⟨fun h hk hk' hx hlo hhi hfit => ?_, fun l hx hlo hhi => ?_⟩
  · have hvalue := valueDomain_zeta hx hlo hhi hfit
    have hlevel := zetaLevel_eq hlo hhi
    refine ⟨fun hone => ?_, fun hone hshort => ?_, fun hone hlong => ?_⟩ <;>
      refine exec_len_ok .zeta hf ⟨hk, hk'⟩ hvalue ?_ <;>
      show zetaLength s.opB.toNat s.opA.toNat = _ <;>
      simp only [zetaLength, hlevel]
    · rw [if_pos hone]
    · rw [if_neg hone, if_pos hshort]
    · rw [if_neg hone, if_neg (Nat.not_lt.mpr hlong)]
  · have hu : 1 ≤ s.opB.toNat := Nat.lt_of_le_of_lt (Nat.zero_le _) hx
    refine ⟨fun hshort => ?_, fun hlong => ?_⟩ <;>
      refine exec_len_ok .minbin hf hu hx ?_ <;>
      show minbinLength s.opB.toNat s.opA.toNat = _ <;>
      rw [minbinLength, minbinLimit_eq hlo hhi, flog2_unique hlo hhi]
    · rw [if_pos hshort]
    · rw [if_neg (Nat.not_lt.mpr hlong)]

/-! ### The laws of the codecs -/

/-- An accepted value is a 64-bit number (41_codec_contract.md R147). -/
theorem value_le (c : CodecName) {param x : Nat} (hparam : param ≤ 2 ^ 64 - 1) (hv : valueDomain c param x) :
    x ≤ 2 ^ 64 - 1 := by
  cases c <;> simp only [valueDomain] at hv <;> omega

/-- The length of the codeword of an accepted input fits 64 bits. -/
theorem len_le (c : CodecName) {param x : Nat} (hparam : param ≤ 2 ^ 64 - 1) (hp : paramDomain c param)
    (hv : valueDomain c param x) : c.codec.len param x ≤ 2 ^ 64 - 1 := by
  cases c with
  | gamma =>
    have hexp := gamma_exponent_le hv (flog2_spec (n := x + 1) (by omega)).1
    show gammaLength x ≤ _
    rw [gammaLength]
    omega
  | delta =>
    have hexp := gamma_exponent_le hv (flog2_spec (n := x + 1) (by omega)).1
    have gexp := delta_exponent_le hexp (flog2_spec (n := flog2 (x + 1) + 1) (by omega)).1
    show deltaLength x ≤ _
    simp only [deltaLength]
    omega
  | expGolomb =>
    obtain ⟨hx, hv⟩ := hv
    have hlen := expGolomb_length_le hp hx (fun ⟨h₁, h₂⟩ => hv ⟨h₂, h₁⟩)
      (flog2_spec (Nat.le_add_left 1 _)).1
    show expGolombLength param x ≤ _
    rw [expGolombLength]
    omega
  | zeta => exact Nat.le_trans (zeta_length_le hp.1 hv.2) (by omega)
  | rice => exact rice_length_le hp hv.1 fun ⟨h₁, h₂⟩ => hv.2 ⟨h₂, h₁⟩
  | minbin => exact Nat.le_trans (minbin_length_le hp hparam) (by omega)

/-- Settles O54: the codecs are faithful, and their lengths are bounded. -/
theorem lenIsTheLengthOfTheCodeword : Obligations.LenIsTheLengthOfTheCodeword := by
  intro c param x hparam hp hv
  have hvalue := (valueOk_eq_true c (Nat.lt_of_le_pred (by omega) (value_le c hparam hv))).mpr hv
  exact ⟨(codec_faithful c).length ((paramOk_eq_true c).mpr hp) hvalue, len_le c hparam hp hv⟩

/-- The parse procedure gives an accepted value wherever its codeword stands. -/
theorem parse_of_stands (c : CodecName) {param x p : Nat} (hparam : param ≤ 2 ^ 64 - 1) (hp : paramDomain c param)
    (hv : valueDomain c param x) (h : Stands s p (c.codec.code param x)) :
    c.codec.parse param s p = .value x (p + codeLength (c.codec.code param x)) :=
  have hx := value_le c hparam hv
  (codec_faithful c).parse ((paramOk_eq_true c).mpr hp) ((valueOk_eq_true c (Nat.lt_of_le_pred (by omega) hx)).mpr hv) hx h

/-- A fresh unit to which a bit string was appended. -/
def freshStream (e : Endian) (bits : List Bool) : State := (State.resetWith ⟨e, 1, 1⟩).append bits

theorem freshStream_holds (e : Endian) (bits : List Bool) : (freshStream e bits).holds 0 bits :=
  (append_appended (by simp [Memory.wf]) bits).written

theorem freshStream_wlen (e : Endian) (bits : List Bool) : (freshStream e bits).wlen = bits.length := by
  simp [freshStream]

/-- Settles O56: where the longer codeword stands both do, and the parse procedure gives one value. -/
theorem codewordsArePrefixFree : Obligations.CodewordsArePrefixFree := by
  rintro c e param x y hparam hp hvx hvy ⟨rest, hrest⟩
  have hlen := congrArg List.length hrest
  have hwlen := freshStream_wlen e (codeString e (c.codec.code param y))
  have hholds := freshStream_holds e (codeString e (c.codec.code param y))
  simp only [List.length_append, codeString_length] at hlen hwlen
  have hy : Stands (freshStream e (codeString e (c.codec.code param y))) 0 (c.codec.code param y) := ⟨by omega, hholds⟩
  have hx : Stands (freshStream e (codeString e (c.codec.code param y))) 0 (c.codec.code param x) :=
    ⟨by omega, ((holds_append _ 0 _ rest).mp (hrest ▸ hholds)).1⟩
  have hparse := (parse_of_stands c hparam hp hvx hx).symm.trans (parse_of_stands c hparam hp hvy hy)
  cases hparse
  rfl

end Sys2Proof.Laws
end

section
/-! SUPPORT. What a reader command depends on: nothing at or above WLEN (60_exceptions.md R274) and no cursor but its own
(10_state.md R28), so that readers of different contexts commute (20_memory.md R67). When its reads meet WLEN. -/

namespace Sys2Proof.Laws

open Sys2Proof.Machine

variable {s s' t : State} {i : Instr} {r : BitVec 4}

/-! ### When a parse meets WLEN -/

/-- The end that gamma and delta share: the bits of the mantissa run out (R162, R167). -/
theorem mantissa_pastEnd_iff {h q : Nat} :
    (if h ≤ 63 then (readBitsAt s q h).andThen fun r pos => .value (2 ^ h + r - 1) pos else .fails .malformedStream) =
      .fails .readPastEnd ↔ h ≤ 63 ∧ s.wlen < q + h := by
  by_cases hh : h ≤ 63 <;> simp [hh, andThen_eq_fails, readBitsAt_eq_fails]

/-- The end that exp-Golomb and Rice share: the bits of the remainder run out (R182, R187). -/
theorem quotientThenRemainder_pastEnd_iff {k d q : Nat} :
    quotientThenRemainder k s d q = .fails .readPastEnd ↔ s.wlen < q + k := by
  rw [quotientThenRemainder, andThen_eq_fails, readBitsAt_eq_fails, and_iff_left rfl]
  refine or_iff_left ?_
  rintro ⟨v, p, _, h⟩
  split at h <;> cases h

theorem readUnaryAt_pastEnd_iff {p : Nat} : readUnaryAt s p = .fails .readPastEnd ↔ s.NoOneFrom p :=
  readUnaryAt_eq_fails.trans (and_iff_left rfl)

/-- What follows a run is read behind it. -/
theorem exists_readUnaryAt_iff {p : Nat} {P : Nat → Nat → Prop} :
    (∃ h q, readUnaryAt s p = .value h q ∧ P h q) ↔ ∃ h, s.RunAt p h ∧ P h (p + h + 1) := by
  simp only [readUnaryAt_eq_value]
  constructor
  · rintro ⟨h, _, ⟨hrun, rfl⟩, hP⟩
    exact ⟨h, hrun, hP⟩
  · rintro ⟨h, hrun, hP⟩
    exact ⟨h, _, ⟨hrun, rfl⟩, hP⟩

theorem gammaParse_pastEnd_iff {p : Nat} : gammaParse s p = .fails .readPastEnd ↔ s.GammaRunsOut p := by
  simp only [gammaParse, andThen_eq_fails, readUnaryAt_pastEnd_iff, mantissa_pastEnd_iff, exists_readUnaryAt_iff,
    State.GammaRunsOut]

theorem deltaParse_pastEnd_iff {p : Nat} : deltaParse s p = .fails .readPastEnd ↔
    s.GammaRunsOut p ∨ ∃ h q, gammaParse s p = .value h q ∧ h ≤ 63 ∧ s.wlen < q + h := by
  simp only [deltaParse, andThen_eq_fails, gammaParse_pastEnd_iff, mantissa_pastEnd_iff]

theorem expGolombParse_pastEnd_iff {k p : Nat} : expGolombParse k s p = .fails .readPastEnd ↔
    s.GammaRunsOut p ∨ ∃ d q, gammaParse s p = .value d q ∧ s.wlen < q + k := by
  simp only [expGolombParse, andThen_eq_fails, gammaParse_pastEnd_iff, quotientThenRemainder_pastEnd_iff]

theorem riceParse_pastEnd_iff {k p : Nat} : riceParse k s p = .fails .readPastEnd ↔
    s.NoOneFrom p ∨ ∃ d, s.RunAt p d ∧ s.wlen < p + d + 1 + k := by
  simp only [riceParse, andThen_eq_fails, readUnaryAt_pastEnd_iff, quotientThenRemainder_pastEnd_iff,
    exists_readUnaryAt_iff]

theorem minbinParse_pastEnd_iff {u p : Nat} : minbinParse u s p = .fails .readPastEnd ↔ s.MinbinRunsOut u p := by
  simp only [minbinParse, andThen_eq_fails, readBitsAt_eq_fails, readBitsAt_eq_value, and_true]
  refine or_congr_right ⟨?_, ?_⟩
  · rintro ⟨v, q, ⟨hw, rfl, rfl⟩, h⟩
    split at h
    · cases h
    · next hlim =>
      simp only [andThen_eq_fails, readBitsAt_eq_fails, and_true, reduceCtorEq, and_false, exists_false, or_false] at h
      exact ⟨by omega, Nat.le_of_not_lt hlim⟩
  · rintro ⟨hw, hlim⟩
    have hlim : ¬ s.memRead p (flog2 u) < minbinLimit u := Nat.not_lt.mpr hlim
    refine ⟨_, _, ⟨by omega, rfl, rfl⟩, ?_⟩
    rw [if_neg hlim, andThen_eq_fails]
    exact .inl (readBitsAt_eq_fails.mpr ⟨by omega, rfl⟩)

theorem zetaParse_pastEnd_iff {k p : Nat} : zetaParse k s p = .fails .readPastEnd ↔
    s.NoOneFrom p ∨ ∃ h, s.RunAt p h ∧ (h + 1) * k ≤ 64 ∧
      s.MinbinRunsOut (2 ^ ((h + 1) * k) - 2 ^ (h * k)) (p + h + 1) := by
  have hinner (h q : Nat) :
      (if (h + 1) * k ≤ 64 then
        (minbinParse (zetaWidth k h) s q).andThen fun v pos => .value (zetaLow k h + v - 1) pos
      else .fails .malformedStream) = .fails .readPastEnd ↔
        (h + 1) * k ≤ 64 ∧ s.MinbinRunsOut (2 ^ ((h + 1) * k) - 2 ^ (h * k)) q := by
    show _ ↔ _ ∧ s.MinbinRunsOut (zetaWidth k h) q
    rw [← minbinParse_pastEnd_iff]
    by_cases hfit : (h + 1) * k ≤ 64 <;> simp [hfit, andThen_eq_fails]
  simp only [zetaParse, andThen_eq_fails, readUnaryAt_pastEnd_iff, hinner, exists_readUnaryAt_iff]

/-- DEC of an existing context in FROZEN with a parameter in its domain raises ReadPastEnd exactly when its parse
procedure does (41_codec_contract.md R144). -/
theorem exec_dec_pastEnd_iff (c : CodecName) {rid : BitVec 4} (hr : s.canRead rid) (hp : paramDomain c s.opB.toNat) :
    exec (c.dec rid) s = .next (s.faulted .readPastEnd) ↔
      c.codec.parse s.opB.toNat s (s.cursor rid).toNat = .fails .readPastEnd := by
  obtain ⟨hf, hreader, hmode⟩ := hr
  have hparam := (paramOk_eq_true c).mpr hp
  simp [exec_eq_faulted_iff, decFault_eq_some, hf, hreader, hmode, hparam, State.b]

/-! ### The outcome of a reader command -/

/-- What a reader command comes to where no fault is recorded: its fault, or the cursor and the result it ends with. -/
abbrev ReaderOutcome := Except FaultCode (Word × Word)

/-- A read at a cursor as an outcome. -/
def outcomeOfRead : Parsed → ReaderOutcome
  | .value x pos => .ok (BitVec.ofNat 64 pos, BitVec.ofNat 64 x)
  | .fails c => .error c

/-- The checks of the fields and of MODE, before the command's own. -/
def checkedReader (s : State) (fieldsOk : Prop) [Decidable fieldsOk] (own : ReaderOutcome) : ReaderOutcome :=
  if ¬ fieldsOk then .error .illegalCommand
  else if s.mode ≠ .frozen then .error .modeViolation
  else own

/-- DEC.c@rid as an outcome. -/
def decOutcome (c : CodecName) (rid : BitVec 4) (s : State) : ReaderOutcome :=
  checkedReader s (legalReader s.cfg.nReaders rid) <|
    if c.codec.paramOk s.b = false then .error .invalidParameter
    else outcomeOfRead (c.codec.parse s.b s (s.cursor rid).toNat)

/-- The outcome of each command with a reader context; of the others it says nothing of use. -/
def readerOutcome (s : State) : Instr → ReaderOutcome
  | .readBits rid n => checkedReader s (legalCount n ∧ legalReader s.cfg.nReaders rid)
      (outcomeOfRead (readBitsAt s (s.cursor rid).toNat n.toNat))
  | .readUnary rid => checkedReader s (legalReader s.cfg.nReaders rid)
      (outcomeOfRead (readUnaryAt s (s.cursor rid).toNat))
  | .setBitPos rid => checkedReader s (legalReader s.cfg.nReaders rid) (.ok (s.opA, 0))
  | .getBitPos rid => checkedReader s (legalReader s.cfg.nReaders rid) (.ok (s.cursor rid, s.cursor rid))
  | .decGamma rid => decOutcome .gamma rid s
  | .decDelta rid => decOutcome .delta rid s
  | .decExpGolomb rid => decOutcome .expGolomb rid s
  | .decZeta rid => decOutcome .zeta rid s
  | .decRice rid => decOutcome .rice rid s
  | .decMinbin rid => decOutcome .minbin rid s
  | _ => .error .illegalCommand

/-- The end of a command of context r with the given outcome. -/
def conclude (s : State) (r : BitVec 4) : ReaderOutcome → Result
  | .ok (p, v) => finish (s.setCursor r p) v
  | .error c => raise s c

theorem conclude_checked {fieldsOk : Prop} [Decidable fieldsOk] {own : ReaderOutcome} (hf : s.fault = none) :
    conclude s r (checkedReader s fieldsOk own) =
      if s.fault.isSome then blocked s
      else if ¬ fieldsOk then illegal s
      else if s.mode ≠ .frozen then raise s .modeViolation
      else conclude s r own := by
  simp only [checkedReader, illegal, hf, Option.isSome_none, Bool.false_eq_true, if_false]
  split
  · rfl
  · split <;> rfl

theorem conclude_read (rid : BitVec 4) (p : Parsed) : conclude s rid (outcomeOfRead p) = finishRead s rid p := by
  cases p <;> rfl

theorem conclude_dec (c : CodecName) (rid : BitVec 4) (hf : s.fault = none) :
    conclude s rid (decOutcome c rid s) = decodeWith c.codec rid s := by
  rw [decOutcome, conclude_checked hf, decodeWith, ← conclude_read]
  congr 3
  split <;> rfl

theorem setCursor_self (s : State) (rid : BitVec 4) : s.setCursor rid (s.cursor rid) = s := by
  simp [State.setCursor, State.cursor]

/-- A command with a reader context ends by its outcome, where no fault is recorded. -/
theorem exec_reader (hf : s.fault = none) (hi : readerOf i = some r) : exec i s = conclude s r (readerOutcome s i) := by
  cases i <;> cases hi
  case readBits n => rw [readerOutcome, conclude_checked hf, conclude_read]; rfl
  case readUnary => rw [readerOutcome, conclude_checked hf, conclude_read]; rfl
  case setBitPos => rw [readerOutcome, conclude_checked hf]; rfl
  case getBitPos => rw [readerOutcome, conclude_checked hf, conclude, setCursor_self]; rfl
  case decGamma => exact (conclude_dec .gamma r hf).symm
  case decDelta => exact (conclude_dec .delta r hf).symm
  case decExpGolomb => exact (conclude_dec .expGolomb r hf).symm
  case decZeta => exact (conclude_dec .zeta r hf).symm
  case decRice => exact (conclude_dec .rice r hf).symm
  case decMinbin => exact (conclude_dec .minbin r hf).symm

/-- A command with a reader context that ends with no fault has moved its cursor and answered by its outcome. -/
theorem exec_reader_complete (hi : readerOf i = some r) (he : exec i s = .next t) (ht : t.fault = none) :
    ∃ p v, s.fault = none ∧ readerOutcome s i = .ok (p, v) ∧ t = answering (s.setCursor r p) v := by
  have hreset : i ≠ .reset := by rintro rfl; cases hi
  by_cases hf : s.fault = none
  · rw [exec_reader hf hi] at he
    cases ho : readerOutcome s i with
    | ok pv =>
      rw [ho, conclude, finish_next] at he
      exact ⟨pv.1, pv.2, hf, rfl, he⟩
    | error c =>
      rw [ho, conclude, raise_next] at he
      simp [he] at ht
  · exact absurd (exec_keeps_fault hf hreset he ▸ ht) hf

theorem exec_reader_ok {p v : Word} (hf : s.fault = none) (hi : readerOf i = some r)
    (ho : readerOutcome s i = .ok (p, v)) : exec i s = .next (answering (s.setCursor r p) v) := by
  rw [exec_reader hf hi, ho]
  rfl

/-! ### What the outcome of a reader command depends on -/

/-- The two states agree on what a command of context r reads: not the other cursors, and no bit at or above WLEN. -/
structure SameReads (r : BitVec 4) (s s' : State) : Prop where
  /-- The configuration. -/
  cfg : s'.cfg = s.cfg
  /-- MODE. -/
  mode : s'.mode = s.mode
  /-- WLEN. -/
  wlen : s'.wlen = s.wlen
  /-- The stream bits. -/
  bits : ∀ p, p < s.wlen → s'.bit p = s.bit p
  /-- The operands. -/
  operands : s'.opA = s.opA ∧ s'.opB = s.opB
  /-- The command's own cursor. -/
  cursor : s'.cursor r = s.cursor r

section Congruence

variable (he : s'.cfg.endian = s.cfg.endian) (hw : s'.wlen = s.wlen) (hb : ∀ p, p < s.wlen → s'.bit p = s.bit p)
include he hw hb

theorem gammaParse_congr (p : Nat) : gammaParse s' p = gammaParse s p := by
  simp only [gammaParse, readUnaryAt_congr hw hb, readBitsAt_congr he hw hb]

theorem minbinParse_congr (u p : Nat) : minbinParse u s' p = minbinParse u s p := by
  simp only [minbinParse, readBitsAt_congr he hw hb]

theorem quotientThenRemainder_congr (k d p : Nat) : quotientThenRemainder k s' d p = quotientThenRemainder k s d p := by
  simp only [quotientThenRemainder, readBitsAt_congr he hw hb]

/-- No parse procedure looks at a bit at or above WLEN. -/
theorem parse_congr (k p : Nat) : (c : CodecName) → c.codec.parse k s' p = c.codec.parse k s p
  | .gamma => gammaParse_congr he hw hb p
  | .delta => by
    simp only [CodecName.codec, delta, deltaParse, gammaParse_congr he hw hb, readBitsAt_congr he hw hb]
  | .expGolomb => by
    simp only [CodecName.codec, expGolomb, expGolombParse, gammaParse_congr he hw hb, quotientThenRemainder_congr he hw hb]
  | .zeta => by
    simp only [CodecName.codec, zeta, zetaParse, readUnaryAt_congr hw hb, minbinParse_congr he hw hb]
  | .rice => by
    simp only [CodecName.codec, rice, riceParse, readUnaryAt_congr hw hb, quotientThenRemainder_congr he hw hb]
  | .minbin => minbinParse_congr he hw hb k p

end Congruence

/-- The outcome of a command of context r depends on nothing else. -/
theorem readerOutcome_congr (h : SameReads r s s') (hi : readerOf i = some r) :
    readerOutcome s' i = readerOutcome s i := by
  obtain ⟨hcfg, hmode, hwlen, hbits, ⟨hopA, hopB⟩, hcursor⟩ := h
  have hendian := congrArg Config.endian hcfg
  have hb : s'.b = s.b := congrArg BitVec.toNat hopB
  have hdec (c : CodecName) : decOutcome c r s' = decOutcome c r s := by
    simp only [decOutcome, checkedReader, hcfg, hmode, hb, hcursor, parse_congr hendian hwlen hbits]
  cases i <;> cases hi <;>
    simp only [readerOutcome, checkedReader, hcfg, hmode, hopA, hcursor, readBitsAt_congr hendian hwlen hbits,
      readUnaryAt_congr hwlen hbits, hdec]

/-- Two states that agree on what the command reads give the same answer, FAULT and own cursor, and leave the other
cursors as they are. -/
theorem exec_reader_congr (h : SameReads r s s') (hfault : s'.fault = s.fault) (hi : readerOf i = some r)
    (he : exec i s = .next t) : ∃ t', exec i s' = .next t' ∧ t'.reply = t.reply ∧ t'.fault = t.fault ∧
      t'.cursor r = t.cursor r ∧ (s'.rpos = s.rpos → t'.rpos = t.rpos) := by
  by_cases hf : s.fault = none
  · rw [exec_reader hf hi] at he
    rw [exec_reader (hfault.trans hf) hi, readerOutcome_congr h hi]
    cases ho : readerOutcome s i with
    | ok pv =>
      rw [ho, conclude, finish_next] at he
      subst he
      exact ⟨_, rfl, rfl, hfault, (cursor_setCursor_self s' r _).trans (cursor_setCursor_self s r _).symm,
        fun hrpos => by simp [hrpos]⟩
    | error c =>
      rw [ho, conclude, raise_next] at he
      subst he
      exact ⟨_, rfl, rfl, rfl, h.cursor, id⟩
  · have hreset : i ≠ .reset := by rintro rfl; cases hi
    have hcsrr : ∀ csr, i ≠ .csrr csr := by rintro _ rfl; cases hi
    rw [exec_eq_blocked hf hreset hcsrr, blocked_next] at he
    rw [exec_eq_blocked (hfault ▸ hf) hreset hcsrr]
    subst he
    exact ⟨_, rfl, rfl, hfault, h.cursor, id⟩

/-! ### The statements -/

/-- Settles O17: the reads by when they fail, the six DEC by when their parse procedures do, the last clause by what a
reader command depends on. -/
theorem readPastEndIsPastTheStream : Obligations.ReadPastEndIsPastTheStream := by
  refine ⟨fun rid n s hs hn => ?readBits, fun rid s hs => ?readUnary, fun s hf hmode => ?bufRead, fun rid s hs => ?dec,
    fun i r s t m hi hm he => ?bound⟩
  case readBits =>
    simp [exec_eq_faulted_iff, firstFault, readerFault_eq_some, hs, hn, readBitsAt_eq_fails]
  case readUnary =>
    simp [exec_eq_faulted_iff, firstFault, readerFault_eq_some, hs, readUnaryAt_pastEnd_iff, State.NoOneFrom]
  case bufRead =>
    rw [exec_eq_faulted_iff, firstFault, check_eq_some, check_eq_some]
    simp [hf, hmode, wordsFor, State.a]
  case dec =>
    refine ⟨?_, ?_, fun hk => ?_, fun hk => ?_, fun hk hk' => ?_, fun hk => ?_⟩
    · exact (exec_dec_pastEnd_iff .gamma hs trivial).trans gammaParse_pastEnd_iff
    · exact (exec_dec_pastEnd_iff .delta hs trivial).trans deltaParse_pastEnd_iff
    · exact (exec_dec_pastEnd_iff .expGolomb hs hk).trans expGolombParse_pastEnd_iff
    · exact (exec_dec_pastEnd_iff .rice hs hk).trans riceParse_pastEnd_iff
    · exact (exec_dec_pastEnd_iff .zeta hs ⟨hk, hk'⟩).trans zetaParse_pastEnd_iff
    · exact (exec_dec_pastEnd_iff .minbin hs hk).trans minbinParse_pastEnd_iff
  case bound =>
    have hsame : SameReads r s { s with buf := m } := ⟨rfl, rfl, rfl, hm, ⟨rfl, rfl⟩, rfl⟩
    obtain ⟨t', he', hreply, hfault, _, hrpos⟩ := exec_reader_congr hsame rfl hi he
    exact ⟨t', he', hreply, hfault, hrpos rfl⟩

/-- Settles O23, by what a reader command depends on. -/
theorem commandsReadOnlyTheirOwnCursor : Obligations.CommandsReadOnlyTheirOwnCursor := by
  intro i s s' t r hi hcursor hs' he
  have hsame : SameReads r s s' := by
    rw [hs'] at hcursor ⊢
    exact ⟨rfl, rfl, rfl, fun _ _ => rfl, ⟨rfl, rfl⟩, hcursor⟩
  obtain ⟨t', he', hreply, hfault, hown, _⟩ := exec_reader_congr hsame (hs' ▸ rfl) hi he
  exact ⟨t', he', hreply, hfault, hown⟩

/-- Where a command of context r has moved its cursor, one of context q reads what it read before. -/
theorem sameReads_of_moved {q : BitVec 4} (hq : q ≠ r) (u : State) (p v a b : Word) :
    SameReads q { answering (u.setCursor r p) v with opA := a, opB := b } { u with opA := a, opB := b } :=
  ⟨rfl, rfl, rfl, fun _ _ => rfl, ⟨rfl, rfl⟩, (cursor_setCursor_of_ne u p hq).symm⟩

theorem rpos_setCursor_comm (s : State) {q : BitVec 4} (hrq : r ≠ q) (p p' : Word) :
    ((s.setCursor q p').setCursor r p).rpos = ((s.setCursor r p).setCursor q p').rpos := by
  have hne : q.toNat ≠ r.toNat := fun h => hrq (BitVec.eq_of_toNat_eq h.symm)
  exact Vector.set_comm (hi := q.isLt) (hj := r.isLt) _ _ hne

/-- Settles O24: each command comes to the same outcome before the other and after it, and the two cursors they move are
different ones. -/
theorem readersOfDifferentContextsCommute : Obligations.ReadersOfDifferentContextsCommute := by
  intro i j r q a b c d s t₁ t₂ hi hj hrq he₁ hf₁ he₂ hf₂
  obtain ⟨p, v, hf, ho₁, rfl⟩ := exec_reader_complete hi he₁ hf₁
  obtain ⟨p', v', _, ho₂, rfl⟩ := exec_reader_complete hj he₂ hf₂
  have hbefore : readerOutcome { s with opA := c, opB := d } j = .ok (p', v') :=
    (readerOutcome_congr (sameReads_of_moved hrq.symm { s with opA := a, opB := b } p v c d) hj).trans ho₂
  have hafter := (readerOutcome_congr (sameReads_of_moved hrq { s with opA := c, opB := d } p' v' a b) hi).symm.trans ho₁
  exact ⟨_, _, exec_reader_ok hf hj hbefore, exec_reader_ok hf hi hafter,
    ⟨rfl, rfl, rfl, rfl, rpos_setCursor_comm s hrq p p'⟩, rfl, rfl⟩

/-! ### What the answers of the writer side depend on -/

/-- The two results agree on everything but the buffer, the configuration and the ports. -/
def SameAnswer (x y : Result) : Prop :=
  ∃ t t', x = .next t ∧ y = .next t' ∧ t'.reply = t.reply ∧ t'.wlen = t.wlen ∧ t'.mode = t.mode ∧ t'.fault = t.fault ∧
    t'.rpos = t.rpos

theorem SameAnswer.check {p : Prop} [Decidable p] {x y x' y' : Result} (h : SameAnswer x x') (h' : SameAnswer y y') :
    SameAnswer (if p then x else y) (if p then x' else y') := by
  split
  · exact h
  · exact h'

section Endian

variable {m : Memory} {e : Endian}

/-- The state of another unit, of endianness e, with another buffer. -/
def withEndian (m : Memory) (e : Endian) (s : State) : State := { s with buf := m, cfg := { s.cfg with endian := e } }

theorem SameAnswer.raise (c : FaultCode) : SameAnswer (raise s c) (raise (withEndian m e s) c) :=
  ⟨_, _, rfl, rfl, rfl, rfl, rfl, rfl, rfl⟩

theorem SameAnswer.blocked : SameAnswer (blocked s) (blocked (withEndian m e s)) :=
  ⟨_, _, rfl, rfl, rfl, rfl, rfl, rfl, rfl⟩

theorem SameAnswer.illegal : SameAnswer (illegal s) (illegal (withEndian m e s)) := .check .blocked (.raise _)

theorem SameAnswer.finish (v : Word) : SameAnswer (finish s v) (finish (withEndian m e s) v) :=
  ⟨_, _, rfl, rfl, rfl, rfl, rfl, rfl, rfl⟩

/-- Appending bit strings of one length moves WLEN alike. -/
theorem SameAnswer.append {bits bits' : List Bool} (h : bits'.length = bits.length) (v : Word) :
    SameAnswer (Machine.finish (s.append bits) v) (Machine.finish ((withEndian m e s).append bits') v) :=
  ⟨_, _, rfl, rfl, rfl, congrArg (s.wlen + ·) h, rfl, rfl, rfl⟩

theorem encodeWith_sameAnswer (c : Codec) : SameAnswer (encodeWith c s) (encodeWith c (withEndian m e s)) := by
  unfold encodeWith
  simp only [layTokens_eq_append]
  exact .check .blocked (.check (.raise _) (.check (.raise _) (.check (.raise _) (.check (.raise _)
    (.append (by simp [State.a, State.b, withEndian]) _)))))

theorem lengthWith_sameAnswer (c : Codec) : SameAnswer (lengthWith c s) (lengthWith c (withEndian m e s)) :=
  .check .blocked (.check (.raise _) (.check (.raise _) (.finish _)))

theorem execWriteBits_sameAnswer (n : BitVec 7) : SameAnswer (execWriteBits n s) (execWriteBits n (withEndian m e s)) := by
  unfold execWriteBits
  simp only [appendToken_eq_append]
  exact .check .blocked (.check .illegal (.check (.raise _) (.check (.raise _) (.append (by simp) _))))

theorem execFlush_sameAnswer : SameAnswer (execFlush s) (execFlush (withEndian m e s)) := by
  refine .check .blocked ?_
  show SameAnswer (match s.mode with | .building => _ | .frozen => _)
    (match s.mode with | .building => _ | .frozen => _)
  cases s.mode
  · exact ⟨_, _, rfl, rfl, rfl, rfl, rfl, rfl, rfl⟩
  · exact .finish _

end Endian

/-- Settles O25: no check of the writer side looks at the buffer or at E, and the two codewords are of one length. -/
theorem writerAnswersDoNotDependOnEndian : Obligations.WriterAnswersDoNotDependOnEndian := by
  intro i e m s t hi he
  have hsame : SameAnswer (exec i s) (exec i (withEndian m e s)) := by
    cases i
    case writeBits n => exact execWriteBits_sameAnswer n
    case writeUnary => exact .check .blocked (.check (.raise _) (.check (.raise _) (.append rfl _)))
    case flush => exact execFlush_sameAnswer
    case encGamma | encDelta | encExpGolomb | encZeta | encRice | encMinbin => exact encodeWith_sameAnswer _
    case lenGamma | lenDelta | lenExpGolomb | lenZeta | lenRice | lenMinbin => exact lengthWith_sameAnswer _
    all_goals simp [isWriter] at hi
  obtain ⟨u, t', hu, ht', hagree⟩ := hsame
  rw [he] at hu
  cases hu
  exact ⟨t', ht', hagree⟩

end Sys2Proof.Laws
end

section
/-! SUPPORT. BUILD and what is read back from it (45_vector_sequences.md R222, R226 to R228, R232): each command of the host
as one transaction, then the loops over the elements. -/

namespace Sys2Proof.Laws

open Sys2Proof.Machine

variable {s t u : State} {i : Instr} {a b : Word}

/-! ### One transaction -/

/-- The states agree on the unit and the configuration; the ports, which every transaction writes, may differ. -/
def SameButPorts (s t : State) : Prop := t.cfg = s.cfg ∧ s.sameUnit t

theorem SameButPorts.refl (s : State) : SameButPorts s s := ⟨rfl, rfl, rfl, rfl, rfl, rfl⟩

theorem SameButPorts.trans (h : SameButPorts s t) (h' : SameButPorts t u) : SameButPorts s u := by
  obtain ⟨hcfg, hbuf, hwlen, hmode, hfault, hrpos⟩ := h
  obtain ⟨hcfg', hbuf', hwlen', hmode', hfault', hrpos'⟩ := h'
  exact ⟨hcfg'.trans hcfg, hbuf'.trans hbuf, hwlen'.trans hwlen, hmode'.trans hmode, hfault'.trans hfault,
    hrpos'.trans hrpos⟩

theorem SameButPorts.canWrite (h : SameButPorts s t) (hs : s.canWrite) : t.canWrite := by
  obtain ⟨_, _, _, hmode, hfault, _⟩ := h
  exact ⟨hfault.trans hs.1, hmode.trans hs.2⟩

theorem SameButPorts.canRead (h : SameButPorts s t) {rid : BitVec 4} (hs : s.canRead rid) : t.canRead rid := by
  obtain ⟨hcfg, _, _, hmode, hfault, _⟩ := h
  obtain ⟨hf, hreader, hm⟩ := hs
  exact ⟨hfault.trans hf, hcfg ▸ hreader, hmode.trans hm⟩

theorem SameButPorts.cursor (h : SameButPorts s t) (rid : BitVec 4) : t.cursor rid = s.cursor rid := by
  obtain ⟨_, _, _, _, _, hrpos⟩ := h
  simp only [State.cursor, hrpos]

theorem SameButPorts.bit (h : SameButPorts s t) (p : Nat) : t.bit p = s.bit p := by
  obtain ⟨hcfg, hbuf, _⟩ := h
  simp only [State.bit, hcfg, hbuf]

/-- What stands in the stream does not depend on the ports. -/
theorem SameButPorts.stands (h : SameButPorts s t) {p : Nat} {ts : List Token} (hs : Stands s p ts) : Stands t p ts := by
  have hbit := h.bit
  obtain ⟨hcfg, _, hwlen, _⟩ := h
  obtain ⟨hw, hholds⟩ := hs
  rw [Stands, hcfg, hwlen]
  exact ⟨hw, fun j hj => (hbit _).trans (hholds j hj)⟩

theorem SameButPorts.append (h : SameButPorts s t) (bits : List Bool) : SameButPorts (s.append bits) (t.append bits) := by
  obtain ⟨hcfg, hbuf, hwlen, hmode, hfault, hrpos⟩ := h
  exact ⟨hcfg, by simp [hcfg, hbuf, hwlen], congrArg (· + bits.length) hwlen, hmode, hfault, hrpos⟩

/-- The transaction of the command completes with result r and leaves the unit as in state u. -/
def Completes (i : Instr) (a b : Word) (s u : State) (r : Word) : Prop :=
  ∃ t, issue i a b s = (t, some { status := 0, result := some r }) ∧ SameButPorts u t

theorem completes_of_exec {r : Word} {u' : State} (hw : i.wellFormed s.cfg.nReaders = true)
    (he : exec i (s.accept a b []) = finish u' r) (hu : SameButPorts u u') : Completes i a b s u r :=
  ⟨answering u' r, issue_eq (decodeInvertsEncode _ i hw) he, hu⟩

theorem reset_completes (s : State) (a b : Word) : Completes .reset a b s s.resetUnit 0 :=
  completes_of_exec rfl rfl (.refl _)

/-- LEN.c of an accepted input. -/
theorem len_completes (c : CodecName) {v param : Word} (hf : s.fault = none) (hp : paramDomain c param.toNat)
    (hv : valueDomain c param.toNat v.toNat) :
    Completes c.len v param s s (BitVec.ofNat 64 (c.codec.len param.toNat v.toNat)) :=
  completes_of_exec (by cases c <;> rfl) (exec_len_ok (s := s.accept v param []) c hf hp hv rfl) (.refl _)

/-- ENC.c of an accepted input that fits. -/
theorem enc_completes (c : CodecName) {v param : Word} (hs : s.canWrite) (hp : paramDomain c param.toNat)
    (hv : valueDomain c param.toNat v.toNat) (hroom : s.wlen + c.codec.len param.toNat v.toNat ≤ s.cfg.capBits) :
    Completes c.enc v param s (s.append (codeString s.cfg.endian (c.codec.code param.toNat v.toNat)))
      (BitVec.ofNat 64 (c.codec.len param.toNat v.toNat)) :=
  completes_of_exec (by cases c <;> rfl) (exec_enc_ok (s := s.accept v param []) c hs hp hv hroom) (.refl _)

/-- FLUSH in BUILDING. -/
theorem flush_completes (hs : s.canWrite) :
    Completes .flush a b s { s.pad with mode := .frozen } (BitVec.ofNat 64 s.wlen) :=
  completes_of_exec rfl (execFlush_building (s := s.accept a b []) hs) (.refl _)

/-- SET_BIT_POS of an existing context in FROZEN. -/
theorem setBitPos_completes {rid : BitVec 4} (hs : s.canRead rid) :
    Completes (.setBitPos rid) a b s (s.setCursor rid a) 0 := by
  have ⟨_, hreader, _⟩ := hs
  exact completes_of_exec (decide_eq_true hreader) (execSetBitPos_ok (s := s.accept a b []) hs) (.refl _)

/-- DEC.c where the codeword of an accepted value stands at the cursor. -/
theorem dec_completes (c : CodecName) {rid : BitVec 4} {v param : Word} (hs : s.canRead rid)
    (hp : paramDomain c param.toNat) (hv : valueDomain c param.toNat v.toNat)
    (hstands : Stands s (s.cursor rid).toNat (c.codec.code param.toNat v.toNat)) :
    Completes (c.dec rid) a param s
      (s.setCursor rid (BitVec.ofNat 64 ((s.cursor rid).toNat + codeLength (c.codec.code param.toNat v.toNat)))) v := by
  have ⟨hf, hreader, hmode⟩ := hs
  have hparse := parse_of_stands (s := s.accept a param []) c (Nat.le_pred_of_lt param.isLt) hp hv hstands
  have hparam := (paramOk_eq_true c).mpr hp
  have hexec : exec (c.dec rid) (s.accept a param []) = finish ((s.accept a param []).setCursor rid
      (BitVec.ofNat 64 ((s.cursor rid).toNat + codeLength (c.codec.code param.toNat v.toNat)))) v := by
    rw [exec_dec]
    simpa [hf, hreader, hmode, hparam, hparse, finishRead, State.b] using decodeWith_cases c.codec rid (s.accept a param [])
  exact completes_of_exec (by cases c <;> exact decide_eq_true hreader) hexec (.refl _)

/-! ### The stream of a sequence -/

/-- The codewords of a sequence, one after the other. -/
def codes (c : CodecName) (param : Word) (values : List Word) : List Token :=
  values.flatMap fun v => c.codec.code param.toNat v.toNat

@[simp] theorem codes_nil (c : CodecName) (param : Word) : codes c param [] = [] := rfl

@[simp] theorem codes_cons (c : CodecName) (param v : Word) (rest : List Word) :
    codes c param (v :: rest) = c.codec.code param.toNat v.toNat ++ codes c param rest := rfl

@[simp] theorem codes_append (c : CodecName) (param : Word) (xs ys : List Word) :
    codes c param (xs ++ ys) = codes c param xs ++ codes c param ys := by
  simp [codes]

@[simp] theorem totalLength_nil (c : CodecName) (param : Word) : totalLength c param [] = 0 := rfl

@[simp] theorem totalLength_cons (c : CodecName) (param v : Word) (rest : List Word) :
    totalLength c param (v :: rest) = c.codec.len param.toNat v.toNat + totalLength c param rest := by
  simp [totalLength]

/-- Every value of the sequence is accepted with this codec and parameter. -/
def Accepted (c : CodecName) (param : Word) (values : List Word) : Prop :=
  paramDomain c param.toNat ∧ ∀ v ∈ values, valueDomain c param.toNat v.toNat

variable {c : CodecName} {param : Word} {values : List Word}

theorem accepted_cons {v : Word} {rest : List Word} :
    Accepted c param (v :: rest) ↔ valueDomain c param.toNat v.toNat ∧ Accepted c param rest := by
  simp only [Accepted, List.forall_mem_cons]
  tauto

theorem Accepted.mono {xs : List Word} (h : Accepted c param values) (hsub : ∀ v ∈ xs, v ∈ values) :
    Accepted c param xs :=
  ⟨h.1, fun v hv => h.2 v (hsub v hv)⟩

/-- The total length of an accepted sequence is the length of its codewords (41_codec_contract.md R146). -/
theorem codeLength_codes (h : Accepted c param values) :
    codeLength (codes c param values) = totalLength c param values := by
  induction values with
  | nil => rfl
  | cons v rest ih =>
    obtain ⟨hv, hrest⟩ := accepted_cons.mp h
    have hlen := lenIsTheLengthOfTheCodeword c _ _ (Nat.le_pred_of_lt param.isLt) hrest.1 hv
    rw [codes_cons, codeLength_append, totalLength_cons, hlen.1, ih hrest]

/-! ### The loop of BUILD -/

/-- The samples BUILD takes from element i at position pos on (45_vector_sequences.md R222). -/
def sampleTable (c : CodecName) (param : Word) (period : Nat) : (i pos : Nat) → List Word → List Nat
  | _, _, [] => []
  | i, pos, v :: rest =>
    (if i % period = 0 then [pos] else []) ++
      sampleTable c param period (i + 1) (pos + c.codec.len param.toNat v.toNat) rest

theorem len_toNat {v : Word} (hp : paramDomain c param.toNat) (hv : valueDomain c param.toNat v.toNat) :
    (BitVec.ofNat 64 (c.codec.len param.toNat v.toNat)).toNat = c.codec.len param.toNat v.toNat := by
  have hle := len_le c (Nat.le_pred_of_lt param.isLt) hp hv
  rw [BitVec.toNat_ofNat]
  exact Nat.mod_eq_of_lt (by omega)

/-- The loop of BUILD over accepted values that fit appends their codewords. -/
theorem buildLoop_eq (period i pos : Nat) (samples : List Nat) (h : Accepted c param values) (hs : s.canWrite)
    (hroom : s.wlen + totalLength c param values ≤ s.cfg.capBits) :
    ∃ t, buildLoop c param period i pos samples values s =
        (t, .ok (samples ++ sampleTable c param period i pos values, pos + totalLength c param values)) ∧
      SameButPorts (s.append (codeString s.cfg.endian (codes c param values))) t := by
  induction values generalizing i pos samples s with
  | nil => exact ⟨s, by simp [buildLoop, sampleTable], .refl s⟩
  | cons v rest ih =>
    obtain ⟨hv, hrest⟩ := accepted_cons.mp h
    rw [totalLength_cons] at hroom
    obtain ⟨t, ht, hsame⟩ := enc_completes (s := s) c hs hrest.1 hv (by omega)
    have hlen := lenIsTheLengthOfTheCodeword c _ _ (Nat.le_pred_of_lt param.isLt) hrest.1 hv
    have ⟨hcfg, _, hwlen, _⟩ := hsame
    rw [append_cfg] at hcfg
    rw [append_wlen, codeString_length, hlen.1] at hwlen
    obtain ⟨u, hu, hsame'⟩ := ih (s := t) (i + 1) (pos + c.codec.len param.toNat v.toNat)
      (if i % period = 0 then samples ++ [pos] else samples) hrest (hsame.canWrite hs) (by rw [hwlen, hcfg]; omega)
    refine ⟨u, ?_, ?_⟩
    · simp only [buildLoop, ht, okResult_ok, len_toNat hrest.1 hv, hu, sampleTable, totalLength_cons]
      split <;> simp [Nat.add_assoc]
    · have hstep := hsame.append (codeString s.cfg.endian (codes c param rest))
      rw [append_append, ← codeString_append, ← codes_cons] at hstep
      exact hstep.trans (hcfg ▸ hsame')

/-! ### The record of BUILD -/

/-- The multiples of the period below n, counted up to the last one. -/
theorem filter_multiples {period : Nat} (hp : 1 ≤ period) (n : Nat) :
    (List.range n).filter (fun d => d % period = 0) = (List.range ((n + period - 1) / period)).map (· * period) := by
  induction n with
  | zero => simp; omega
  | succ n ih =>
    have hnext : n + 1 + period - 1 = n + period := by omega
    rw [List.range_succ, List.filter_append, ih, hnext, Nat.add_div_right n hp]
    by_cases hn : n % period = 0
    · have hmul : n / period * period = n := Nat.div_mul_cancel (Nat.dvd_of_mod_eq_zero hn)
      have hcount : (n + period - 1) / period = n / period := by
        rw [Nat.div_eq_iff hp]
        omega
      simp [hcount, List.range_succ, hn, hmul]
    · have hmul := Nat.div_add_mod' n period
      have hlt := Nat.mod_lt n hp
      have hcount : (n + period - 1) / period = n / period + 1 := by
        rw [Nat.div_eq_iff hp, Nat.succ_mul]
        omega
      simp [hcount, hn]

/-- Every sample is the total length of the elements before its own. -/
theorem sampleTable_eq (period i pos : Nat) (values : List Word) :
    sampleTable c param period i pos values =
      ((List.range values.length).filter fun d => (i + d) % period = 0).map
        fun d => pos + totalLength c param (values.take d) := by
  induction values generalizing i pos with
  | nil => rfl
  | cons v rest ih =>
    have hshift : ((fun d => decide ((i + d) % period = 0)) ∘ Nat.succ) = fun d => decide ((i + 1 + d) % period = 0) := by
      funext d
      simp only [Function.comp_apply, Nat.succ_eq_add_one, Nat.add_assoc, Nat.add_comm 1 d]
    rw [sampleTable, ih, List.length_cons, List.range_succ_eq_map, List.filter_cons, List.filter_map, hshift]
    by_cases hi : i % period = 0 <;> simp [hi, Nat.add_assoc, Function.comp_def]

/-- The sample table of a whole sequence: one sample every period elements (45_vector_sequences.md R221). -/
theorem sampleTable_zero {period : Nat} (hp : 1 ≤ period) (values : List Word) :
    sampleTable c param period 0 0 values =
      (List.range ((values.length + period - 1) / period)).map fun j => totalLength c param (values.take (j * period)) := by
  simp [sampleTable_eq, filter_multiples hp, Function.comp_def]

/-- The host record BUILD gives (45_vector_sequences.md R222). -/
def builtRecord (c : CodecName) (param : Word) (period : Nat) (values : List Word) : VectorRecord where
  count := values.length
  period := period
  codec := c
  param := param
  samples := sampleTable c param period 0 0 values
  bits := totalLength c param values

/-- The unit as BUILD leaves it: FROZEN, with the codewords of the sequence from position 0 on. -/
structure Built (c : CodecName) (param : Word) (values : List Word) (cfg : Config) (t : State) : Prop where
  /-- The configuration is that of before. -/
  cfg : t.cfg = cfg
  /-- No fault is recorded. -/
  fault : t.fault = none
  /-- The stream is finished. -/
  mode : t.mode = .frozen
  /-- WLEN is the total length. -/
  wlen : t.wlen = totalLength c param values
  /-- The codewords stand in the stream. -/
  stands : Stands t 0 (codes c param values)

/-- Padding the last word leaves what stands in the stream. -/
theorem stands_pad (hwf : s.buf.wf) {p : Nat} {ts : List Token} (h : Stands s p ts) :
    Stands { s.pad with mode := .frozen } p ts := by
  obtain ⟨hw, hholds⟩ := h
  refine ⟨hw, fun j hj => (bit_pad_outside hwf (.inl ?_)).trans (hholds j hj)⟩
  have hj : j < codeLength ts := by simpa using hj
  omega

/-- What an appended codeword sequence leaves in an empty unit. -/
theorem stands_append_codes (hwf : s.buf.wf) (hempty : s.wlen = 0) (ts : List Token) :
    Stands (s.append (codeString s.cfg.endian ts)) 0 ts := by
  refine ⟨by simp, ?_⟩
  have hwritten := (append_appended hwf (codeString s.cfg.endian ts)).written
  rwa [hempty] at hwritten

theorem valueDomain_zero (c : CodecName) {k : Nat} (hp : paramDomain c k) : valueDomain c k 0 := by
  cases c with
  | zeta =>
    have hlog : flog2 (0 + 1) = 0 := by decide
    have hlevel : flog2 (0 + 1) / k = 0 := by rw [hlog, Nat.zero_div]
    simp only [valueDomain, hlevel]
    exact ⟨by omega, by simpa using hp.2⟩
  | minbin => exact hp
  | gamma | delta | expGolomb | rice => simp [valueDomain]

/-- The start of BUILD: RESET and the probe of the parameter leave an empty unit. -/
theorem resetAndProbe (s : State) (h : Accepted c param values) :
    ∃ s₁ s₂ n, issue .reset 0 0 s = (s₁, some { status := 0, result := some 0 }) ∧
      issue c.len 0 param s₁ = (s₂, some { status := 0, result := some n }) ∧ SameButPorts s.resetUnit s₂ := by
  obtain ⟨s₁, hreset, hsame₁⟩ := reset_completes s 0 0
  have hs₁ : s₁.canWrite := hsame₁.canWrite ⟨rfl, rfl⟩
  obtain ⟨s₂, hprobe, hsame₂⟩ := len_completes (v := 0) c hs₁.1 h.1 (valueDomain_zero c h.1)
  exact ⟨s₁, s₂, _, hreset, hprobe, hsame₁.trans hsame₂⟩

/-- The end of BUILD: FLUSH after the codewords of the sequence were appended to an empty unit. -/
theorem built_of_flush (h : Accepted c param values) (hwf : s.buf.wf) (hempty : s.wlen = 0) (hs : s.canWrite)
    (hloop : SameButPorts (s.append (codeString s.cfg.endian (codes c param values))) t)
    (hflush : SameButPorts { t.pad with mode := .frozen } u) : Built c param values s.cfg u := by
  have hstands := hloop.stands (stands_append_codes hwf hempty (codes c param values))
  have hfault : t.fault = none := (hloop.canWrite hs).1
  obtain ⟨hcfg, hbuf, hwlen, _⟩ := hloop
  rw [append_wlen, codeString_length, codeLength_codes h, hempty, Nat.zero_add] at hwlen
  have hstands := hflush.stands (stands_pad (hbuf ▸ writeString_wf _ _ _ hwf _) hstands)
  obtain ⟨hcfg', _, hwlen', hmode', hfault', _⟩ := hflush
  exact ⟨hcfg'.trans hcfg, hfault'.trans hfault, hmode', hwlen'.trans hwlen, hstands⟩

theorem capBits_lt {cfg : Config} (h : cfg.legal) : cfg.capBits < 2 ^ 64 := by
  obtain ⟨_, hwords, _⟩ := h
  rw [Config.capBits]
  omega

/-- BUILD of accepted values that fit (45_vector_sequences.md R222). -/
theorem build_eq {period : Nat} (s : State) (hcfg : s.cfg.legal) (hperiod : 1 ≤ period) (h : Accepted c param values)
    (hfit : totalLength c param values ≤ s.cfg.capBits) :
    ∃ t, build values period c param s = (t, .ok (builtRecord c param period values)) ∧ Built c param values s.cfg t := by
  obtain ⟨s₁, s₂, n, hreset, hprobe, hsame⟩ := resetAndProbe s h
  have hs₂ : s₂.canWrite := hsame.canWrite ⟨rfl, rfl⟩
  obtain ⟨cfg₂, buf₂, wlen₂, _⟩ := hsame
  rw [resetUnit_cfg] at cfg₂
  rw [resetUnit_wlen] at wlen₂
  have hwf : s₂.buf.wf := by rw [buf₂]; simp [Memory.wf]
  obtain ⟨s₃, hloop, hsame₃⟩ := buildLoop_eq period 0 0 [] h hs₂ (by rw [wlen₂, cfg₂]; omega)
  obtain ⟨s₄, hflush, hsame₄⟩ := flush_completes (a := 0) (b := 0) (hsame₃.canWrite hs₂)
  have hbuilt := built_of_flush h hwf wlen₂ hs₂ hsame₃ hsame₄
  have hwlen : s₃.wlen = totalLength c param values := by
    obtain ⟨_, _, hwlen, _⟩ := hsame₄
    exact hwlen.symm.trans hbuilt.wlen
  have hlast : (BitVec.ofNat 64 s₃.wlen).toNat = totalLength c param values := by
    rw [hwlen, BitVec.toNat_ofNat]
    exact Nat.mod_eq_of_lt (Nat.lt_of_le_of_lt hfit (capBits_lt hcfg))
  refine ⟨s₄, ?_, cfg₂ ▸ hbuilt⟩
  simp only [build, if_neg (Nat.ne_of_gt hperiod), hreset, hprobe, okResult_ok, hloop, hflush, hlast, List.nil_append]
  rfl

/-- Settles O57, by the record BUILD gives. -/
theorem buildRecordsTheSampleTable : Obligations.BuildRecordsTheSampleTable := by
  intro values period c param s hcfg hperiod hp hv hfit
  obtain ⟨t, ht, hbuilt⟩ := build_eq s hcfg hperiod ⟨hp, hv⟩ hfit
  have hsamples := sampleTable_zero (c := c) (param := param) hperiod values
  refine ⟨t, _, ht, hbuilt.mode, hbuilt.fault, rfl, rfl, hbuilt.wlen, ?_, fun j hj => ?_⟩
  · simp [builtRecord, hsamples]
  · simp only [builtRecord, hsamples, List.length_map, List.length_range] at hj ⊢
    simp [hj]

/-! ### Reading the elements back -/

/-- A run of DEC commands from where the codewords of a sequence stand gives the sequence. -/
theorem decodeMany_eq {rid : BitVec 4} (h : Accepted c param values) (hs : s.canRead rid) (hw : s.wlen < 2 ^ 64)
    (hstands : Stands s (s.cursor rid).toNat (codes c param values)) :
    (decodeMany c rid param values.length s).2 = some values := by
  induction values generalizing s with
  | nil => rfl
  | cons v rest ih =>
    obtain ⟨hv, hrest⟩ := accepted_cons.mp h
    rw [codes_cons] at hstands
    obtain ⟨hfirst, hnext⟩ := stands_append.mp hstands
    obtain ⟨t, ht, hsame⟩ := dec_completes (a := 0) c hs hrest.1 hv hfirst
    have hcursor : (t.cursor rid).toNat = (s.cursor rid).toNat + codeLength (c.codec.code param.toNat v.toNat) := by
      have hbelow := hfirst.1
      rw [hsame.cursor, cursor_setCursor_self, BitVec.toNat_ofNat]
      exact Nat.mod_eq_of_lt (by omega)
    have hnext : Stands t (t.cursor rid).toNat (codes c param rest) := hcursor ▸ hsame.stands hnext
    have ⟨_, _, hwlen, _⟩ := hsame
    have htail := ih hrest (hsame.canRead hs) (hwlen ▸ hw) hnext
    simp only [List.length_cons, decodeMany, ht, okResult_ok]
    rw [htail]
    rfl

/-- Seeking to where the codewords of accepted values stand and decoding them gives the values. -/
theorem seek_decodeMany {rid : BitVec 4} {p : Nat} (h : Accepted c param values) (hs : s.canRead rid)
    (hw : s.wlen < 2 ^ 64) (hstands : Stands s p (codes c param values)) :
    (decodeMany c rid param values.length (issue (.setBitPos rid) (BitVec.ofNat 64 p) b s).1).2 = some values := by
  obtain ⟨t, ht, hsame⟩ := setBitPos_completes (a := BitVec.ofNat 64 p) (b := b) hs
  have hcursor : (t.cursor rid).toNat = p := by
    have hbelow := hstands.1
    rw [hsame.cursor, cursor_setCursor_self, BitVec.toNat_ofNat]
    exact Nat.mod_eq_of_lt (by omega)
  have ⟨_, _, hwlen, _⟩ := hsame
  rw [ht]
  exact decodeMany_eq h (hsame.canRead hs) (hwlen ▸ hw) (hcursor ▸ hsame.stands hstands)

/-- An iterator with n values left is a run of n DEC commands (45_vector_sequences.md R227). -/
theorem iterCollect_eq_decodeMany (rid : BitVec 4) (n : Nat) (s : State) :
    iterCollect n ⟨rid, c, param, n⟩ s = decodeMany c rid param n s := by
  induction n generalizing s with
  | zero => rfl
  | succ n ih =>
    simp only [iterCollect, iterNext, decodeMany]
    cases okResult (issue (c.dec rid) 0 param s).2 with
    | none => rfl
    | some x => simp only [ih]

/-- INTO_VEC is a seek to 0 and a run of DEC commands (45_vector_sequences.md R228). -/
theorem intoVec_eq (rid : BitVec 4) (v : VectorRecord) (s : State) :
    intoVec rid v s = decodeMany v.codec rid v.param v.count (issue (.setBitPos rid) 0 0 s).1 :=
  iterCollect_eq_decodeMany rid v.count _

/-- Settles O58: the iterator decodes the codewords BUILD left at position 0. -/
theorem iterateAfterBuildYieldsTheInput : Obligations.IterateAfterBuildYieldsTheInput := by
  intro values period c param rid s hcfg hreader hperiod hp hv hfit
  obtain ⟨t, ht, hbuilt⟩ := build_eq s hcfg hperiod ⟨hp, hv⟩ hfit
  have hs : t.canRead rid := ⟨hbuilt.fault, hbuilt.cfg ▸ hreader, hbuilt.mode⟩
  have hw : t.wlen < 2 ^ 64 := hbuilt.wlen ▸ Nat.lt_of_le_of_lt hfit (capBits_lt hcfg)
  refine ⟨t, _, ht, ?_⟩
  rw [intoVec_eq]
  exact seek_decodeMany (b := 0) ⟨hp, hv⟩ hs hw hbuilt.stands

/-- The elements that GET i decodes: from the last sample at or before i up to i (45_vector_sequences.md R226). -/
def getWindow (period i : Nat) (values : List Word) : List Word :=
  (values.drop (i / period * period)).take (i % period + 1)

theorem getWindow_length {period i : Nat} (hi : i < values.length) :
    (getWindow period i values).length = i % period + 1 := by
  have hsplit := Nat.div_add_mod' i period
  rw [getWindow, List.length_take, List.length_drop]
  omega

theorem getWindow_getLast? {period i : Nat} (hi : i < values.length) :
    (getWindow period i values).getLast? = values[i]? := by
  rw [List.getLast?_eq_getElem?, getWindow_length hi, getWindow, Nat.add_sub_cancel,
    List.getElem?_take_of_lt (Nat.lt_succ_self _), List.getElem?_drop, Nat.div_add_mod']

/-- The window stands where its sample points to. -/
theorem stands_getWindow {period i : Nat} (h : Accepted c param values) (hstands : Stands s 0 (codes c param values)) :
    Stands s (totalLength c param (values.take (i / period * period))) (codes c param (getWindow period i values)) := by
  have hsplit := List.take_append_drop (i / period * period) values
  have hrest := List.take_append_drop (i % period + 1) (values.drop (i / period * period))
  rw [← hsplit, codes_append, ← hrest, codes_append] at hstands
  obtain ⟨_, hwindow⟩ := stands_append.mp hstands
  obtain ⟨hwindow, _⟩ := stands_append.mp hwindow
  rwa [codeLength_codes (h.mono fun _ => List.mem_of_mem_take), Nat.zero_add] at hwindow

/-- The sample GET i seeks to (45_vector_sequences.md R226). -/
theorem sample_of_index {period i : Nat} (hperiod : 1 ≤ period) (hi : i < values.length) :
    (sampleTable c param period 0 0 values)[i / period]? =
      some (totalLength c param (values.take (i / period * period))) := by
  have hsplit := Nat.div_add_mod' i period
  have hcount : i / period < (values.length + period - 1) / period := by
    rw [Nat.lt_iff_add_one_le, Nat.le_div_iff_mul_le hperiod, Nat.succ_mul]
    omega
  simp [sampleTable_zero hperiod, hcount]

/-- GET of an index in range (45_vector_sequences.md R226). -/
theorem get_of_lt {rid : BitVec 4} {period i : Nat} (hperiod : 1 ≤ period) (h : Accepted c param values)
    (hs : s.canRead rid) (hw : s.wlen < 2 ^ 64) (hstands : Stands s 0 (codes c param values)) (hi : i < values.length) :
    (get rid (builtRecord c param period values) i s).2 = values[i]? := by
  have hin : ¬ (builtRecord c param period values).count ≤ i := Nat.not_le.mpr hi
  have hdecode := seek_decodeMany (b := 0) (h.mono fun v hv => List.mem_of_mem_drop (List.mem_of_mem_take hv)) hs hw
    (stands_getWindow (i := i) (period := period) h hstands)
  rw [← getWindow_getLast? (period := period) hi]
  simp only [Machine.get, if_neg hin]
  simp only [builtRecord, sample_of_index hperiod hi, Option.getD_some]
  rw [← getWindow_length hi, getWindow, hdecode]
  rfl

/-- GET of an index out of range issues no command. -/
theorem get_of_ge {rid : BitVec 4} {v : VectorRecord} {i : Nat} (hi : v.count ≤ i) : get rid v i s = (s, none) := by
  simp only [Machine.get, if_pos hi]

/-- Settles O59, in range by the window GET decodes, out of range by the host's own check. -/
theorem getAfterBuildGivesTheElement : Obligations.GetAfterBuildGivesTheElement := by
  intro values period c param rid s hcfg hreader hperiod hp hv hfit
  obtain ⟨t, ht, hbuilt⟩ := build_eq s hcfg hperiod ⟨hp, hv⟩ hfit
  have hs : t.canRead rid := ⟨hbuilt.fault, hbuilt.cfg ▸ hreader, hbuilt.mode⟩
  have hw : t.wlen < 2 ^ 64 := hbuilt.wlen ▸ Nat.lt_of_le_of_lt hfit (capBits_lt hcfg)
  refine ⟨t, _, ht, fun i => ?_⟩
  by_cases hi : i < values.length
  · exact ⟨get_of_lt hperiod ⟨hp, hv⟩ hs hw hbuilt.stands hi, fun hge => absurd hi (Nat.not_lt.mpr hge)⟩
  · have hge : values.length ≤ i := Nat.le_of_not_lt hi
    rw [get_of_ge (v := builtRecord c param period values) hge, List.getElem?_eq_none hge]
    exact ⟨rfl, fun _ => rfl⟩

end Sys2Proof.Laws
end

section
/-! SUPPORT. SAVE and RESTORE (45_vector_sequences.md R229, R232): the words read out are the stream, written back they
give the same stream, and a query sees nothing of the unit but the stream. -/

namespace Sys2Proof.Laws

open Sys2Proof.Machine

variable {s t u : State}

/-! ### SAVE -/

/-- BUF_READ of a word that holds stream bits. -/
theorem bufRead_completes {a b : Word} (hf : s.fault = none) (hmode : s.mode = .frozen)
    (ha : a.toNat < wordsFor s.wlen) : Completes .bufRead a b s s (s.word a.toNat) :=
  completes_of_exec rfl (execBufRead_ok (s := s.accept a b []) hf hmode ha) (.refl _)

theorem SameButPorts.word (h : SameButPorts s t) (i : Nat) : t.word i = s.word i := by
  obtain ⟨hcfg, hbuf, _⟩ := h
  simp only [State.word, hcfg, hbuf]

/-- The words SAVE reads out are those of the buffer, and the unit stays as it was. -/
theorem readWords_eq (n i : Nat) (hf : s.fault = none) (hmode : s.mode = .frozen) (hn : i + n ≤ wordsFor s.wlen)
    (hmax : wordsFor s.wlen ≤ 2 ^ 64) :
    ∃ t, readWords n i s = (t, some ((List.range' i n).map s.word)) ∧ SameButPorts s t := by
  induction n generalizing i s with
  | zero => exact ⟨s, rfl, .refl s⟩
  | succ n ih =>
    have hi : (BitVec.ofNat 64 i).toNat = i := by
      rw [BitVec.toNat_ofNat]
      exact Nat.mod_eq_of_lt (by omega)
    obtain ⟨t, ht, hsame⟩ := bufRead_completes (a := BitVec.ofNat 64 i) (b := 0) hf hmode (by omega)
    have hword := hsame.word
    have ⟨_, _, hwlen, htmode, hfault, _⟩ := hsame
    obtain ⟨v, hv, hsame'⟩ := ih (s := t) (i + 1) (hfault.trans hf) (htmode.trans hmode) (by rw [hwlen]; omega)
      (by rw [hwlen]; omega)
    refine ⟨v, ?_, hsame.trans hsame'⟩
    simp only [readWords, ht, okResult_ok, hv, hi, Option.map_some, List.range'_succ, List.map_cons, funext hword]

/-! ### The words as pieces of the stream -/

/-- The n stream bits from position p on. -/
def streamBits (s : State) (p n : Nat) : List Bool := (List.range' p n).map s.bit

@[simp] theorem streamBits_length (s : State) (p n : Nat) : (streamBits s p n).length = n := by simp [streamBits]

theorem streamBits_getElem (s : State) (p n j : Nat) (h : j < (streamBits s p n).length) :
    (streamBits s p n)[j] = s.bit (p + j) := by
  simp [streamBits]

theorem streamBits_append (s : State) (p m n : Nat) :
    streamBits s p m ++ streamBits s (p + m) n = streamBits s p (m + n) := by
  rw [streamBits, streamBits, ← List.map_append, List.range'_append_1]
  rfl

/-- The operand of RESTORE's WRITE_BITS for the first n bits of a word lays down those n stream bits (R229). -/
theorem tokenString_tailOperand (m : Memory) (e : Endian) (i : Nat) {n : Nat} (hn : n ≤ 64) :
    tokenString e (tailOperand e (m.word e i) n).toNat n = (List.range' (64 * i) n).map (m.bit e) := by
  refine List.ext_getElem (by simp) fun j hj _ => ?_
  have hj : j < n := by simpa using hj
  rw [List.getElem_map, List.getElem_range', Nat.one_mul]
  cases e with
  | be =>
    have hbit : 64 - n + (n - 1 - j) = 63 - j := by omega
    have hpos : 64 * i + (63 - (63 - j)) = 64 * i + j := by omega
    rw [tokenString_be, tailOperand, BitVec.toNat_ushiftRight, Nat.testBit_shiftRight, hbit,
      testBit_word_be _ _ (by omega), hpos]
  | le => rw [tokenString_le, tailOperand, testBit_word_le _ _ (by omega)]

/-- The same of the words of a state. -/
theorem streamBits_eq_token (s : State) (i : Nat) {n : Nat} (hn : n ≤ 64) :
    tokenString s.cfg.endian (tailOperand s.cfg.endian (s.word i) n).toNat n = streamBits s (64 * i) n :=
  tokenString_tailOperand s.buf s.cfg.endian i hn

theorem tailOperand_full (e : Endian) (w : Word) : tailOperand e w 64 = w := by
  cases e <;> simp [tailOperand]

/-! ### RESTORE -/

/-- WRITE_BITS that fits. -/
theorem writeBits_completes {n : BitVec 7} {a b : Word} (hs : s.canWrite) (hn : legalCount n)
    (hroom : s.wlen + n.toNat ≤ s.cfg.capBits) :
    Completes (.writeBits n) a b s (s.append (tokenString s.cfg.endian a.toNat n.toNat)) (BitVec.ofNat 64 n.toNat) :=
  completes_of_exec (decide_eq_true hn) (execWriteBits_ok (s := s.accept a b []) hs hn hroom) (.refl _)

theorem canWrite_append (hs : s.canWrite) (bits : List Bool) : (s.append bits).canWrite := hs

/-- The WRITE_BITS of RESTORE for the first n bits of a word appends those n stream bits. -/
theorem writeBits_word (i : Nat) {n : Nat} (he : u.cfg.endian = s.cfg.endian) (hu : u.canWrite) (hn : n ≤ 64)
    (hroom : u.wlen + n ≤ u.cfg.capBits) :
    SameButPorts (u.append (streamBits s (64 * i) n))
      (issue (.writeBits (BitVec.ofNat 7 n)) (tailOperand s.cfg.endian (s.word i) n) 0 u).1 := by
  have hcount : (BitVec.ofNat 7 n).toNat = n := by
    rw [BitVec.toNat_ofNat]
    exact Nat.mod_eq_of_lt (by omega)
  obtain ⟨t, ht, hsame⟩ := writeBits_completes (n := BitVec.ofNat 7 n) (a := tailOperand s.cfg.endian (s.word i) n) (b := 0)
    hu (hcount.trans_le hn) (hcount.symm ▸ hroom)
  rw [he, hcount, streamBits_eq_token s i hn] at hsame
  rw [ht]
  exact hsame

/-- Writing the words of a stream back appends its bits. -/
theorem writeWords_eq (n i bits : Nat) (he : u.cfg.endian = s.cfg.endian) (hu : u.canWrite) (hn : n = wordsFor bits)
    (hroom : u.wlen + bits ≤ u.cfg.capBits) :
    SameButPorts (u.append (streamBits s (64 * i) bits))
      (writeWords s.cfg.endian bits ((List.range' i n).map s.word) u) := by
  induction n generalizing i bits u with
  | zero =>
    have hzero : bits = 0 := by simp only [wordsFor] at hn; omega
    subst hzero
    exact .refl u
  | succ n ih =>
    have hpos : bits ≠ 0 := by rintro rfl; simp [wordsFor] at hn
    rw [List.range'_succ, List.map_cons, writeWords, if_neg hpos]
    split
    case isTrue hfull =>
      have hsame := writeBits_word (s := s) i he hu (Nat.le_refl 64) (by omega)
      rw [tailOperand_full] at hsame
      have hwrite := hsame.canWrite (canWrite_append hu _)
      have hstep := hsame.append (streamBits s (64 * (i + 1)) (bits - 64))
      obtain ⟨hcfg, _, hwlen, _⟩ := hsame
      rw [append_cfg] at hcfg
      rw [append_wlen, streamBits_length] at hwlen
      rw [append_append, Nat.mul_succ, streamBits_append, Nat.add_sub_cancel' hfull] at hstep
      exact hstep.trans (ih (i + 1) (bits - 64) (hcfg ▸ he) hwrite (by simp only [wordsFor] at hn ⊢; omega)
        (by rw [hwlen, hcfg]; omega))
    case isFalse hpart => exact writeBits_word i he hu (by omega) (by omega)

/-- The unit after RESTORE of what was saved of s: the same stream, with the same configuration. -/
structure Restored (s u : State) : Prop where
  /-- The configuration. -/
  cfg : u.cfg = s.cfg
  /-- WLEN. -/
  wlen : u.wlen = s.wlen
  /-- The stream is finished. -/
  mode : u.mode = .frozen
  /-- No fault is recorded. -/
  fault : u.fault = none
  /-- Every bit of the words that hold stream bits, padding included. -/
  bits : ∀ p, p < 64 * wordsFor s.wlen → u.bit p = s.bit p
  /-- The cursors are those of a reset unit. -/
  cursor : ∀ r, u.cursor r = 0

/-- The unit before the FLUSH of RESTORE: the stream bits of s appended to a reset unit. -/
structure Rewritten (s t : State) : Prop where
  /-- The configuration. -/
  cfg : t.cfg = s.cfg
  /-- WLEN. -/
  wlen : t.wlen = s.wlen
  /-- The unit is BUILDING, with no fault. -/
  writes : t.canWrite
  /-- The buffer is in canonical form. -/
  canonical : t.buf.wf
  /-- The stream bits. -/
  bits : ∀ p, p < s.wlen → t.bit p = s.bit p
  /-- The cursors are those of a reset unit. -/
  rpos : t.rpos = Vector.replicate 16 0

/-- RESET and the WRITE_BITS commands of RESTORE. -/
theorem rewritten_of_writeWords (hs : s.Inv) (ht : SameButPorts t.resetUnit u) (hcfg : t.cfg = s.cfg) :
    Rewritten s (writeWords s.cfg.endian s.wlen ((List.range' 0 (wordsFor s.wlen)).map s.word) u) := by
  have hu : u.canWrite := ht.canWrite ⟨rfl, rfl⟩
  obtain ⟨ucfg, ubuf, uwlen, _, _, urpos⟩ := ht
  have ucfg : u.cfg = s.cfg := ucfg.trans hcfg
  rw [resetUnit_wlen] at uwlen
  have hwf : u.buf.wf := by rw [ubuf]; simp [Memory.wf]
  have hroom : u.wlen + s.wlen ≤ u.cfg.capBits := by
    have hlen := hs.length
    rw [uwlen, ucfg]
    omega
  have hsame := writeWords_eq (s := s) (wordsFor s.wlen) 0 s.wlen (congrArg Config.endian ucfg) hu rfl hroom
  have hwritten := (append_appended hwf (streamBits s (64 * 0) s.wlen)).written
  have hbit := hsame.bit
  have hwrite := hsame.canWrite (canWrite_append hu _)
  obtain ⟨cfg, buf, wlen, _, _, rpos⟩ := hsame
  rw [append_wlen, streamBits_length, uwlen, Nat.zero_add] at wlen
  refine ⟨cfg.trans ucfg, wlen, hwrite, ?_, fun p hp => ?_, rpos.trans urpos⟩
  · rw [buf]
    exact writeString_wf _ _ _ hwf _
  · have hstream := hwritten p (by simpa using hp)
    rw [uwlen, Nat.zero_add, streamBits_getElem, Nat.mul_zero, Nat.zero_add] at hstream
    exact (hbit p).trans hstream

/-- FLUSH gives the padding back: it was zero in s, which is FROZEN. -/
theorem restored_of_flush (hs : s.Inv) (hmode : s.mode = .frozen) (ht : Rewritten s t)
    (hu : SameButPorts { t.pad with mode := .frozen } u) : Restored s u := by
  have hbit := hu.bit
  obtain ⟨cfg, _, wlen, mode, fault, rpos⟩ := hu
  refine ⟨cfg.trans ht.cfg, wlen.trans ht.wlen, mode, fault.trans ht.writes.1, fun p hp => (hbit p).trans ?_,
    replicate_cursor (rpos.trans ht.rpos)⟩
  by_cases hlt : p < s.wlen
  · exact (bit_pad_outside ht.canonical (.inl (ht.wlen ▸ hlt))).trans (ht.bits p hlt)
  · rw [hs.padding hmode p (Nat.le_of_not_lt hlt) hp]
    rw [← ht.wlen] at hlt hp
    exact bit_pad_inside ht.canonical (Nat.le_of_not_lt hlt) hp

/-- RESTORE of the words of a frozen stream, on a unit of the same configuration. -/
theorem restore_eq (v : VectorRecord) (hs : s.Inv) (hmode : s.mode = .frozen) (hbits : v.bits = s.wlen)
    (hcfg : t.cfg = s.cfg) :
    ∃ u, restore ⟨s.cfg.endian, v, (List.range' 0 (wordsFor s.wlen)).map s.word⟩ t = (u, some v) ∧ Restored s u := by
  obtain ⟨t₁, hreset, hsame₁⟩ := reset_completes t 0 0
  have hwritten := rewritten_of_writeWords hs hsame₁ hcfg
  obtain ⟨u, hflush, hsame₂⟩ := flush_completes (a := 0) (b := 0) hwritten.writes
  refine ⟨u, ?_, restored_of_flush hs hmode hwritten hsame₂⟩
  simp only [restore, hreset, hcfg, hbits, hflush, okResult_ok, hwritten.wlen, if_true]

/-! ### Queries see the stream only -/

/-- The commands a query issues at context rid. -/
def QueryCommand (rid : BitVec 4) (i : Instr) : Prop := i = .setBitPos rid ∨ ∃ c : CodecName, i = c.dec rid

theorem readerOf_queryCommand {rid : BitVec 4} {i : Instr} (h : QueryCommand rid i) : readerOf i = some rid := by
  rcases h with rfl | ⟨c, rfl⟩
  · rfl
  · cases c <;> rfl

theorem wellFormed_queryCommand {rid : BitVec 4} {i : Instr} {nReaders : Nat} (h : QueryCommand rid i)
    (hreader : legalReader nReaders rid) : i.wellFormed nReaders = true := by
  rcases h with rfl | ⟨c, rfl⟩
  · exact decide_eq_true hreader
  · cases c <;> exact decide_eq_true hreader

/-- The word of a query command of an absent context is illegal. -/
theorem decode_of_absent {rid : BitVec 4} {i : Instr} {nReaders : Nat} (h : QueryCommand rid i)
    (hreader : ¬ legalReader nReaders rid) : decode nReaders (encode i) = .error .readerContext := by
  rcases h with rfl | ⟨c, rfl⟩
  · simp [decode, encode, requireZero_commandWord, requireReader, hreader]
  · cases c <;> simp [CodecName.dec, decode, encode, requireZero_commandWord, requireReader, hreader]

/-- The command itself does what its illegal word does (log entry 10). -/
theorem exec_of_absent {rid : BitVec 4} {i : Instr} (h : QueryCommand rid i) (hreader : ¬ legalReader s.cfg.nReaders rid) :
    exec i s = illegal s := by
  have hchecks (k : Result) :
      (if s.fault.isSome then blocked s else if ¬ legalReader s.cfg.nReaders rid then illegal s else k) = illegal s := by
    rw [if_pos hreader, illegal]
    split <;> rfl
  rcases h with rfl | ⟨c, rfl⟩
  · exact hchecks _
  · rw [exec_dec]
    exact hchecks _

/-- The word of a query command runs the command, whether its context exists or not. -/
theorem runWord_queryCommand {rid : BitVec 4} {i : Instr} (h : QueryCommand rid i) : runWord (encode i) s = exec i s := by
  by_cases hreader : legalReader s.cfg.nReaders rid
  · simp only [runWord, decodeInvertsEncode _ i (wellFormed_queryCommand h hreader)]
  · simp only [runWord, decode_of_absent h hreader, exec_of_absent h hreader]

theorem issue_queryCommand {rid : BitVec 4} {i : Instr} {a b : Word} (h : QueryCommand rid i)
    (he : exec i (s.accept a b []) = .next t) : issue i a b s = (t, t.reply) := by
  have hs : step { s with inputs := [.command (encode i) a b] } = .next t :=
    (step_command rfl).trans ((runWord_queryCommand h).trans he)
  simp [issue, hs]

/-- The two states agree on all a query at context rid sees. -/
structure ReadsAlike (rid : BitVec 4) (s u : State) : Prop where
  /-- The configuration. -/
  cfg : u.cfg = s.cfg
  /-- MODE. -/
  mode : u.mode = s.mode
  /-- WLEN. -/
  wlen : u.wlen = s.wlen
  /-- FAULT. -/
  fault : u.fault = s.fault
  /-- The stream bits. -/
  bits : ∀ p, p < s.wlen → u.bit p = s.bit p
  /-- The cursor of the context. -/
  cursor : u.cursor rid = s.cursor rid

/-- A command with a reader context leaves the stream as it is. -/
theorem reader_frame {i : Instr} {rid : BitVec 4} (hi : readerOf i = some rid) (he : exec i s = .next t) :
    t.cfg = s.cfg ∧ t.mode = s.mode ∧ t.wlen = s.wlen ∧ t.buf = s.buf := by
  cases effect_of_exec he with
  | turnedAway | raised | answers | moves => exact ⟨rfl, rfl, rfl, rfl⟩
  | appends hw => simp [not_writer_of_reader hi] at hw
  | freezes hi' | resets hi' => simp [hi', readerOf] at hi

/-- A query command answers alike on such states and leaves such states. -/
theorem issue_alike {rid : BitVec 4} {i : Instr} (a b : Word) (h : QueryCommand rid i) (hsu : ReadsAlike rid s u) :
    (issue i a b u).2 = (issue i a b s).2 ∧ ReadsAlike rid (issue i a b s).1 (issue i a b u).1 := by
  have hi := readerOf_queryCommand h
  obtain ⟨t, ht, _⟩ := exec_ends (s := s.accept a b []) i
  have hsame : SameReads rid (s.accept a b []) (u.accept a b []) :=
    ⟨hsu.cfg, hsu.mode, hsu.wlen, hsu.bits, ⟨rfl, rfl⟩, hsu.cursor⟩
  obtain ⟨t', ht', hreply, hfault, hcursor, _⟩ := exec_reader_congr hsame hsu.fault hi ht
  obtain ⟨cfg, mode, wlen, buf⟩ := reader_frame hi ht
  obtain ⟨cfg', mode', wlen', buf'⟩ := reader_frame hi ht'
  rw [issue_queryCommand h ht, issue_queryCommand h ht']
  refine ⟨hreply, cfg'.trans (hsu.cfg.trans cfg.symm), mode'.trans (hsu.mode.trans mode.symm),
    wlen'.trans (hsu.wlen.trans wlen.symm), hfault, fun p hp => ?_, hcursor⟩
  have hbit : t'.bit p = u.bit p := by simp only [State.bit, cfg', buf', accept_cfg, accept_buf]
  have hbit' : t.bit p = s.bit p := by simp only [State.bit, cfg, buf, accept_cfg, accept_buf]
  rw [hbit, hbit', hsu.bits p (wlen ▸ hp)]

theorem decodeMany_alike {rid : BitVec 4} (c : CodecName) (param : Word) (n : Nat) (hsu : ReadsAlike rid s u) :
    (decodeMany c rid param n u).2 = (decodeMany c rid param n s).2 := by
  induction n generalizing s u with
  | zero => rfl
  | succ n ih =>
    obtain ⟨hreply, hnext⟩ := issue_alike 0 param (.inr ⟨c, rfl⟩) hsu
    have hrest := ih hnext
    simp only [decodeMany, hreply]
    cases okResult (issue (c.dec rid) 0 param s).2 with
    | none => rfl
    | some x => simp only [hrest]

/-- After a seek the restored unit and the saved one are alike for the queries of every context: a context that exists
has its cursor set, one that does not has none. -/
theorem seek_alike (hs : s.Inv) (hf : s.fault = none) (hmode : s.mode = .frozen) (hu : Restored s u) (rid : BitVec 4)
    (a b : Word) : ReadsAlike rid (issue (.setBitPos rid) a b s).1 (issue (.setBitPos rid) a b u).1 := by
  have hbits (p : Nat) (hp : p < s.wlen) : u.bit p = s.bit p := hu.bits p (Nat.lt_of_lt_of_le hp (le_wordsFor _))
  by_cases hreader : legalReader s.cfg.nReaders rid
  · obtain ⟨t, ht, hsame⟩ := setBitPos_completes (a := a) (b := b) (s := s) ⟨hf, hreader, hmode⟩
    obtain ⟨t', ht', hsame'⟩ := setBitPos_completes (a := a) (b := b) (s := u) ⟨hu.fault, hu.cfg ▸ hreader, hu.mode⟩
    have hbit := hsame.bit
    have hbit' := hsame'.bit
    have hcursor := hsame.cursor rid
    have hcursor' := hsame'.cursor rid
    obtain ⟨cfg, _, wlen, mode, fault, _⟩ := hsame
    obtain ⟨cfg', _, wlen', mode', fault', _⟩ := hsame'
    rw [ht, ht']
    rw [cursor_setCursor_self] at hcursor hcursor'
    exact ⟨cfg'.trans (hu.cfg.trans cfg.symm), mode'.trans (hu.mode.trans (hmode.symm.trans mode.symm)),
      wlen'.trans (hu.wlen.trans wlen.symm), fault'.trans (hu.fault.trans (hf.symm.trans fault.symm)),
      fun p hp => (hbit' p).trans ((hbits p (wlen ▸ hp)).trans (hbit p).symm), hcursor'.trans hcursor.symm⟩
  · have habsent := hs.absent rid (Nat.le_of_not_lt hreader)
    have halike : ReadsAlike rid s u :=
      ⟨hu.cfg, hu.mode.trans hmode.symm, hu.wlen, hu.fault.trans hf.symm, hbits, (hu.cursor rid).trans habsent.symm⟩
    obtain ⟨_, hnext⟩ := issue_alike a b (.inl rfl) halike
    exact hnext

/-- Settles O60: SAVE reads the words of the stream, RESTORE appends and pads them to the same stream, and a query sees
nothing else. -/
theorem restoreAfterSaveGivesTheSameStream : Obligations.RestoreAfterSaveGivesTheSameStream := by
  intro v s hs hf hmode hbits
  have hmax : wordsFor s.wlen ≤ 2 ^ 64 := by
    have hlen := Nat.lt_of_le_of_lt hs.length (capBits_lt hs.config)
    rw [wordsFor]
    omega
  obtain ⟨t, hread, hsame⟩ := readWords_eq (wordsFor s.wlen) 0 hf hmode (Nat.zero_add _ ▸ Nat.le_refl _) hmax
  obtain ⟨hcfg, hbuf, hwlen, htmode, hfault, hrpos⟩ := hsame
  obtain ⟨u, hrestore, hu⟩ := restore_eq (t := t) v hs hmode hbits hcfg
  refine ⟨t, _, u, ?_, ⟨hbuf.symm, hwlen.symm, htmode.symm, hfault.symm, hrpos.symm⟩, rfl, rfl, hrestore, hu.cfg, hu.wlen,
    hu.mode, hu.fault, hu.bits, fun rid => ⟨fun i => ?_, ?_⟩⟩
  · simp only [save, hbits, hread, Option.map_some]
  · by_cases hi : v.count ≤ i
    · rw [get_of_ge hi, get_of_ge hi]
    · simp only [Machine.get, if_neg hi]
      rw [decodeMany_alike v.codec v.param _ (seek_alike hs hf hmode hu rid _ 0)]
  · rw [intoVec_eq, intoVec_eq]
    exact decodeMany_alike v.codec v.param _ (seek_alike hs hf hmode hu rid 0 0)

end Sys2Proof.Laws
end
